-- ==== Sys2Proof/Word.lean ====
section
/-! DEFINITION. The bit-vector types of the AltOr32: a byte (R60), a half word (R69) and a 32-bit word, the width of
every register, of an address and of an instruction (R6: XLEN, ILEN). -/

namespace Sys2Proof

/-- The unit of addressing, 8 bits (R60). -/
abbrev Byte := BitVec 8

/-- A half word, 16 bits (R69). -/
abbrev Half := BitVec 16

/-- A 32-bit value: a general register, `pc`, SR, EPC, ESR, an address or an instruction word (R6). -/
abbrev Word := BitVec 32

end Sys2Proof
end

