-- ==== Sys2Proof/Syntax.lean ====
section
/-! DEFINITION. The instruction set: one constructor for each of the 58 entries of the instruction list (R1, R102), that
is, for each row of spec/opcode_table.json. Operands are what the assembler syntax of R121 names; bits of a word that
no Encoding line names (R101) are not part of an instruction. -/

namespace Sys2Proof

/-- The number of a general register, 0 to 31 (R21, R110). -/
abbrev Reg := Fin 32

/-- The 58 instructions. `imm` is the 16-bit immediate of R111 or, in the stores and l.mtspr, the split immediate
`simm16s` of R112 put together; `offset` is the 26-bit field N of R113; `amount` is the number of bit positions L of
R114, which the encoding keeps below 64. -/
inductive Instr where
  /-- R141: l.add rD,rA,rB -/
  | lAdd (rD rA rB : Reg)
  /-- R142: l.addc rD,rA,rB -/
  | lAddc (rD rA rB : Reg)
  /-- R143: l.addi rD,rA,I -/
  | lAddi (rD rA : Reg) (imm : Half)
  /-- R144: l.and rD,rA,rB -/
  | lAnd (rD rA rB : Reg)
  /-- R145: l.andi rD,rA,K -/
  | lAndi (rD rA : Reg) (imm : Half)
  /-- R146: l.movhi rD,K -/
  | lMovhi (rD : Reg) (imm : Half)
  /-- R147: l.or rD,rA,rB -/
  | lOr (rD rA rB : Reg)
  /-- R148: l.ori rD,rA,K -/
  | lOri (rD rA : Reg) (imm : Half)
  /-- R149: l.sub rD,rA,rB -/
  | lSub (rD rA rB : Reg)
  /-- R150: l.xor rD,rA,rB -/
  | lXor (rD rA rB : Reg)
  /-- R151: l.xori rD,rA,I -/
  | lXori (rD rA : Reg) (imm : Half)
  /-- R161: l.sll rD,rA,rB -/
  | lSll (rD rA rB : Reg)
  /-- R162: l.slli rD,rA,L -/
  | lSlli (rD rA : Reg) (amount : Nat)
  /-- R163: l.sra rD,rA,rB -/
  | lSra (rD rA rB : Reg)
  /-- R164: l.srai rD,rA,L -/
  | lSrai (rD rA : Reg) (amount : Nat)
  /-- R165: l.srl rD,rA,rB -/
  | lSrl (rD rA rB : Reg)
  /-- R166: l.srli rD,rA,L -/
  | lSrli (rD rA : Reg) (amount : Nat)
  /-- R171: l.sfeq rA,rB -/
  | lSfeq (rA rB : Reg)
  /-- R172: l.sfeqi rA,I -/
  | lSfeqi (rA : Reg) (imm : Half)
  /-- R173: l.sfges rA,rB -/
  | lSfges (rA rB : Reg)
  /-- R174: l.sfgesi rA,I -/
  | lSfgesi (rA : Reg) (imm : Half)
  /-- R175: l.sfgeu rA,rB -/
  | lSfgeu (rA rB : Reg)
  /-- R176: l.sfgeui rA,I -/
  | lSfgeui (rA : Reg) (imm : Half)
  /-- R177: l.sfgts rA,rB -/
  | lSfgts (rA rB : Reg)
  /-- R178: l.sfgtsi rA,I -/
  | lSfgtsi (rA : Reg) (imm : Half)
  /-- R179: l.sfgtu rA,rB -/
  | lSfgtu (rA rB : Reg)
  /-- R180: l.sfgtui rA,I -/
  | lSfgtui (rA : Reg) (imm : Half)
  /-- R181: l.sfles rA,rB -/
  | lSfles (rA rB : Reg)
  /-- R182: l.sflesi rA,I -/
  | lSflesi (rA : Reg) (imm : Half)
  /-- R183: l.sfleu rA,rB -/
  | lSfleu (rA rB : Reg)
  /-- R184: l.sfleui rA,I -/
  | lSfleui (rA : Reg) (imm : Half)
  /-- R185: l.sflts rA,rB -/
  | lSflts (rA rB : Reg)
  /-- R186: l.sfltsi rA,I -/
  | lSfltsi (rA : Reg) (imm : Half)
  /-- R187: l.sfltu rA,rB -/
  | lSfltu (rA rB : Reg)
  /-- R188: l.sfltui rA,I -/
  | lSfltui (rA : Reg) (imm : Half)
  /-- R189: l.sfne rA,rB -/
  | lSfne (rA rB : Reg)
  /-- R190: l.sfnei rA,I -/
  | lSfnei (rA : Reg) (imm : Half)
  /-- R201: l.bf N -/
  | lBf (offset : BitVec 26)
  /-- R202: l.bnf N -/
  | lBnf (offset : BitVec 26)
  /-- R203: l.j N -/
  | lJ (offset : BitVec 26)
  /-- R204: l.jal N -/
  | lJal (offset : BitVec 26)
  /-- R205: l.jalr rB -/
  | lJalr (rB : Reg)
  /-- R206: l.jr rB -/
  | lJr (rB : Reg)
  /-- R221: l.lbs rD,I(rA) -/
  | lLbs (rD rA : Reg) (imm : Half)
  /-- R222: l.lbz rD,I(rA) -/
  | lLbz (rD rA : Reg) (imm : Half)
  /-- R223: l.lhs rD,I(rA) -/
  | lLhs (rD rA : Reg) (imm : Half)
  /-- R224: l.lhz rD,I(rA) -/
  | lLhz (rD rA : Reg) (imm : Half)
  /-- R225: l.lws rD,I(rA) -/
  | lLws (rD rA : Reg) (imm : Half)
  /-- R226: l.lwz rD,I(rA) -/
  | lLwz (rD rA : Reg) (imm : Half)
  /-- R227: l.sb I(rA),rB -/
  | lSb (rA rB : Reg) (imm : Half)
  /-- R228: l.sh I(rA),rB -/
  | lSh (rA rB : Reg) (imm : Half)
  /-- R229: l.sw I(rA),rB -/
  | lSw (rA rB : Reg) (imm : Half)
  /-- R241: l.mfspr rD,rA,K -/
  | lMfspr (rD rA : Reg) (imm : Half)
  /-- R242: l.mtspr rA,rB,K -/
  | lMtspr (rA rB : Reg) (imm : Half)
  /-- R243: l.nop K -/
  | lNop (imm : Half)
  /-- R244: l.rfe -/
  | lRfe
  /-- R245: l.sys K -/
  | lSys (imm : Half)
  /-- R246: l.trap K -/
  | lTrap (imm : Half)
  deriving DecidableEq, Repr

end Sys2Proof
end

