-- ==== Sys2Proof/Config.lean ====
section
/-! DEFINITION. What the platform around the core fixes (R6), and the moves its environment can make between two steps
(R296). Everything here is plain data, so that one definition of the machine serves every platform: a state carries
its platform (assumption log, entry 6), and a statement about every state is a statement about every platform.
The types stand here; what they mean (`busFaultAt`, `mappedAt`, `applyMove`) stands under `Sys2Proof/Machine/`. -/

namespace Sys2Proof

/-- The kinds of memory access that `BusFault(addr, n, kind)` tells apart (R6, R67). -/
inductive AccessKind where
  | fetch
  | load
  | store
  deriving DecidableEq, Repr

/-- A range of byte addresses, both ends included. -/
structure Region where
  first : Word
  last : Word
  deriving DecidableEq, Repr

/-- One line of the platform's `BusFault` predicate (R67): accesses of this kind and size whose address lies between
`first` and `last`, both included, are erroneous. -/
structure AccessRule where
  kind : AccessKind
  size : Nat
  first : Word
  last : Word
  deriving DecidableEq, Repr

/-- The parameters of R6 that say where a decoder looks: SHIFT_REG_SEL and SHIFT_IMM_SEL, each the two-bit field that
tells three shifts apart, given by the number of its lower bit, and NOP_MAJOR. -/
structure Encoding where
  /-- SHIFT_REG_SEL: the field that selects l.sll, l.srl or l.sra inside major opcode 0x38 (R117). -/
  shiftReg : Nat
  /-- SHIFT_IMM_SEL: the field that selects l.slli, l.srli or l.srai inside major opcode 0x2e (R117). -/
  shiftImm : Nat
  /-- NOP_MAJOR: the major opcode of l.nop (R116). -/
  nopMajor : BitVec 6
  deriving DecidableEq, Repr

/-- The parameters SR_IEE_BIT, SR_F_BIT and SR_CY_BIT of R6: where the three named fields stand in SR and ESR (R30). -/
structure StatusBits where
  iee : Fin 32
  f : Fin 32
  cy : Fin 32
  deriving DecidableEq, Repr

/-- The parameters SPR_SR, SPR_EPC and SPR_ESR of R6: the numbers of the three special registers (R40). -/
structure SprNumbers where
  sr : Word
  epc : Word
  esr : Word
  deriving DecidableEq, Repr

/-- The values of MISALIGNED_DATA (R6): what a misaligned half-word or word data access does. The spec gives a rule for
the first only (R66); the others are the alternatives it names (log entry 31). -/
inductive MisalignedData where
  /-- It raises the bus error (R66, the spec's decision D8). -/
  | busError
  /-- It has no meaning, and the instruction is refused (93_implementation_defined.md U6). -/
  | refuse
  /-- The low bits of its address are ignored ("truncation of the address", R66, D8). -/
  | truncate
  /-- It is made byte by byte at its own address ("a silent split", R66). -/
  | split
  deriving DecidableEq, Repr

/-- The platform parameters of R6: the four that no source gives a value (BOOT_VECTOR, ISR_VECTOR, `Mapped`,
`BusFault`) and those to which the spec gives a value but asks a model to keep configurable (R6,
92_eei_decisions.md). -/
structure Platform where
  /-- BOOT_VECTOR, the base of the reset vector (R71). -/
  bootVector : Word
  /-- ISR_VECTOR, the base of the other vectors (R71). -/
  isrVector : Word
  /-- `Mapped(addr)`: the byte addresses that hold memory are those in one of these regions (R60). -/
  mapped : List Region
  /-- `BusFault(addr, n, kind)`: holds when one of these rules matches (R67). -/
  busFaults : List AccessRule
  /-- BIG_ENDIAN: the byte order of data accesses and of instruction fetch (R62). -/
  bigEndian : Bool
  /-- R0_ZERO: register 0 reads as zero and ignores writes (R22, R23). -/
  r0Zero : Bool
  /-- SHIFT_REG_SEL, SHIFT_IMM_SEL and NOP_MAJOR (R116, R117). -/
  encoding : Encoding
  /-- SR_IEE_BIT, SR_F_BIT and SR_CY_BIT (R30). -/
  statusBits : StatusBits
  /-- SPR_SR, SPR_EPC and SPR_ESR (R40). -/
  sprNumbers : SprNumbers
  /-- MISALIGNED_DATA (R66). -/
  misalignedData : MisalignedData
  deriving DecidableEq, Repr

/-- The moves of R296 that the environment can make between two steps of the core. -/
inductive EnvMove where
  /-- `intr_i` becomes active. -/
  | assertInterrupt
  /-- `intr_i` becomes inactive. -/
  | releaseInterrupt
  /-- One pulse of `nmi_i`. -/
  | pulseNmi
  /-- `rst_i` becomes active. -/
  | assertReset
  /-- `rst_i` becomes inactive. -/
  | releaseReset
  /-- A device or another bus master writes one byte of memory. -/
  | writeByte (addr : Word) (value : Byte)
  /-- The platform changes which accesses it declares erroneous. -/
  | setBusFaults (rules : List AccessRule)
  deriving DecidableEq, Repr

end Sys2Proof
end

