-- ==== Sys2Proof/WellFormed.lean ====
section
/-! DEFINITION. Which instructions and platforms are well formed. Register numbers, immediates and offsets carry their
range in their type; what is left to check is the size of a shift amount, and the platform's parameters (R315 line 1). -/

namespace Sys2Proof

/-- The shift amount of an immediate shift is a 6-bit number (R114). -/
def shiftAmountFits (amount : Nat) : Bool := decide (amount < 64)

/-- The instruction has an encoding: its operands fit their fields (R110 to R114). -/
def Instr.wellFormed : Instr → Bool
  | .lAdd _ _ _ => true
  | .lAddc _ _ _ => true
  | .lAddi _ _ _ => true
  | .lAnd _ _ _ => true
  | .lAndi _ _ _ => true
  | .lMovhi _ _ => true
  | .lOr _ _ _ => true
  | .lOri _ _ _ => true
  | .lSub _ _ _ => true
  | .lXor _ _ _ => true
  | .lXori _ _ _ => true
  | .lSll _ _ _ => true
  | .lSlli _ _ amount => shiftAmountFits amount
  | .lSra _ _ _ => true
  | .lSrai _ _ amount => shiftAmountFits amount
  | .lSrl _ _ _ => true
  | .lSrli _ _ amount => shiftAmountFits amount
  | .lSfeq _ _ => true
  | .lSfeqi _ _ => true
  | .lSfges _ _ => true
  | .lSfgesi _ _ => true
  | .lSfgeu _ _ => true
  | .lSfgeui _ _ => true
  | .lSfgts _ _ => true
  | .lSfgtsi _ _ => true
  | .lSfgtu _ _ => true
  | .lSfgtui _ _ => true
  | .lSfles _ _ => true
  | .lSflesi _ _ => true
  | .lSfleu _ _ => true
  | .lSfleui _ _ => true
  | .lSflts _ _ => true
  | .lSfltsi _ _ => true
  | .lSfltu _ _ => true
  | .lSfltui _ _ => true
  | .lSfne _ _ => true
  | .lSfnei _ _ => true
  | .lBf _ => true
  | .lBnf _ => true
  | .lJ _ => true
  | .lJal _ => true
  | .lJalr _ => true
  | .lJr _ => true
  | .lLbs _ _ _ => true
  | .lLbz _ _ _ => true
  | .lLhs _ _ _ => true
  | .lLhz _ _ _ => true
  | .lLws _ _ _ => true
  | .lLwz _ _ _ => true
  | .lSb _ _ _ => true
  | .lSh _ _ _ => true
  | .lSw _ _ _ => true
  | .lMfspr _ _ _ => true
  | .lMtspr _ _ _ => true
  | .lNop _ => true
  | .lRfe => true
  | .lSys _ => true
  | .lTrap _ => true

/-- The range is not empty. -/
def Region.wellFormed (r : Region) : Bool := decide (r.first ≤ r.last)

/-- The rule names a width that an access can have (R69) and a range that is not empty. -/
def AccessRule.wellFormed (r : AccessRule) : Bool :=
  (r.size == 1 || r.size == 2 || r.size == 4) && decide (r.first ≤ r.last)

/-- The major opcodes that R116 lists for an instruction other than l.nop. -/
def otherMajors : List (BitVec 6) :=
  [0x00, 0x01, 0x03, 0x04, 0x06, 0x08, 0x09, 0x11, 0x12, 0x21, 0x22, 0x23, 0x24, 0x25, 0x26, 0x27, 0x29, 0x2a, 0x2b,
    0x2d, 0x2e, 0x2f, 0x30, 0x35, 0x36, 0x37, 0x38, 0x39]

/-- Each shift selector lies in bits that its format leaves to it (R102: bits 10 to 4 of RRR, bits 15 to 6 of SHI), and
the major opcode of l.nop is no other instruction's (R116). -/
def Encoding.wellFormed (e : Encoding) : Bool :=
  decide (4 ≤ e.shiftReg) && decide (e.shiftReg ≤ 9) && decide (6 ≤ e.shiftImm) && decide (e.shiftImm ≤ 14) &&
    !otherMajors.contains e.nopMajor

/-- The three fields of SR are three bits (R30). -/
def StatusBits.wellFormed (b : StatusBits) : Bool := decide (b.iee ≠ b.f ∧ b.iee ≠ b.cy ∧ b.f ≠ b.cy)

/-- The three special registers have three numbers (R40). -/
def SprNumbers.wellFormed (n : SprNumbers) : Bool := decide (n.sr ≠ n.epc ∧ n.sr ≠ n.esr ∧ n.epc ≠ n.esr)

/-- The parameters of R6 that name fields, bits and numbers name different ones. -/
def Platform.coherent (p : Platform) : Bool :=
  p.encoding.wellFormed && p.statusBits.wellFormed && p.sprNumbers.wellFormed

/-- Both vector bases are multiples of 4 (R315 line 1), every range of the platform is well formed, and its parameters
are coherent. -/
def Platform.wellFormed (p : Platform) : Bool :=
  decide (p.bootVector.toNat % 4 = 0) && decide (p.isrVector.toNat % 4 = 0) &&
    p.mapped.all Region.wellFormed && p.busFaults.all AccessRule.wellFormed && p.coherent

end Sys2Proof
end

