-- ==== Sys2Proof/Decode.lean ====
section
/-! DEFINITION. The instruction decoder (30_encoding.md) as the opcode table gives it, one row an instruction, and after
it the encoder, written from the format layouts of R102 and the selectors of R116 and R117. Both take the encoding
parameters of R6; at their default values the rows are those of spec/opcode_table.json. -/

namespace Sys2Proof

/-! ### Fields of an instruction word -/

/-- The `len` bits of `w` from bit `lo` up (R7: `w[lo+len-1:lo]`). -/
def field (w : Word) (lo len : Nat) : BitVec len := w.extractLsb' lo len

/-- The register number in the five bits of `w` from bit `lo` up (R110). -/
def regField (w : Word) (lo : Nat) : Reg := ⟨(field w lo 5).toNat, (field w lo 5).isLt⟩

/-- `rD = insn[25:21]` (R110). -/
def fieldD (w : Word) : Reg := regField w 21

/-- `rA = insn[20:16]` (R110). -/
def fieldA (w : Word) : Reg := regField w 16

/-- `rB = insn[15:11]` (R110). -/
def fieldB (w : Word) : Reg := regField w 11

/-- `imm16 = insn[15:0]` (R111). -/
def fieldImm (w : Word) : Half := field w 0 16

/-- `simm16s = insn[25:21] ++ insn[10:0]` (R112). -/
def fieldSplitImm (w : Word) : Half := field w 21 5 ++ field w 0 11

/-- `N = insn[25:0]` (R113). -/
def fieldOffset (w : Word) : BitVec 26 := field w 0 26

/-- `L = insn[5:0]` (R114). -/
def fieldAmount (w : Word) : Nat := (field w 0 6).toNat

/-! ### The encoding parameters -/

/-- The encoding parameters as R6 gives them: SHIFT_REG_SEL bits [9:8], as the sources say (D3); SHIFT_IMM_SEL bits [7:6],
taken from OpenRISC 1000 by the spec's decision D2 (both log entry 11); NOP_MAJOR 0x15, as the sources say (D32; log
entry 24). -/
def defaultEncoding : Encoding where
  shiftReg := 8
  shiftImm := 6
  nopMajor := 0x15#6

/-! ### The opcode table -/

/-- One row of the opcode table: `w` is the instruction exactly when `w AND mask = pattern` (R101), and `build` reads
its operands. -/
structure Row where
  mask : Word
  pattern : Word
  build : Word → Instr

/-- The selector lines of the row's entry all hold of `w` (R101). -/
def Row.selects (r : Row) (w : Word) : Bool := w &&& r.mask == r.pattern

/-- Arithmetic and logic (40_alu.md): the rows of R116 and R117. -/
def arithRows : List Row := [
  ⟨0xFC00030F, 0xE0000000, fun w => Instr.lAdd (fieldD w) (fieldA w) (fieldB w)⟩,
  ⟨0xFC00030F, 0xE0000001, fun w => Instr.lAddc (fieldD w) (fieldA w) (fieldB w)⟩,
  ⟨0xFC000000, 0x9C000000, fun w => Instr.lAddi (fieldD w) (fieldA w) (fieldImm w)⟩,
  ⟨0xFC00030F, 0xE0000003, fun w => Instr.lAnd (fieldD w) (fieldA w) (fieldB w)⟩,
  ⟨0xFC000000, 0xA4000000, fun w => Instr.lAndi (fieldD w) (fieldA w) (fieldImm w)⟩,
  ⟨0xFC000000, 0x18000000, fun w => Instr.lMovhi (fieldD w) (fieldImm w)⟩,
  ⟨0xFC00030F, 0xE0000004, fun w => Instr.lOr (fieldD w) (fieldA w) (fieldB w)⟩,
  ⟨0xFC000000, 0xA8000000, fun w => Instr.lOri (fieldD w) (fieldA w) (fieldImm w)⟩,
  ⟨0xFC00030F, 0xE0000002, fun w => Instr.lSub (fieldD w) (fieldA w) (fieldB w)⟩,
  ⟨0xFC00030F, 0xE0000005, fun w => Instr.lXor (fieldD w) (fieldA w) (fieldB w)⟩,
  ⟨0xFC000000, 0xAC000000, fun w => Instr.lXori (fieldD w) (fieldA w) (fieldImm w)⟩]

/-- The mask of a row selected by these bits and by the two-bit field from bit `lo` up. -/
def selectorMask (bits : Word) (lo : Nat) : Word := bits ||| 3#32 <<< lo

/-- The pattern of a row selected by these bits and by the value `v` of the two-bit field from bit `lo` up. -/
def selectorPattern (bits : Word) (v : BitVec 2) (lo : Nat) : Word := bits ||| v.setWidth 32 <<< lo

/-- Shifts (41_shift.md): the rows of R116 and R117, their selectors where the parameters put them. -/
def shiftRows (e : Encoding) : List Row := [
  ⟨selectorMask 0xFC00000F e.shiftReg, selectorPattern 0xE0000008 0 e.shiftReg,
    fun w => Instr.lSll (fieldD w) (fieldA w) (fieldB w)⟩,
  ⟨selectorMask 0xFC000000 e.shiftImm, selectorPattern 0xB8000000 0 e.shiftImm,
    fun w => Instr.lSlli (fieldD w) (fieldA w) (fieldAmount w)⟩,
  ⟨selectorMask 0xFC00000F e.shiftReg, selectorPattern 0xE0000008 2 e.shiftReg,
    fun w => Instr.lSra (fieldD w) (fieldA w) (fieldB w)⟩,
  ⟨selectorMask 0xFC000000 e.shiftImm, selectorPattern 0xB8000000 2 e.shiftImm,
    fun w => Instr.lSrai (fieldD w) (fieldA w) (fieldAmount w)⟩,
  ⟨selectorMask 0xFC00000F e.shiftReg, selectorPattern 0xE0000008 1 e.shiftReg,
    fun w => Instr.lSrl (fieldD w) (fieldA w) (fieldB w)⟩,
  ⟨selectorMask 0xFC000000 e.shiftImm, selectorPattern 0xB8000000 1 e.shiftImm,
    fun w => Instr.lSrli (fieldD w) (fieldA w) (fieldAmount w)⟩]

/-- Compares (42_compare.md): the rows of R116 and R117. -/
def compareRows : List Row := [
  ⟨0xFFE00000, 0xE4000000, fun w => Instr.lSfeq (fieldA w) (fieldB w)⟩,
  ⟨0xFFE00000, 0xBC000000, fun w => Instr.lSfeqi (fieldA w) (fieldImm w)⟩,
  ⟨0xFFE00000, 0xE5600000, fun w => Instr.lSfges (fieldA w) (fieldB w)⟩,
  ⟨0xFFE00000, 0xBD600000, fun w => Instr.lSfgesi (fieldA w) (fieldImm w)⟩,
  ⟨0xFFE00000, 0xE4600000, fun w => Instr.lSfgeu (fieldA w) (fieldB w)⟩,
  ⟨0xFFE00000, 0xBC600000, fun w => Instr.lSfgeui (fieldA w) (fieldImm w)⟩,
  ⟨0xFFE00000, 0xE5400000, fun w => Instr.lSfgts (fieldA w) (fieldB w)⟩,
  ⟨0xFFE00000, 0xBD400000, fun w => Instr.lSfgtsi (fieldA w) (fieldImm w)⟩,
  ⟨0xFFE00000, 0xE4400000, fun w => Instr.lSfgtu (fieldA w) (fieldB w)⟩,
  ⟨0xFFE00000, 0xBC400000, fun w => Instr.lSfgtui (fieldA w) (fieldImm w)⟩,
  ⟨0xFFE00000, 0xE5A00000, fun w => Instr.lSfles (fieldA w) (fieldB w)⟩,
  ⟨0xFFE00000, 0xBDA00000, fun w => Instr.lSflesi (fieldA w) (fieldImm w)⟩,
  ⟨0xFFE00000, 0xE4A00000, fun w => Instr.lSfleu (fieldA w) (fieldB w)⟩,
  ⟨0xFFE00000, 0xBCA00000, fun w => Instr.lSfleui (fieldA w) (fieldImm w)⟩,
  ⟨0xFFE00000, 0xE5800000, fun w => Instr.lSflts (fieldA w) (fieldB w)⟩,
  ⟨0xFFE00000, 0xBD800000, fun w => Instr.lSfltsi (fieldA w) (fieldImm w)⟩,
  ⟨0xFFE00000, 0xE4800000, fun w => Instr.lSfltu (fieldA w) (fieldB w)⟩,
  ⟨0xFFE00000, 0xBC800000, fun w => Instr.lSfltui (fieldA w) (fieldImm w)⟩,
  ⟨0xFFE00000, 0xE4200000, fun w => Instr.lSfne (fieldA w) (fieldB w)⟩,
  ⟨0xFFE00000, 0xBC200000, fun w => Instr.lSfnei (fieldA w) (fieldImm w)⟩]

/-- Branches and jumps (43_branch_jump.md): the rows of R116 and R117. -/
def branchRows : List Row := [
  ⟨0xFC000000, 0x10000000, fun w => Instr.lBf (fieldOffset w)⟩,
  ⟨0xFC000000, 0x0C000000, fun w => Instr.lBnf (fieldOffset w)⟩,
  ⟨0xFC000000, 0x00000000, fun w => Instr.lJ (fieldOffset w)⟩,
  ⟨0xFC000000, 0x04000000, fun w => Instr.lJal (fieldOffset w)⟩,
  ⟨0xFC000000, 0x48000000, fun w => Instr.lJalr (fieldB w)⟩,
  ⟨0xFC000000, 0x44000000, fun w => Instr.lJr (fieldB w)⟩]

/-- Loads and stores (44_load_store.md): the rows of R116 and R117. -/
def loadStoreRows : List Row := [
  ⟨0xFC000000, 0x90000000, fun w => Instr.lLbs (fieldD w) (fieldA w) (fieldImm w)⟩,
  ⟨0xFC000000, 0x8C000000, fun w => Instr.lLbz (fieldD w) (fieldA w) (fieldImm w)⟩,
  ⟨0xFC000000, 0x98000000, fun w => Instr.lLhs (fieldD w) (fieldA w) (fieldImm w)⟩,
  ⟨0xFC000000, 0x94000000, fun w => Instr.lLhz (fieldD w) (fieldA w) (fieldImm w)⟩,
  ⟨0xFC000000, 0x88000000, fun w => Instr.lLws (fieldD w) (fieldA w) (fieldImm w)⟩,
  ⟨0xFC000000, 0x84000000, fun w => Instr.lLwz (fieldD w) (fieldA w) (fieldImm w)⟩,
  ⟨0xFC000000, 0xD8000000, fun w => Instr.lSb (fieldA w) (fieldB w) (fieldSplitImm w)⟩,
  ⟨0xFC000000, 0xDC000000, fun w => Instr.lSh (fieldA w) (fieldB w) (fieldSplitImm w)⟩,
  ⟨0xFC000000, 0xD4000000, fun w => Instr.lSw (fieldA w) (fieldB w) (fieldSplitImm w)⟩]

/-- System instructions (45_system.md): the rows of R116 and R117, l.nop where NOP_MAJOR puts it. -/
def systemRows (e : Encoding) : List Row := [
  ⟨0xFC000000, 0xB4000000, fun w => Instr.lMfspr (fieldD w) (fieldA w) (fieldImm w)⟩,
  ⟨0xFC000000, 0xC0000000, fun w => Instr.lMtspr (fieldA w) (fieldB w) (fieldSplitImm w)⟩,
  ⟨0xFC000000, e.nopMajor ++ 0#26, fun w => Instr.lNop (fieldImm w)⟩,
  ⟨0xFC000000, 0x24000000, fun _ => Instr.lRfe⟩,
  ⟨0xFFFF0000, 0x20000000, fun w => Instr.lSys (fieldImm w)⟩,
  ⟨0xFFFF0000, 0x21000000, fun w => Instr.lTrap (fieldImm w)⟩]

/-- The opcode table: all 58 rows. -/
def opcodeRows (e : Encoding) : List Row :=
  arithRows ++ shiftRows e ++ compareRows ++ branchRows ++ loadStoreRows ++ systemRows e

/-! ### Decoding -/

/-- Why bytes are no instruction. A full word that is none raises the illegal-instruction exception (R118), whichever of
these names it has. -/
inductive Reject where
  /-- Fewer than the four bytes of an instruction (R100). -/
  | truncated
  /-- The major opcode is not listed in R116. -/
  | unlistedMajor (major : BitVec 6)
  /-- Major opcode 0x08 and `insn[25:16]` is neither l.sys nor l.trap (R117, R247). -/
  | unlistedSystem (selector : BitVec 10)
  /-- Major opcode 0x38 and no instruction for `sel2`, `fn4` (R117); `sel2` is the shift selector where `fn4` is that of
  the shifts. -/
  | unlistedRegister (sel2 : BitVec 2) (fn4 : BitVec 4)
  /-- Major opcode 0x2e and the shift selector is 3 (R117). -/
  | unlistedShift
  /-- Major opcode 0x2f or 0x39 and no comparison for `cond` (R117). -/
  | unlistedCompare (cond : BitVec 5)
  deriving DecidableEq, Repr

/-- The name of the reason why a word that no row selects is illegal, by its major opcode (R116, R117). -/
def rejectReason (e : Encoding) (w : Word) : Reject :=
  let major := field w 26 6
  if major = 0x08#6 then .unlistedSystem (field w 16 10)
  else if major = 0x38#6 then 
    .unlistedRegister (if field w 0 4 = 0x8#4 then field w e.shiftReg 2 else field w 8 2) (field w 0 4)
  else if major = 0x2e#6 then .unlistedShift
  else if major = 0x2f#6 ∨ major = 0x39#6 then .unlistedCompare (field w 21 5)
  else .unlistedMajor major

/-- Decode one instruction word: the row that selects it builds the instruction; a word that no row selects is an
"Unsupported instruction" (R101, R118). -/
def decodeWord (e : Encoding) (w : Word) : Except Reject Instr :=
  match (opcodeRows e).find? (·.selects w) with
  | some r => .ok (r.build w)
  | none => .error (rejectReason e w)

/-- The word whose bytes, from the lowest address up, are these four, most significant first (R64). -/
def wordOfBytes (b0 b1 b2 b3 : Byte) : Word := b0 ++ b1 ++ b2 ++ b3

/-- The bytes of a word, most significant first (R63, R64). -/
def bytesOfWord (w : Word) : List Byte := [field w 24 8, field w 16 8, field w 8 8, field w 0 8]

/-- Decode the instruction at the head of a list of bytes, as they stand in memory from the lowest address up in the
spec's byte order (R64, R100), and give the bytes after it. -/
def decode (e : Encoding) : List Byte → Except Reject (Instr × List Byte)
  | b0 :: b1 :: b2 :: b3 :: rest =>
    match decodeWord e (wordOfBytes b0 b1 b2 b3) with
    | .ok i => .ok (i, rest)
    | .error r => .error r
  | _ => .error .truncated

/-- The instruction that the decoder reads, at the default parameters, from a row of the opcode table: the `nbits` low bits
of `w`, laid out as the hardware stores them. -/
def decodeTableWord (nbits w : Nat) : Option Instr :=
  match decode defaultEncoding (bytesOfWord (BitVec.ofNat 32 (w % 2 ^ nbits))) with
  | .ok (i, _) => some i
  | .error _ => none

/-! ### Encoding, format by format (R102); ignored bits are written 0 (R124) -/

/-- The five bits of a register number (R110). -/
def regBits (r : Reg) : BitVec 5 := BitVec.ofNat 5 r.val

/-- The bits of `x` standing in a word from bit `lo` up, every other bit 0. -/
def place {n : Nat} (x : BitVec n) (lo : Nat) : Word := x.setWidth 32 <<< lo

/-- Format J. -/
def formatJ (major : BitVec 6) (offset : BitVec 26) : Word := place major 26 ||| place offset 0

/-- Format JR. -/
def formatJR (major : BitVec 6) (rB : Reg) : Word := place major 26 ||| place (regBits rB) 11

/-- Format RRR, with its selectors: `sel2`, standing from bit `lo` up, and `fn4`. -/
def formatRRR (lo : Nat) (sel2 : BitVec 2) (fn4 : BitVec 4) (rD rA rB : Reg) : Word :=
  place 0x38#6 26 ||| place (regBits rD) 21 ||| place (regBits rA) 16 ||| place (regBits rB) 11 |||
    place sel2 lo ||| place fn4 0

/-- Format RRI. -/
def formatRRI (major : BitVec 6) (rD rA : Reg) (imm : Half) : Word :=
  place major 26 ||| place (regBits rD) 21 ||| place (regBits rA) 16 ||| place imm 0

/-- Format RI. -/
def formatRI (major : BitVec 6) (rD : Reg) (imm : Half) : Word :=
  place major 26 ||| place (regBits rD) 21 ||| place imm 0

/-- Format RSI: the immediate is split around the register fields (R112). -/
def formatRSI (major : BitVec 6) (rA rB : Reg) (imm : Half) : Word :=
  place major 26 ||| place (imm.extractLsb' 11 5) 21 ||| place (regBits rA) 16 ||| place (regBits rB) 11 |||
    place (imm.extractLsb' 0 11) 0

/-- Format SF, with its condition. -/
def formatSF (cond : BitVec 5) (rA rB : Reg) : Word :=
  place 0x39#6 26 ||| place cond 21 ||| place (regBits rA) 16 ||| place (regBits rB) 11

/-- Format SFI, with its condition. -/
def formatSFI (cond : BitVec 5) (rA : Reg) (imm : Half) : Word :=
  place 0x2f#6 26 ||| place cond 21 ||| place (regBits rA) 16 ||| place imm 0

/-- Format SHI, with its selector `shsel` standing from bit `lo` up (R117). -/
def formatSHI (lo : Nat) (shsel : BitVec 2) (rD rA : Reg) (amount : Nat) : Word :=
  place 0x2e#6 26 ||| place (regBits rD) 21 ||| place (regBits rA) 16 ||| place shsel lo |||
    place (BitVec.ofNat 6 amount) 0

/-- Format NOP. -/
def formatNOP (major : BitVec 6) (imm : Half) : Word := place major 26 ||| place imm 0

/-- Format RFE. -/
def formatRFE : Word := place 0x09#6 26

/-- Format SYS, with its 16-bit opcode. -/
def formatSYS (opcode : BitVec 16) (imm : Half) : Word := place opcode 16 ||| place imm 0

/-- The canonical word of an instruction (R124). -/
def encodeWord (e : Encoding) : Instr → Word
  | .lAdd rD rA rB => formatRRR 8 0#2 0x0#4 rD rA rB
  | .lAddc rD rA rB => formatRRR 8 0#2 0x1#4 rD rA rB
  | .lAddi rD rA imm => formatRRI 0x27#6 rD rA imm
  | .lAnd rD rA rB => formatRRR 8 0#2 0x3#4 rD rA rB
  | .lAndi rD rA imm => formatRRI 0x29#6 rD rA imm
  | .lMovhi rD imm => formatRI 0x06#6 rD imm
  | .lOr rD rA rB => formatRRR 8 0#2 0x4#4 rD rA rB
  | .lOri rD rA imm => formatRRI 0x2a#6 rD rA imm
  | .lSub rD rA rB => formatRRR 8 0#2 0x2#4 rD rA rB
  | .lXor rD rA rB => formatRRR 8 0#2 0x5#4 rD rA rB
  | .lXori rD rA imm => formatRRI 0x2b#6 rD rA imm
  | .lSll rD rA rB => formatRRR e.shiftReg 0#2 0x8#4 rD rA rB
  | .lSlli rD rA amount => formatSHI e.shiftImm 0#2 rD rA amount
  | .lSra rD rA rB => formatRRR e.shiftReg 2#2 0x8#4 rD rA rB
  | .lSrai rD rA amount => formatSHI e.shiftImm 2#2 rD rA amount
  | .lSrl rD rA rB => formatRRR e.shiftReg 1#2 0x8#4 rD rA rB
  | .lSrli rD rA amount => formatSHI e.shiftImm 1#2 rD rA amount
  | .lSfeq rA rB => formatSF 0x00#5 rA rB
  | .lSfeqi rA imm => formatSFI 0x00#5 rA imm
  | .lSfges rA rB => formatSF 0x0b#5 rA rB
  | .lSfgesi rA imm => formatSFI 0x0b#5 rA imm
  | .lSfgeu rA rB => formatSF 0x03#5 rA rB
  | .lSfgeui rA imm => formatSFI 0x03#5 rA imm
  | .lSfgts rA rB => formatSF 0x0a#5 rA rB
  | .lSfgtsi rA imm => formatSFI 0x0a#5 rA imm
  | .lSfgtu rA rB => formatSF 0x02#5 rA rB
  | .lSfgtui rA imm => formatSFI 0x02#5 rA imm
  | .lSfles rA rB => formatSF 0x0d#5 rA rB
  | .lSflesi rA imm => formatSFI 0x0d#5 rA imm
  | .lSfleu rA rB => formatSF 0x05#5 rA rB
  | .lSfleui rA imm => formatSFI 0x05#5 rA imm
  | .lSflts rA rB => formatSF 0x0c#5 rA rB
  | .lSfltsi rA imm => formatSFI 0x0c#5 rA imm
  | .lSfltu rA rB => formatSF 0x04#5 rA rB
  | .lSfltui rA imm => formatSFI 0x04#5 rA imm
  | .lSfne rA rB => formatSF 0x01#5 rA rB
  | .lSfnei rA imm => formatSFI 0x01#5 rA imm
  | .lBf offset => formatJ 0x04#6 offset
  | .lBnf offset => formatJ 0x03#6 offset
  | .lJ offset => formatJ 0x00#6 offset
  | .lJal offset => formatJ 0x01#6 offset
  | .lJalr rB => formatJR 0x12#6 rB
  | .lJr rB => formatJR 0x11#6 rB
  | .lLbs rD rA imm => formatRRI 0x24#6 rD rA imm
  | .lLbz rD rA imm => formatRRI 0x23#6 rD rA imm
  | .lLhs rD rA imm => formatRRI 0x26#6 rD rA imm
  | .lLhz rD rA imm => formatRRI 0x25#6 rD rA imm
  | .lLws rD rA imm => formatRRI 0x22#6 rD rA imm
  | .lLwz rD rA imm => formatRRI 0x21#6 rD rA imm
  | .lSb rA rB imm => formatRSI 0x36#6 rA rB imm
  | .lSh rA rB imm => formatRSI 0x37#6 rA rB imm
  | .lSw rA rB imm => formatRSI 0x35#6 rA rB imm
  | .lMfspr rD rA imm => formatRRI 0x2d#6 rD rA imm
  | .lMtspr rA rB imm => formatRSI 0x30#6 rA rB imm
  | .lNop imm => formatNOP e.nopMajor imm
  | .lRfe => formatRFE
  | .lSys imm => formatSYS 0x2000#16 imm
  | .lTrap imm => formatSYS 0x2100#16 imm

/-- The bytes of an instruction from the lowest address up, in the spec's byte order (R64). -/
def encode (e : Encoding) (i : Instr) : List Byte := bytesOfWord (encodeWord e i)

end Sys2Proof
end

