-- ==== Sys2Proof/Machine/Defaults.lean ====
section
/-! DEFINITION. The values that no source states and that the model names (assumption log, entries 1, 3, 4, 5): what
the general registers hold after reset, what a byte of memory that nothing has written reads as, and the platform that
`State.reset` stands on, with the values that R6 gives its other parameters. -/

namespace Sys2Proof.Machine

/-- The value of every general register after reset. DESIGN CHOICE, unsafe (log entry 1): R51 gives none. -/
def resetRegisterValue : Word := 0#32

/-- What a byte that nothing has written reads as. DESIGN CHOICE, unsafe (log entry 3): R52 leaves the content of memory
after reset to the platform. -/
def unlistedByte : Byte := 0#8

/-- BOOT_VECTOR of `State.reset`. DESIGN CHOICE, unsafe (log entry 4): the spec leaves the parameter open (R71). -/
def defaultBootVector : Word := 0#32

/-- ISR_VECTOR of `State.reset`. DESIGN CHOICE, unsafe (log entry 4): the spec leaves the parameter open (R71). -/
def defaultIsrVector : Word := 0#32

/-- `Mapped` of `State.reset`: every address holds memory. DESIGN CHOICE, unsafe (log entry 5): the spec leaves the
predicate open (R60). -/
def defaultMapped : List Region := [⟨0x00000000#32, 0xFFFFFFFF#32⟩]

/-- SR_IEE_BIT, SR_F_BIT and SR_CY_BIT: the OpenRISC 1000 positions, by the spec's decision D14 (R30; log entry 9). -/
def defaultStatusBits : StatusBits where
  iee := 2
  f := 9
  cy := 10

/-- SPR_SR, SPR_EPC and SPR_ESR: the OpenRISC 1000 numbers, by the spec's decision D15 (R40; log entry 10). -/
def defaultSprNumbers : SprNumbers where
  sr := 0x0011#32
  epc := 0x0020#32
  esr := 0x0040#32

/-- The platform of `State.reset`: the parameters of R6, each at its default or at the value named above. -/
def defaultPlatform : Platform where
  bootVector := defaultBootVector
  isrVector := defaultIsrVector
  mapped := defaultMapped
  busFaults := []
  bigEndian := true
  r0Zero := true
  encoding := defaultEncoding
  statusBits := defaultStatusBits
  sprNumbers := defaultSprNumbers
  misalignedData := .busError

end Sys2Proof.Machine
end

