-- ==== Sys2Proof/Machine/State.lean ====
section
/-! DEFINITION. The state of the machine: the architectural state of R20, the three inputs of R12, and the platform and
the script of the environment's moves that a run stands on. All of it is plain data. -/

namespace Sys2Proof.Machine

/-- Memory: the bytes that differ from `unlistedByte`, as (address, byte) pairs with rising addresses (`Memory.wf`). -/
abbrev Memory := List Host.Cell

/-- The machine's state. -/
structure State where
  /-- The general registers `x[0]` to `x[31]` (R21). Slot 0 is read and written only where R0_ZERO is false (R22). -/
  regs : Vector Word 32
  /-- The address of the next instruction to execute (R26, R262). -/
  pc : Word
  /-- The status register SR (R30). -/
  sr : Word
  /-- The exception program counter (R36). -/
  epc : Word
  /-- The exception status register (R37). -/
  esr : Word
  /-- The latch of the non-maskable interrupt (R45). -/
  nmiPending : Bool
  /-- The bytes of memory (R60). -/
  mem : Memory
  /-- The level of the input `rst_i` (R12, R311). -/
  rst : Bool
  /-- The level of the input `intr_i` (R12, R46). -/
  intr : Bool
  /-- The environment's moves to come (R12, R296): the head is the list of moves made before the next step. The model's
  own field (log entry 7). -/
  script : List (List EnvMove)
  /-- The platform parameters (R6). The model's own field (log entry 6). -/
  platform : Platform
  deriving DecidableEq, Repr

/-- Why a step can have no next state and no meaning at all in the spec. -/
inductive Fault where
  /-- Raised by the fetch of a step and by the loads and stores: the access has a byte where the platform has no memory
  (`Mapped` false) and the platform declares no bus error for it. R67: "has no meaning in this spec: a model gives it no
  step". Safe: nothing is proved of a run beyond it. -/
  | unmapped (kind : AccessKind) (addr : Word)
  deriving DecidableEq, Repr

/-- Why an instruction is refused. -/
inductive Refusal where
  /-- Raised by an arm of `exec` whose instruction has no meaning yet. Safe. No arm of this model raises it. -/
  | notModelled (mnemonic : String)
  /-- Raised by l.mfspr and l.mtspr with a special-register number other than those of SR, EPC and ESR. R40: "no
  meaning: a model refuses the instruction". Safe. -/
  | undefinedSpecialRegister (number : Word)
  /-- Raised by l.mtspr when it would write, and by l.rfe when it would restore, a value of SR or ESR with a bit other
  than IEE, F and CY set. R34: "has no meaning in this spec and a model refuses it". Safe. -/
  | reservedStatusBits (value : Word)
  /-- Raised by the half-word and word loads and stores at a misaligned address, only where the platform's
  MISALIGNED_DATA is `refuse`, the alternative that 93_implementation_defined.md U6 names; in `State.reset` it is the bus
  error. Safe. -/
  | misalignedAccess (addr : Word)
  deriving DecidableEq, Repr

/-- What a step, or an instruction, answers. -/
abbrev Result := Host.Outcome State Fault Refusal

/-- The general registers right after reset (R51; log entry 1). -/
def resetRegisters : Vector Word 32 := Vector.replicate 32 resetRegisterValue

/-- The machine right after reset (R50, R312), on the default platform, with its inputs inactive and no move of the
environment to come. -/
def State.reset : State where
  regs := resetRegisters
  pc := defaultPlatform.bootVector + 0x100#32
  sr := 0#32
  epc := 0#32
  esr := 0#32
  nmiPending := false
  mem := []
  rst := false
  intr := false
  script := []
  platform := defaultPlatform

end Sys2Proof.Machine
end

