-- ==== Sys2Proof/Machine/Flags.lean ====
section
/-! DEFINITION. The status register's fields (R30 to R34), the carry out of an addition (R152) and the relations of the
compares (R170, R191). -/

namespace Sys2Proof.Machine

/-- `w` with bit `n` made `b` and every other bit as it was. -/
def withBit (w : Word) (n : Nat) (b : Bool) : Word :=
  if b then w ||| (1#32 <<< n) else w &&& ~~~(1#32 <<< n)

/-- The bits of SR and ESR that the sources name: IEE, F and CY, where the platform puts them (R30; log entry 9). -/
def namedBits (b : StatusBits) : Word := (1#32 <<< b.iee.val) ||| (1#32 <<< b.f.val) ||| (1#32 <<< b.cy.val)

/-- A bit other than IEE, F and CY is set in `v` (R34). -/
def hasReservedBits (b : StatusBits) (v : Word) : Bool := v &&& ~~~namedBits b != 0#32

/-- SR.IEE, the external interrupt enable (R33). -/
def State.flagIEE (s : State) : Bool := s.sr.getLsbD s.platform.statusBits.iee

/-- SR.F, the compare flag (R31). -/
def State.flagF (s : State) : Bool := s.sr.getLsbD s.platform.statusBits.f

/-- SR.CY, the carry flag (R32). -/
def State.flagCY (s : State) : Bool := s.sr.getLsbD s.platform.statusBits.cy

/-- Write SR.F and no other bit of SR (R31). -/
def State.setF (s : State) (b : Bool) : State := { s with sr := withBit s.sr s.platform.statusBits.f b }

/-- Write SR.CY and no other bit of SR (R32). -/
def State.setCY (s : State) (b : Bool) : State := { s with sr := withBit s.sr s.platform.statusBits.cy b }

/-- `sum33` of R152: the exact sum of two addends, read as unsigned integers, and a carry in. -/
def sum33 (a b : Word) (c : Bool) : Nat := a.toNat + b.toNat + c.toNat

/-- The 32-bit result of an addition: `sum33 mod 2^32` (R152). -/
def sumResult (a b : Word) (c : Bool) : Word := BitVec.ofNat 32 (sum33 a b c)

/-- The carry out of an addition: whether `sum33 >= 2^32` (R152). -/
def carryOut (a b : Word) (c : Bool) : Bool := decide (2 ^ 32 ≤ sum33 a b c)

/-- The ten relations of the compares (R170). -/
inductive Relation where
  | eq
  | ne
  | gtu
  | geu
  | ltu
  | leu
  | gts
  | ges
  | lts
  | les
  deriving DecidableEq, Repr

/-- Whether a relation holds between `a` and `b`: on the bit patterns, on the values read as unsigned, or on the values
read as signed integers (R191). -/
def relationHolds (r : Relation) (a b : Word) : Bool :=
  match r with
  | .eq => decide (a = b)
  | .ne => decide (a ≠ b)
  | .gtu => decide (a.toNat > b.toNat)
  | .geu => decide (a.toNat ≥ b.toNat)
  | .ltu => decide (a.toNat < b.toNat)
  | .leu => decide (a.toNat ≤ b.toNat)
  | .gts => decide (a.toInt > b.toInt)
  | .ges => decide (a.toInt ≥ b.toInt)
  | .lts => decide (a.toInt < b.toInt)
  | .les => decide (a.toInt ≤ b.toInt)

end Sys2Proof.Machine
end

