-- ==== Sys2Proof/Machine/Ops.lean ====
section
/-! DEFINITION. The operations that the meanings share: the general registers, memory and its access checks, the special
registers, taking an exception and returning from one. -/

namespace Sys2Proof.Machine

/-! ### General registers and the program counter -/

/-- `x[i]` (R22): register 0 reads as zero where the platform has R0_ZERO (log entry 2). -/
def State.reg (s : State) (i : Reg) : Word :=
  if s.platform.r0Zero = true ∧ i = 0 then 0#32 else s.regs[i]

/-- `x[i] <- v` (R23): a write to register 0 has no effect where the platform has R0_ZERO (log entry 2). -/
def State.setReg (s : State) (i : Reg) (v : Word) : State :=
  { s with regs := if s.platform.r0Zero = true ∧ i = 0 then s.regs else s.regs.set i v }

/-- `pc <- t` (R9). -/
def State.jumpTo (s : State) (t : Word) : State := { s with pc := t }

/-- `pc <- pc + 4`, modulo 2^32 (R27). -/
def State.advance (s : State) : State := s.jumpTo (s.pc + 4#32)

/-- The link register (R24). -/
def linkRegister : Reg := 9

/-- `LR = CurrentPC + 4` (R24, R204, R205). -/
def State.link (s : State) : State := s.setReg linkRegister (s.pc + 4#32)

/-! ### Memory -/

/-- The byte at an address: the listed one, else `unlistedByte`. -/
def Memory.byteAt : Memory → Nat → Byte
  | [], _ => unlistedByte
  | (k, b) :: m, a => if k = a then b else Memory.byteAt m a

/-- Put a byte at an address, keeping addresses rising and listing no `unlistedByte`. -/
def Memory.put : Memory → Nat → Byte → Memory
  | [], a, b => if b = unlistedByte then [] else [(a, b)]
  | (k, c) :: m, a, b =>
    if a < k then (if b = unlistedByte then (k, c) :: m else (a, b) :: (k, c) :: m)
    else if a = k then (if b = unlistedByte then m else (a, b) :: m)
    else (k, c) :: Memory.put m a b

/-- The canonical form: rising addresses below 2^32 (R60), and no entry equal to what an unlisted address reads as. -/
abbrev Memory.wf (m : Memory) : Prop :=
  m.Pairwise (fun c d => c.1 < d.1) ∧ ∀ c ∈ m, c.1 < 2 ^ 32 ∧ c.2 ≠ unlistedByte

/-- Put bytes at consecutive addresses, modulo 2^32 (R61). -/
def Memory.putAll : Memory → Word → List Byte → Memory
  | m, _, [] => m
  | m, a, b :: bs => Memory.putAll (Memory.put m a.toNat b) (a + 1#32) bs

/-- `MemRead(a, 1)` (R62). -/
def State.memRead1 (s : State) (a : Word) : Byte := Memory.byteAt s.mem a.toNat

/-- `MemRead(a, 2)`: the byte at the lowest address is the most significant where the platform is big-endian, else the
least (R62, BIG_ENDIAN; log entry 8). -/
def State.memRead2 (s : State) (a : Word) : Half :=
  if s.platform.bigEndian then s.memRead1 a ++ s.memRead1 (a + 1#32)
  else s.memRead1 (a + 1#32) ++ s.memRead1 a

/-- `MemRead(a, 4)`, in the same byte order as `memRead2` (R62). -/
def State.memRead4 (s : State) (a : Word) : Word :=
  if s.platform.bigEndian then
    s.memRead1 a ++ s.memRead1 (a + 1#32) ++ s.memRead1 (a + 2#32) ++ s.memRead1 (a + 3#32)
  else s.memRead1 (a + 3#32) ++ s.memRead1 (a + 2#32) ++ s.memRead1 (a + 1#32) ++ s.memRead1 a

/-- Bytes listed from the most significant, in the order in which they stand in memory (R63, BIG_ENDIAN). -/
def State.inMemoryOrder (s : State) (bytes : List Byte) : List Byte :=
  if s.platform.bigEndian then bytes else bytes.reverse

/-- Write bytes at consecutive addresses. -/
def State.putBytes (s : State) (a : Word) (bytes : List Byte) : State :=
  { s with mem := Memory.putAll s.mem a bytes }

/-- `MemWrite(a, 1, v)` (R63). -/
def State.memWrite1 (s : State) (a : Word) (v : Byte) : State := s.putBytes a [v]

/-- `MemWrite(a, 2, v)` (R63). -/
def State.memWrite2 (s : State) (a : Word) (v : Half) : State :=
  s.putBytes a (s.inMemoryOrder [v.extractLsb' 8 8, v.extractLsb' 0 8])

/-- `MemWrite(a, 4, v)` (R63). -/
def State.memWrite4 (s : State) (a : Word) (v : Word) : State :=
  s.putBytes a (s.inMemoryOrder [v.extractLsb' 24 8, v.extractLsb' 16 8, v.extractLsb' 8 8, v.extractLsb' 0 8])

/-! ### Access checks -/

/-- The alignment rule of R65 and R66: an access of `n` bytes stands at a multiple of `n`. -/
def misaligned (a : Word) (n : Nat) : Bool := a.toNat % n != 0

/-- Whether a rule of the platform matches an access (R67). -/
def ruleMatches (r : AccessRule) (a : Word) (n : Nat) (k : AccessKind) : Bool :=
  r.kind == k && r.size == n && decide (r.first ≤ a) && decide (a ≤ r.last)

/-- `BusFault(a, n, k)` (R67). -/
def State.busFaultAt (s : State) (a : Word) (n : Nat) (k : AccessKind) : Bool :=
  s.platform.busFaults.any fun r => ruleMatches r a n k

/-- A data access that the platform's MISALIGNED_DATA refuses. DESIGN CHOICE, unsafe (log entry 31): the refusal is no
synchronous cause and stands in test 10 of R262, after the interrupts, and before any bus error of the same access. -/
def State.refusesAccess (s : State) (a : Word) (n : Nat) : Bool :=
  misaligned a n && s.platform.misalignedData == .refuse

/-- An erroneous data access: misaligned where MISALIGNED_DATA is the bus error, or else rejected by the platform (R66,
R67, R230; log entries 21 and 31). DESIGN CHOICE, unsafe (log entry 31): where MISALIGNED_DATA is `refuse` a misaligned
access is not erroneous, so test 6 of R262 passes over it, a waiting interrupt is taken first, and the access is refused
at execution (test 10); the spec gives the refusal no place in that order. -/
def State.erroneous (s : State) (a : Word) (n : Nat) (k : AccessKind) : Bool :=
  match s.platform.misalignedData with
  | .busError => misaligned a n || s.busFaultAt a n k
  | .refuse => !misaligned a n && s.busFaultAt a n k
  | .truncate => s.busFaultAt a n k
  | .split => s.busFaultAt a n k

/-- `Mapped(a)` (R60). -/
def State.mappedAt (s : State) (a : Word) : Bool :=
  s.platform.mapped.any fun r => decide (r.first ≤ a) && decide (a ≤ r.last)

/-- Each of the `n` bytes of an access is mapped (R67). -/
def State.mappedSpan (s : State) (a : Word) (n : Nat) : Bool :=
  (List.range n).all fun k => s.mappedAt (a + BitVec.ofNat 32 k)

/-! ### Exceptions (60_exceptions.md) -/

/-- The seven exceptions (R260). -/
inductive Exception where
  | reset
  | illegalInstruction
  | externalInterrupt
  | syscall
  | trap
  | nonMaskableInterrupt
  | busError
  deriving DecidableEq, Repr

/-- The vector offset of an exception (R260). -/
def vectorOffset : Exception → Word
  | .reset => 0x100#32
  | .illegalInstruction => 0x200#32
  | .externalInterrupt => 0x300#32
  | .syscall => 0x400#32
  | .trap => 0x600#32
  | .nonMaskableInterrupt => 0x700#32
  | .busError => 0x800#32

/-- The address where an exception's handler stands, modulo 2^32: reset is relative to BOOT_VECTOR, every other exception to
ISR_VECTOR (R71, R260). -/
def vectorAddress (p : Platform) (e : Exception) : Word :=
  (if e = .reset then p.bootVector else p.isrVector) + vectorOffset e

/-- The priority of an exception; 0 is the highest (R260). -/
def priority : Exception → Nat
  | .reset => 0
  | .illegalInstruction => 1
  | .busError => 2
  | .syscall => 3
  | .trap => 3
  | .nonMaskableInterrupt => 4
  | .externalInterrupt => 5

/-- What EPC receives (R261): the address after the instruction for a synchronous exception, the address of the
instruction still to be executed for an interrupt, 0 for reset. -/
def returnAddress (e : Exception) (pc : Word) : Word :=
  match e with
  | .reset => 0#32
  | .illegalInstruction => pc + 4#32
  | .externalInterrupt => pc
  | .syscall => pc + 4#32
  | .trap => pc + 4#32
  | .nonMaskableInterrupt => pc
  | .busError => pc + 4#32

/-- Exception entry, the four assignments of R270: EPC, ESR, SR and `pc`, and nothing else. -/
def State.enter (s : State) (e : Exception) : State :=
  { s with
    epc := returnAddress e s.pc
    esr := s.sr
    sr := 0#32
    pc := vectorAddress s.platform e }

/-- The reset entry (R310). The general registers take the value that the model names (log entry 1); memory and the
inputs stay as they are. -/
def State.resetEntry (s : State) : State :=
  { s with
    regs := resetRegisters
    epc := 0#32
    esr := 0#32
    sr := 0#32
    pc := vectorAddress s.platform .reset
    nmiPending := false }

/-- Take an exception: the one operation through which every exception is entered (R270, R277, R310). -/
def State.takeException (s : State) (e : Exception) : State :=
  match e with
  | .reset => s.resetEntry
  | .illegalInstruction => s.enter .illegalInstruction
  | .externalInterrupt => s.enter .externalInterrupt
  | .syscall => s.enter .syscall
  | .trap => s.enter .trap
  | .nonMaskableInterrupt => { s.enter .nonMaskableInterrupt with nmiPending := false }
  | .busError => s.enter .busError

/-- Return from an exception: `pc <- EPC`, `SR <- ESR` (R283), refused while ESR has a bit set that no source names
(R34). -/
def State.returnFromException (s : State) : Result :=
  if hasReservedBits s.platform.statusBits s.esr then .refused (.reservedStatusBits s.esr)
  else .next { s with pc := s.epc, sr := s.esr }

/-! ### Special registers (R40), under the numbers that the platform gives them (log entry 10) -/

/-- Read special register `n`; `none` where R40 defines none. -/
def State.readSpr (s : State) (n : Word) : Option Word :=
  if n = s.platform.sprNumbers.sr then some s.sr
  else if n = s.platform.sprNumbers.epc then some s.epc
  else if n = s.platform.sprNumbers.esr then some s.esr
  else none

/-- Write `v` to special register `n` and go on with the next instruction, or refuse it: a number that R40 does not
define, or a value of SR or ESR with a bit that no source names (R34). -/
def State.writeSpr (s : State) (n v : Word) : Result :=
  if n = s.platform.sprNumbers.sr then
    if hasReservedBits s.platform.statusBits v then .refused (.reservedStatusBits v)
    else .next { s with sr := v }.advance
  else if n = s.platform.sprNumbers.epc then .next { s with epc := v }.advance
  else if n = s.platform.sprNumbers.esr then
    if hasReservedBits s.platform.statusBits v then .refused (.reservedStatusBits v)
    else .next { s with esr := v }.advance
  else .refused (.undefinedSpecialRegister n)

end Sys2Proof.Machine
end

