-- ==== Sys2Proof/Machine/Operands.lean ====
section
/-! DEFINITION. The operand forms of the instructions (R110 to R114): immediates, shift amounts, effective addresses,
branch targets and special-register numbers. -/

namespace Sys2Proof.Machine

/-- `sext_32(imm)` (R8, R111). -/
def signExtended (imm : Half) : Word := imm.signExtend 32

/-- `zext_32(imm)` (R8, R111). -/
def zeroExtended (imm : Half) : Word := imm.setWidth 32

/-- `imm ++ 0x0000`, the operand of l.movhi (R146). -/
def highHalf (imm : Half) : Word := imm ++ 0#16

/-- The shift amount of the register forms: `x[rB][4:0]` (R160). -/
def registerAmount (v : Word) : Nat := (v.extractLsb' 0 5).toNat

/-- The shift amount of the immediate forms: `L[4:0]` (R160). -/
def immediateAmount (amount : Nat) : Nat := amount % 32

/-- `v << n` (R161). -/
def shiftLeft (v : Word) (n : Nat) : Word := v <<< n

/-- `v` shifted right by `n`, zeros from above (R165). -/
def shiftRightLogical (v : Word) (n : Nat) : Word := v >>> n

/-- `v` shifted right by `n`, copies of bit 31 from above (R163). -/
def shiftRightArithmetic (v : Word) (n : Nat) : Word := v.sshiftRight n

/-- `EA = (x[rA] + sext_32(I)) mod 2^32` (R61, R220). -/
def State.effectiveAddress (s : State) (rA : Reg) (imm : Half) : Word := s.reg rA + signExtended imm

/-- `a` with its low bits cleared, down to a multiple of `n`. -/
def alignedDown (a : Word) (n : Nat) : Word := a - BitVec.ofNat 32 (a.toNat % n)

/-- The address of a data access of `n` bytes: EA, its low bits ignored where MISALIGNED_DATA is truncation (R66, R220; log
entry 31). -/
def State.dataAddress (s : State) (rA : Reg) (imm : Half) (n : Nat) : Word :=
  match s.platform.misalignedData with
  | .busError => s.effectiveAddress rA imm
  | .refuse => s.effectiveAddress rA imm
  | .truncate => alignedDown (s.effectiveAddress rA imm) n
  | .split => s.effectiveAddress rA imm

/-- `(pc + sext_32(N ++ 0b00)) mod 2^32` (R113, R200). -/
def State.branchTarget (s : State) (offset : BitVec 26) : Word :=
  s.pc + (offset ++ 0#2 : BitVec 28).signExtend 32

/-- `x[rA] OR zext_32(K)`, the number of a special register (R40, R241, R242). -/
def State.sprNumber (s : State) (rA : Reg) (imm : Half) : Word := s.reg rA ||| zeroExtended imm

end Sys2Proof.Machine
end

