-- ==== Sys2Proof/Machine/Arith.lean ====
section
/-! DEFINITION. The eleven arithmetic and logical instructions (40_alu.md). None of them accesses memory or raises an
exception of its own (R140). -/

namespace Sys2Proof.Machine

/-- Write a result to `x[rD]` and go on with the next instruction: the end of every instruction of R140 and R167. -/
def finish (rD : Reg) (v : Word) (s : State) : Result := .next (s.setReg rD v).advance

/-- An addition: the result to `x[rD]`, the carry out to SR.CY (R152). -/
def addInto (rD : Reg) (a b : Word) (carryIn : Bool) (s : State) : Result :=
  finish rD (sumResult a b carryIn) (s.setCY (carryOut a b carryIn))

/-- l.add (R141). -/
def execAdd (rD rA rB : Reg) (s : State) : Result := addInto rD (s.reg rA) (s.reg rB) false s

/-- l.addc (R142): the old SR.CY enters the sum. -/
def execAddc (rD rA rB : Reg) (s : State) : Result := addInto rD (s.reg rA) (s.reg rB) s.flagCY s

/-- l.addi (R143): the carry is that of adding the sign-extended immediate as an unsigned number. -/
def execAddi (rD rA : Reg) (imm : Half) (s : State) : Result := addInto rD (s.reg rA) (signExtended imm) false s

/-- l.and (R144). -/
def execAnd (rD rA rB : Reg) (s : State) : Result := finish rD (s.reg rA &&& s.reg rB) s

/-- l.andi (R145). -/
def execAndi (rD rA : Reg) (imm : Half) (s : State) : Result := finish rD (s.reg rA &&& zeroExtended imm) s

/-- l.movhi (R146). -/
def execMovhi (rD : Reg) (imm : Half) (s : State) : Result := finish rD (highHalf imm) s

/-- l.or (R147). -/
def execOr (rD rA rB : Reg) (s : State) : Result := finish rD (s.reg rA ||| s.reg rB) s

/-- l.ori (R148). -/
def execOri (rD rA : Reg) (imm : Half) (s : State) : Result := finish rD (s.reg rA ||| zeroExtended imm) s

/-- l.sub (R149): SR.CY keeps its value (log entry 16). -/
def execSub (rD rA rB : Reg) (s : State) : Result := finish rD (s.reg rA - s.reg rB) s

/-- l.xor (R150). -/
def execXor (rD rA rB : Reg) (s : State) : Result := finish rD (s.reg rA ^^^ s.reg rB) s

/-- l.xori (R151): this immediate is sign-extended. -/
def execXori (rD rA : Reg) (imm : Half) (s : State) : Result := finish rD (s.reg rA ^^^ signExtended imm) s

end Sys2Proof.Machine
end

