-- ==== Sys2Proof/Machine/Branch.lean ====
section
/-! DEFINITION. The six branch and jump instructions (43_branch_jump.md). There is no delay slot (R207; log entry 14):
the next instruction executed is the one at the target. -/

namespace Sys2Proof.Machine

/-- Branch to the PC-relative target if `taken`, else go on with the next instruction (R200 to R202). -/
def branchIf (taken : Bool) (offset : BitVec 26) (s : State) : Result :=
  .next (if taken then s.jumpTo (s.branchTarget offset) else s.advance)

/-- l.bf (R201). -/
def execBf (offset : BitVec 26) (s : State) : Result := branchIf s.flagF offset s

/-- l.bnf (R202). -/
def execBnf (offset : BitVec 26) (s : State) : Result := branchIf (!s.flagF) offset s

/-- l.j (R203). -/
def execJ (offset : BitVec 26) (s : State) : Result := .next (s.jumpTo (s.branchTarget offset))

/-- l.jal (R204): both assignments use the address of the l.jal itself. -/
def execJal (offset : BitVec 26) (s : State) : Result := .next (s.link.jumpTo (s.branchTarget offset))

/-- l.jalr (R205): `x[rB]` is read before the link register is written (log entry 17). -/
def execJalr (rB : Reg) (s : State) : Result := .next (s.link.jumpTo (s.reg rB))

/-- l.jr (R206): all 32 bits of `x[rB]`, without a test (R208). -/
def execJr (rB : Reg) (s : State) : Result := .next (s.jumpTo (s.reg rB))

end Sys2Proof.Machine
end

