-- ==== Sys2Proof/Machine/Compare.lean ====
section
/-! DEFINITION. The twenty compare instructions (42_compare.md). Each writes SR.F and nothing else but `pc` (R170). The
immediate is sign-extended in all ten immediate forms, the unsigned ones too (R192). -/

namespace Sys2Proof.Machine

/-- Evaluate one relation, write it to SR.F, and go on with the next instruction (R170). -/
def compareInto (r : Relation) (a b : Word) (s : State) : Result := .next (s.setF (relationHolds r a b)).advance

/-- l.sfeq (R171). -/
def execSfeq (rA rB : Reg) (s : State) : Result := compareInto .eq (s.reg rA) (s.reg rB) s

/-- l.sfeqi (R172). -/
def execSfeqi (rA : Reg) (imm : Half) (s : State) : Result := compareInto .eq (s.reg rA) (signExtended imm) s

/-- l.sfges (R173). -/
def execSfges (rA rB : Reg) (s : State) : Result := compareInto .ges (s.reg rA) (s.reg rB) s

/-- l.sfgesi (R174). -/
def execSfgesi (rA : Reg) (imm : Half) (s : State) : Result := compareInto .ges (s.reg rA) (signExtended imm) s

/-- l.sfgeu (R175). -/
def execSfgeu (rA rB : Reg) (s : State) : Result := compareInto .geu (s.reg rA) (s.reg rB) s

/-- l.sfgeui (R176). -/
def execSfgeui (rA : Reg) (imm : Half) (s : State) : Result := compareInto .geu (s.reg rA) (signExtended imm) s

/-- l.sfgts (R177). -/
def execSfgts (rA rB : Reg) (s : State) : Result := compareInto .gts (s.reg rA) (s.reg rB) s

/-- l.sfgtsi (R178). -/
def execSfgtsi (rA : Reg) (imm : Half) (s : State) : Result := compareInto .gts (s.reg rA) (signExtended imm) s

/-- l.sfgtu (R179). -/
def execSfgtu (rA rB : Reg) (s : State) : Result := compareInto .gtu (s.reg rA) (s.reg rB) s

/-- l.sfgtui (R180). -/
def execSfgtui (rA : Reg) (imm : Half) (s : State) : Result := compareInto .gtu (s.reg rA) (signExtended imm) s

/-- l.sfles (R181). -/
def execSfles (rA rB : Reg) (s : State) : Result := compareInto .les (s.reg rA) (s.reg rB) s

/-- l.sflesi (R182). -/
def execSflesi (rA : Reg) (imm : Half) (s : State) : Result := compareInto .les (s.reg rA) (signExtended imm) s

/-- l.sfleu (R183). -/
def execSfleu (rA rB : Reg) (s : State) : Result := compareInto .leu (s.reg rA) (s.reg rB) s

/-- l.sfleui (R184). -/
def execSfleui (rA : Reg) (imm : Half) (s : State) : Result := compareInto .leu (s.reg rA) (signExtended imm) s

/-- l.sflts (R185). -/
def execSflts (rA rB : Reg) (s : State) : Result := compareInto .lts (s.reg rA) (s.reg rB) s

/-- l.sfltsi (R186). -/
def execSfltsi (rA : Reg) (imm : Half) (s : State) : Result := compareInto .lts (s.reg rA) (signExtended imm) s

/-- l.sfltu (R187). -/
def execSfltu (rA rB : Reg) (s : State) : Result := compareInto .ltu (s.reg rA) (s.reg rB) s

/-- l.sfltui (R188). -/
def execSfltui (rA : Reg) (imm : Half) (s : State) : Result := compareInto .ltu (s.reg rA) (signExtended imm) s

/-- l.sfne (R189). -/
def execSfne (rA rB : Reg) (s : State) : Result := compareInto .ne (s.reg rA) (s.reg rB) s

/-- l.sfnei (R190). -/
def execSfnei (rA : Reg) (imm : Half) (s : State) : Result := compareInto .ne (s.reg rA) (signExtended imm) s

end Sys2Proof.Machine
end

