-- ==== Sys2Proof/Machine/LoadStore.lean ====
section
/-! DEFINITION. The nine load and store instructions (44_load_store.md). A misaligned access, or one that the platform
declares erroneous, takes the bus-error exception and changes nothing else (R230; the other values of MISALIGNED_DATA are
log entry 31); an access to an address without memory that the platform does not declare erroneous has no meaning
(R67). -/

namespace Sys2Proof.Machine

/-- A load of `n` bytes: the checks of R230 and R67 at the address of the access, then `read` gives the value for `x[rD]`
(R70, R231). -/
def loadInto (n : Nat) (read : State → Word → Word) (rD rA : Reg) (imm : Half) (s : State) : Result :=
  let ea := s.dataAddress rA imm n
  if s.refusesAccess ea n then .refused (.misalignedAccess ea)
  else if s.erroneous ea n .load then .next (s.takeException .busError)
  else if s.mappedSpan ea n then .next (s.setReg rD (read s ea)).advance
  else .fault (.unmapped .load ea)

/-- A store of `n` bytes: the checks of R230 and R67 at the address of the access, then `write` stores the value of `x[rB]`
(R70, R231). -/
def storeFrom (n : Nat) (write : State → Word → Word → State) (rA rB : Reg) (imm : Half) (s : State) : Result :=
  let ea := s.dataAddress rA imm n
  if s.refusesAccess ea n then .refused (.misalignedAccess ea)
  else if s.erroneous ea n .store then .next (s.takeException .busError)
  else if s.mappedSpan ea n then .next (write s ea (s.reg rB)).advance
  else .fault (.unmapped .store ea)

/-- l.lbs (R221). -/
def execLbs (rD rA : Reg) (imm : Half) (s : State) : Result :=
  loadInto 1 (fun t a => (t.memRead1 a).signExtend 32) rD rA imm s

/-- l.lbz (R222). -/
def execLbz (rD rA : Reg) (imm : Half) (s : State) : Result :=
  loadInto 1 (fun t a => (t.memRead1 a).setWidth 32) rD rA imm s

/-- l.lhs (R223). -/
def execLhs (rD rA : Reg) (imm : Half) (s : State) : Result :=
  loadInto 2 (fun t a => (t.memRead2 a).signExtend 32) rD rA imm s

/-- l.lhz (R224). -/
def execLhz (rD rA : Reg) (imm : Half) (s : State) : Result :=
  loadInto 2 (fun t a => (t.memRead2 a).setWidth 32) rD rA imm s

/-- l.lws (R225): a 32-bit register has no bit above bit 31, so this is l.lwz (90_conflicts.md C3). -/
def execLws (rD rA : Reg) (imm : Half) (s : State) : Result := loadInto 4 State.memRead4 rD rA imm s

/-- l.lwz (R226). -/
def execLwz (rD rA : Reg) (imm : Half) (s : State) : Result := loadInto 4 State.memRead4 rD rA imm s

/-- l.sb (R227): the low 8 bits of `x[rB]`. -/
def execSb (rA rB : Reg) (imm : Half) (s : State) : Result :=
  storeFrom 1 (fun t a v => t.memWrite1 a (v.extractLsb' 0 8)) rA rB imm s

/-- l.sh (R228): the low 16 bits of `x[rB]`. -/
def execSh (rA rB : Reg) (imm : Half) (s : State) : Result :=
  storeFrom 2 (fun t a v => t.memWrite2 a (v.extractLsb' 0 16)) rA rB imm s

/-- l.sw (R229). -/
def execSw (rA rB : Reg) (imm : Half) (s : State) : Result := storeFrom 4 State.memWrite4 rA rB imm s

end Sys2Proof.Machine
end

