-- ==== Sys2Proof/Machine/Shift.lean ====
section
/-! DEFINITION. The six shift instructions (41_shift.md). None writes a flag or raises an exception of its own (R167).
Amounts are taken modulo 32 (R160; log entry 15). -/

namespace Sys2Proof.Machine

/-- l.sll (R161). -/
def execSll (rD rA rB : Reg) (s : State) : Result :=
  finish rD (shiftLeft (s.reg rA) (registerAmount (s.reg rB))) s

/-- l.slli (R162). -/
def execSlli (rD rA : Reg) (amount : Nat) (s : State) : Result :=
  finish rD (shiftLeft (s.reg rA) (immediateAmount amount)) s

/-- l.sra (R163). -/
def execSra (rD rA rB : Reg) (s : State) : Result :=
  finish rD (shiftRightArithmetic (s.reg rA) (registerAmount (s.reg rB))) s

/-- l.srai (R164). -/
def execSrai (rD rA : Reg) (amount : Nat) (s : State) : Result :=
  finish rD (shiftRightArithmetic (s.reg rA) (immediateAmount amount)) s

/-- l.srl (R165). -/
def execSrl (rD rA rB : Reg) (s : State) : Result :=
  finish rD (shiftRightLogical (s.reg rA) (registerAmount (s.reg rB))) s

/-- l.srli (R166). -/
def execSrli (rD rA : Reg) (amount : Nat) (s : State) : Result :=
  finish rD (shiftRightLogical (s.reg rA) (immediateAmount amount)) s

end Sys2Proof.Machine
end

