-- ==== Sys2Proof/Machine/System.lean ====
section
/-! DEFINITION. The six system instructions (45_system.md). None is privileged: the machine has no modes (R240, R290). -/

namespace Sys2Proof.Machine

/-- l.mfspr (R241). -/
def execMfspr (rD rA : Reg) (imm : Half) (s : State) : Result :=
  match s.readSpr (s.sprNumber rA imm) with
  | some v => .next (s.setReg rD v).advance
  | none => .refused (.undefinedSpecialRegister (s.sprNumber rA imm))

/-- l.mtspr (R242). -/
def execMtspr (rA rB : Reg) (imm : Half) (s : State) : Result := s.writeSpr (s.sprNumber rA imm) (s.reg rB)

/-- l.nop (R243): K has no effect on the hardware. -/
def execNop (_imm : Half) (s : State) : Result := .next s.advance

/-- l.rfe (R244). -/
def execRfe (s : State) : Result := s.returnFromException

/-- l.sys (R245): K is recorded nowhere. -/
def execSys (_imm : Half) (s : State) : Result := .next (s.takeException .syscall)

/-- l.trap (R246): unconditional, and K is recorded nowhere. -/
def execTrap (_imm : Half) (s : State) : Result := .next (s.takeException .trap)

end Sys2Proof.Machine
end

