-- ==== Sys2Proof/Machine/Dispatch.lean ====
section
/-! DEFINITION. The meaning of every instruction: one arm a constructor of `Instr`, each one call of a definition of its
own. -/

namespace Sys2Proof.Machine

def exec (i : Instr) (s : State) : Host.Outcome State Fault Refusal :=
  match i with
  | .lAdd rD rA rB => Sys2Proof.Machine.execAdd rD rA rB s
  | .lAddc rD rA rB => Sys2Proof.Machine.execAddc rD rA rB s
  | .lAddi rD rA imm => Sys2Proof.Machine.execAddi rD rA imm s
  | .lAnd rD rA rB => Sys2Proof.Machine.execAnd rD rA rB s
  | .lAndi rD rA imm => Sys2Proof.Machine.execAndi rD rA imm s
  | .lMovhi rD imm => Sys2Proof.Machine.execMovhi rD imm s
  | .lOr rD rA rB => Sys2Proof.Machine.execOr rD rA rB s
  | .lOri rD rA imm => Sys2Proof.Machine.execOri rD rA imm s
  | .lSub rD rA rB => Sys2Proof.Machine.execSub rD rA rB s
  | .lXor rD rA rB => Sys2Proof.Machine.execXor rD rA rB s
  | .lXori rD rA imm => Sys2Proof.Machine.execXori rD rA imm s
  | .lSll rD rA rB => Sys2Proof.Machine.execSll rD rA rB s
  | .lSlli rD rA amount => Sys2Proof.Machine.execSlli rD rA amount s
  | .lSra rD rA rB => Sys2Proof.Machine.execSra rD rA rB s
  | .lSrai rD rA amount => Sys2Proof.Machine.execSrai rD rA amount s
  | .lSrl rD rA rB => Sys2Proof.Machine.execSrl rD rA rB s
  | .lSrli rD rA amount => Sys2Proof.Machine.execSrli rD rA amount s
  | .lSfeq rA rB => Sys2Proof.Machine.execSfeq rA rB s
  | .lSfeqi rA imm => Sys2Proof.Machine.execSfeqi rA imm s
  | .lSfges rA rB => Sys2Proof.Machine.execSfges rA rB s
  | .lSfgesi rA imm => Sys2Proof.Machine.execSfgesi rA imm s
  | .lSfgeu rA rB => Sys2Proof.Machine.execSfgeu rA rB s
  | .lSfgeui rA imm => Sys2Proof.Machine.execSfgeui rA imm s
  | .lSfgts rA rB => Sys2Proof.Machine.execSfgts rA rB s
  | .lSfgtsi rA imm => Sys2Proof.Machine.execSfgtsi rA imm s
  | .lSfgtu rA rB => Sys2Proof.Machine.execSfgtu rA rB s
  | .lSfgtui rA imm => Sys2Proof.Machine.execSfgtui rA imm s
  | .lSfles rA rB => Sys2Proof.Machine.execSfles rA rB s
  | .lSflesi rA imm => Sys2Proof.Machine.execSflesi rA imm s
  | .lSfleu rA rB => Sys2Proof.Machine.execSfleu rA rB s
  | .lSfleui rA imm => Sys2Proof.Machine.execSfleui rA imm s
  | .lSflts rA rB => Sys2Proof.Machine.execSflts rA rB s
  | .lSfltsi rA imm => Sys2Proof.Machine.execSfltsi rA imm s
  | .lSfltu rA rB => Sys2Proof.Machine.execSfltu rA rB s
  | .lSfltui rA imm => Sys2Proof.Machine.execSfltui rA imm s
  | .lSfne rA rB => Sys2Proof.Machine.execSfne rA rB s
  | .lSfnei rA imm => Sys2Proof.Machine.execSfnei rA imm s
  | .lBf offset => Sys2Proof.Machine.execBf offset s
  | .lBnf offset => Sys2Proof.Machine.execBnf offset s
  | .lJ offset => Sys2Proof.Machine.execJ offset s
  | .lJal offset => Sys2Proof.Machine.execJal offset s
  | .lJalr rB => Sys2Proof.Machine.execJalr rB s
  | .lJr rB => Sys2Proof.Machine.execJr rB s
  | .lLbs rD rA imm => Sys2Proof.Machine.execLbs rD rA imm s
  | .lLbz rD rA imm => Sys2Proof.Machine.execLbz rD rA imm s
  | .lLhs rD rA imm => Sys2Proof.Machine.execLhs rD rA imm s
  | .lLhz rD rA imm => Sys2Proof.Machine.execLhz rD rA imm s
  | .lLws rD rA imm => Sys2Proof.Machine.execLws rD rA imm s
  | .lLwz rD rA imm => Sys2Proof.Machine.execLwz rD rA imm s
  | .lSb rA rB imm => Sys2Proof.Machine.execSb rA rB imm s
  | .lSh rA rB imm => Sys2Proof.Machine.execSh rA rB imm s
  | .lSw rA rB imm => Sys2Proof.Machine.execSw rA rB imm s
  | .lMfspr rD rA imm => Sys2Proof.Machine.execMfspr rD rA imm s
  | .lMtspr rA rB imm => Sys2Proof.Machine.execMtspr rA rB imm s
  | .lNop imm => Sys2Proof.Machine.execNop imm s
  | .lRfe => Sys2Proof.Machine.execRfe s
  | .lSys imm => Sys2Proof.Machine.execSys imm s
  | .lTrap imm => Sys2Proof.Machine.execTrap imm s

end Sys2Proof.Machine
end

