-- ==== Sys2Proof/Machine/Environment.lean ====
section
/-! DEFINITION. The environment's moves (R12, R296) and the script from which a step takes those made before it. -/

namespace Sys2Proof.Machine

/-- The effect of one move on the machine (R296). Pulses of `nmi_i` while the latch is set merge (R45). -/
def State.applyMove (s : State) (m : EnvMove) : State :=
  match m with
  | .assertInterrupt => { s with intr := true }
  | .releaseInterrupt => { s with intr := false }
  | .pulseNmi => { s with nmiPending := true }
  | .assertReset => { s with rst := true }
  | .releaseReset => { s with rst := false }
  | .writeByte addr value => s.memWrite1 addr value
  | .setBusFaults rules => { s with platform := { s.platform with busFaults := rules } }

/-- Any number of moves, one after the other (R296). -/
def State.applyMoves : State → List EnvMove → State
  | s, [] => s
  | s, m :: ms => State.applyMoves (s.applyMove m) ms

/-- The state that the core's step starts from: the moves at the head of the script are made and taken off it. -/
def State.afterMoves (s : State) : State :=
  match s.script with
  | [] => s
  | moves :: rest => { s with script := rest }.applyMoves moves

end Sys2Proof.Machine
end

