-- ==== Sys2Proof/Machine/Cycle.lean ====
section
/-! DEFINITION. One cycle of the core: the order of tests of R262. -/

namespace Sys2Proof.Machine

/-- The bus error of a data access (R262 test 6). A refusal of misaligned data is none (log entry 31). -/
def dataCause (s : State) (ea : Word) (n : Nat) (k : AccessKind) : Option Exception :=
  if s.erroneous ea n k then some .busError else none

/-- The synchronous exception that an instruction raises by itself where it stands (R262 tests 6 and 7). -/
def synchronousCause (i : Instr) (s : State) : Option Exception :=
  match i with
  | .lAdd _ _ _ => none
  | .lAddc _ _ _ => none
  | .lAddi _ _ _ => none
  | .lAnd _ _ _ => none
  | .lAndi _ _ _ => none
  | .lMovhi _ _ => none
  | .lOr _ _ _ => none
  | .lOri _ _ _ => none
  | .lSub _ _ _ => none
  | .lXor _ _ _ => none
  | .lXori _ _ _ => none
  | .lSll _ _ _ => none
  | .lSlli _ _ _ => none
  | .lSra _ _ _ => none
  | .lSrai _ _ _ => none
  | .lSrl _ _ _ => none
  | .lSrli _ _ _ => none
  | .lSfeq _ _ => none
  | .lSfeqi _ _ => none
  | .lSfges _ _ => none
  | .lSfgesi _ _ => none
  | .lSfgeu _ _ => none
  | .lSfgeui _ _ => none
  | .lSfgts _ _ => none
  | .lSfgtsi _ _ => none
  | .lSfgtu _ _ => none
  | .lSfgtui _ _ => none
  | .lSfles _ _ => none
  | .lSflesi _ _ => none
  | .lSfleu _ _ => none
  | .lSfleui _ _ => none
  | .lSflts _ _ => none
  | .lSfltsi _ _ => none
  | .lSfltu _ _ => none
  | .lSfltui _ _ => none
  | .lSfne _ _ => none
  | .lSfnei _ _ => none
  | .lBf _ => none
  | .lBnf _ => none
  | .lJ _ => none
  | .lJal _ => none
  | .lJalr _ => none
  | .lJr _ => none
  | .lLbs _ rA imm => dataCause s (s.dataAddress rA imm 1) 1 .load
  | .lLbz _ rA imm => dataCause s (s.dataAddress rA imm 1) 1 .load
  | .lLhs _ rA imm => dataCause s (s.dataAddress rA imm 2) 2 .load
  | .lLhz _ rA imm => dataCause s (s.dataAddress rA imm 2) 2 .load
  | .lLws _ rA imm => dataCause s (s.dataAddress rA imm 4) 4 .load
  | .lLwz _ rA imm => dataCause s (s.dataAddress rA imm 4) 4 .load
  | .lSb rA _ imm => dataCause s (s.dataAddress rA imm 1) 1 .store
  | .lSh rA _ imm => dataCause s (s.dataAddress rA imm 2) 2 .store
  | .lSw rA _ imm => dataCause s (s.dataAddress rA imm 4) 4 .store
  | .lMfspr _ _ _ => none
  | .lMtspr _ _ _ => none
  | .lNop _ => none
  | .lRfe => none
  | .lSys _ => some .syscall
  | .lTrap _ => some .trap

/-- The interrupt that pre-empts an instruction (R262 tests 8 and 9): none if the instruction raises a synchronous
exception, else NMI if it is pending, else the external interrupt if `intr_i` is active and SR.IEE is 1. DESIGN CHOICE, unsafe: an
instruction that `MISALIGNED_DATA = refuse` would refuse is pre-empted like any other (log entry 31). -/
def preemptingInterrupt (i : Instr) (s : State) : Option Exception :=
  if (synchronousCause i s).isSome then none
  else if s.nmiPending then some .nonMaskableInterrupt
  else if s.intr && s.flagIEE then some .externalInterrupt
  else none

/-- One step of the core (R262), from a state in which the environment's moves are made. -/
def cycle (s : State) : Result :=
  if s.rst then .next (s.takeException .reset)
  else if misaligned s.pc 4 then .next (s.takeException .busError)
  else if s.busFaultAt s.pc 4 .fetch then .next (s.takeException .busError)
  else if s.mappedSpan s.pc 4 then
    match decodeWord s.platform.encoding (s.memRead4 s.pc) with
    | .error _ => .next (s.takeException .illegalInstruction)
    | .ok i =>
      match preemptingInterrupt i s with
      | some e => .next (s.takeException e)
      | none => exec i s
  else .fault (.unmapped .fetch s.pc)

end Sys2Proof.Machine
end

