-- ==== Sys2Proof/Machine/Step.lean ====
section
/-! DEFINITION. One step of the machine, and the placing of an instruction where the next step fetches. -/

namespace Sys2Proof.Machine

/-- One step: the environment's moves that the script puts before it (R12, R296), then one cycle of the core (R262). -/
def step (s : State) : Host.Outcome State Fault Refusal := cycle s.afterMoves

/-- `s` with the instruction whose bits are the `nbits` low bits of `w` stored at `pc`, where the next step fetches
(R64): the four bytes at `pc`, in the platform's byte order, and nothing else. -/
def State.withFetchWord (s : State) (nbits w : Nat) : State := s.memWrite4 s.pc (BitVec.ofNat 32 (w % 2 ^ nbits))

end Sys2Proof.Machine
end

