-- ==== Sys2Proof/Safety.lean ====
section
/-! DEFINITION. The terms in which claims about the machine are stated: what a well-formed state is, what it is for a run
to go on, and what an instruction or an exception entry changes and leaves unchanged. -/

namespace Sys2Proof.Machine

/-! ### Good states and runs that go on -/

/-- The invariant of every run: memory is canonical, no bit of SR or ESR is set that no source names (R34), the
parameters of R6 name different fields, bits and numbers, and where register 0 is hard-wired its unused slot holds zero
(R22). -/
abbrev State.Inv (s : State) : Prop :=
  Memory.wf s.mem ∧ hasReservedBits s.platform.statusBits s.sr = false ∧
    hasReservedBits s.platform.statusBits s.esr = false ∧ s.platform.coherent = true ∧
    (s.platform.r0Zero = true → s.regs[(0 : Reg)] = 0#32)

/-- The step from `s` has a next state: it ends neither in a fault nor in a refusal. -/
def State.GoesOn (s : State) : Prop := ∃ t, step s = .next t

/-- `k` steps from `s` all have a next state. -/
def State.GoesOnFor (k : Nat) (s : State) : Prop := ∃ t, Sys2Proof.core.run k s = .next t

/-! ### Frames -/

/-- Every register reads as before. -/
def KeepsRegisters (s t : State) : Prop := ∀ r : Reg, t.reg r = s.reg r

/-- Register `rD` reads `v` and every other register reads as before; register 0 reads 0 where it is hard-wired, whether
or not it is `rD`. -/
def WritesRegister (s t : State) (rD : Reg) (v : Word) : Prop :=
  ∀ r : Reg, t.reg r = if s.platform.r0Zero = true ∧ r = 0 then 0#32 else if r = rD then v else s.reg r

/-- Every bit of SR but bit `n` is as before. -/
def KeepsStatusBut (n : Nat) (s t : State) : Prop := ∀ k, k ≠ n → t.sr.getLsbD k = s.sr.getLsbD k

/-- Every byte of memory reads as before. -/
def KeepsMemory (s t : State) : Prop := ∀ a : Word, t.memRead1 a = s.memRead1 a

/-- Every byte of memory but the `n` bytes from `a` up reads as before. -/
def KeepsMemoryOutside (a : Word) (n : Nat) (s t : State) : Prop :=
  ∀ b : Word, (∀ k, k < n → b ≠ a + BitVec.ofNat 32 k) → t.memRead1 b = s.memRead1 b

/-- EPC, ESR and the latch of the non-maskable interrupt are as before. -/
def KeepsExceptionState (s t : State) : Prop := t.epc = s.epc ∧ t.esr = s.esr ∧ t.nmiPending = s.nmiPending

/-- The inputs, the environment's moves to come and the platform are as before. -/
def KeepsSurroundings (s t : State) : Prop :=
  t.rst = s.rst ∧ t.intr = s.intr ∧ t.script = s.script ∧ t.platform = s.platform

/-- `t` differs from `s` at most in the registers, SR and `pc`. -/
def KeepsAllElse (s t : State) : Prop := KeepsMemory s t ∧ KeepsExceptionState s t ∧ KeepsSurroundings s t

/-- `t` is `s` after an instruction that writes `v` to `x[rD]`, leaves SR alone and falls through. -/
def WritesOnly (s t : State) (rD : Reg) (v : Word) : Prop :=
  WritesRegister s t rD v ∧ t.sr = s.sr ∧ t.pc = s.pc + 4#32 ∧ KeepsAllElse s t

/-- `t` is `s` after the entry of exception `e` at the instruction at `s.pc` (R270): EPC, ESR, SR and `pc` are written,
and nothing else; the latch of the non-maskable interrupt is as given. -/
def Entered (s t : State) (e : Exception) (nmiPending : Bool) : Prop :=
  t.epc = returnAddress e s.pc ∧ t.esr = s.sr ∧ t.sr = 0#32 ∧ t.pc = vectorAddress s.platform e ∧
    t.nmiPending = nmiPending ∧ KeepsRegisters s t ∧ KeepsMemory s t ∧ KeepsSurroundings s t

/-- Nothing that test 1 to 4 of R262 looks at stops a fetch at `s.pc`: reset is inactive, `pc` is a multiple of 4, and
the platform holds memory there and declares no bus error. -/
def State.Fetchable (s : State) : Prop :=
  s.rst = false ∧ s.pc.toNat % 4 = 0 ∧ s.busFaultAt s.pc 4 .fetch = false ∧ s.mappedSpan s.pc 4 = true

/-- The word that a fetch at `s.pc` reads (R64). -/
def State.fetched (s : State) : Word := s.memRead4 s.pc

/-- What the decoder reads from the word at `s.pc` (R101), with the platform's encoding parameters. -/
def State.decoded (s : State) : Except Reject Instr := decodeWord s.platform.encoding s.fetched

end Sys2Proof.Machine
end

