-- ==== Sys2Proof/Certificates/Slice0/Obligations.lean ====
section
/-! DEFINITION. The statements for the provers. Before them stand the terms they share; a statement speaks of one step,
of one instruction (`exec`) or of one operation, on every state and for every operand. -/

namespace Sys2Proof.Machine

/-! ### Terms of the statements -/

/-- `i` is l.mfspr. -/
def IsMfspr (i : Instr) : Prop := ∃ rD rA imm, i = .lMfspr rD rA imm

/-- `i` is l.mtspr. -/
def IsMtspr (i : Instr) : Prop := ∃ rA rB imm, i = .lMtspr rA rB imm

/-- `i` moves a whole register into SR: l.mtspr or l.rfe (R35). -/
def MovesWholeStatus (i : Instr) : Prop := IsMtspr i ∨ i = .lRfe

/-- `i` is one of the six branches and jumps of 43_branch_jump.md. -/
def IsJump (i : Instr) : Prop :=
  (∃ N, i = .lBf N) ∨ (∃ N, i = .lBnf N) ∨ (∃ N, i = .lJ N) ∨ (∃ N, i = .lJal N) ∨ (∃ r, i = .lJalr r) ∨ (∃ r, i = .lJr r)

/-- The register that an instruction writes (R25): its field rD, or register 9 for l.jal and l.jalr. -/
def destination : Instr → Option Reg
  | .lAdd rD _ _ => some rD
  | .lAddc rD _ _ => some rD
  | .lAddi rD _ _ => some rD
  | .lAnd rD _ _ => some rD
  | .lAndi rD _ _ => some rD
  | .lMovhi rD _ => some rD
  | .lOr rD _ _ => some rD
  | .lOri rD _ _ => some rD
  | .lSub rD _ _ => some rD
  | .lXor rD _ _ => some rD
  | .lXori rD _ _ => some rD
  | .lSll rD _ _ => some rD
  | .lSlli rD _ _ => some rD
  | .lSra rD _ _ => some rD
  | .lSrai rD _ _ => some rD
  | .lSrl rD _ _ => some rD
  | .lSrli rD _ _ => some rD
  | .lSfeq _ _ => none
  | .lSfeqi _ _ => none
  | .lSfges _ _ => none
  | .lSfgesi _ _ => none
  | .lSfgeu _ _ => none
  | .lSfgeui _ _ => none
  | .lSfgts _ _ => none
  | .lSfgtsi _ _ => none
  | .lSfgtu _ _ => none
  | .lSfgtui _ _ => none
  | .lSfles _ _ => none
  | .lSflesi _ _ => none
  | .lSfleu _ _ => none
  | .lSfleui _ _ => none
  | .lSflts _ _ => none
  | .lSfltsi _ _ => none
  | .lSfltu _ _ => none
  | .lSfltui _ _ => none
  | .lSfne _ _ => none
  | .lSfnei _ _ => none
  | .lBf _ => none
  | .lBnf _ => none
  | .lJ _ => none
  | .lJal _ => some 9
  | .lJalr _ => some 9
  | .lJr _ => none
  | .lLbs rD _ _ => some rD
  | .lLbz rD _ _ => some rD
  | .lLhs rD _ _ => some rD
  | .lLhz rD _ _ => some rD
  | .lLws rD _ _ => some rD
  | .lLwz rD _ _ => some rD
  | .lSb _ _ _ => none
  | .lSh _ _ _ => none
  | .lSw _ _ _ => none
  | .lMfspr rD _ _ => some rD
  | .lMtspr _ _ _ => none
  | .lNop _ => none
  | .lRfe => none
  | .lSys _ => none
  | .lTrap _ => none

/-- The address of a data access of `n` bytes: `EA` (R220), down to a multiple of `n` where MISALIGNED_DATA is truncation
(log entry 31). -/
def accessAddress (s : State) (rA : Reg) (imm : Half) (n : Nat) : Word :=
  if s.platform.misalignedData = .truncate then
    s.reg rA + imm.signExtend 32 - BitVec.ofNat 32 ((s.reg rA + imm.signExtend 32).toNat % n)
  else s.reg rA + imm.signExtend 32

/-- The bytes that an instruction stores to: the first one's address and their number (R69, R220). -/
def storedSpan (i : Instr) (s : State) : Option (Word × Nat) :=
  match i with
  | .lSb rA _ imm => some (accessAddress s rA imm 1, 1)
  | .lSh rA _ imm => some (accessAddress s rA imm 2, 2)
  | .lSw rA _ imm => some (accessAddress s rA imm 4, 4)
  | _ => none

/-- What a compare finds (R171 to R190): whether its relation holds, or none for any other instruction. -/
def comparison (i : Instr) (s : State) : Option Bool :=
  match i with
  | .lSfeq rA rB => some (s.reg rA == s.reg rB)
  | .lSfeqi rA imm => some (s.reg rA == imm.signExtend 32)
  | .lSfges rA rB => some (BitVec.sle (s.reg rB) (s.reg rA))
  | .lSfgesi rA imm => some (BitVec.sle (imm.signExtend 32) (s.reg rA))
  | .lSfgeu rA rB => some (BitVec.ule (s.reg rB) (s.reg rA))
  | .lSfgeui rA imm => some (BitVec.ule (imm.signExtend 32) (s.reg rA))
  | .lSfgts rA rB => some (BitVec.slt (s.reg rB) (s.reg rA))
  | .lSfgtsi rA imm => some (BitVec.slt (imm.signExtend 32) (s.reg rA))
  | .lSfgtu rA rB => some (BitVec.ult (s.reg rB) (s.reg rA))
  | .lSfgtui rA imm => some (BitVec.ult (imm.signExtend 32) (s.reg rA))
  | .lSfles rA rB => some (BitVec.sle (s.reg rA) (s.reg rB))
  | .lSflesi rA imm => some (BitVec.sle (s.reg rA) (imm.signExtend 32))
  | .lSfleu rA rB => some (BitVec.ule (s.reg rA) (s.reg rB))
  | .lSfleui rA imm => some (BitVec.ule (s.reg rA) (imm.signExtend 32))
  | .lSflts rA rB => some (BitVec.slt (s.reg rA) (s.reg rB))
  | .lSfltsi rA imm => some (BitVec.slt (s.reg rA) (imm.signExtend 32))
  | .lSfltu rA rB => some (BitVec.ult (s.reg rA) (s.reg rB))
  | .lSfltui rA imm => some (BitVec.ult (s.reg rA) (imm.signExtend 32))
  | .lSfne rA rB => some (s.reg rA != s.reg rB)
  | .lSfnei rA imm => some (s.reg rA != imm.signExtend 32)
  | _ => none

/-- The carry out of an addition (R141 to R143, R152), or none for any other instruction. -/
def additionCarry (i : Instr) (s : State) : Option Bool :=
  match i with
  | .lAdd _ rA rB => some (decide (2 ^ 32 ≤ (s.reg rA).toNat + (s.reg rB).toNat))
  | .lAddc _ rA rB => some (decide (2 ^ 32 ≤ (s.reg rA).toNat + (s.reg rB).toNat + s.flagCY.toNat))
  | .lAddi _ rA imm => some (decide (2 ^ 32 ≤ (s.reg rA).toNat + (imm.signExtend 32).toNat))
  | _ => none

/-- `t` is `s` after an addition of `a`, `b` and the carry `c` into `x[rD]`, the sum written out to 33 bits. -/
def AddsInto (s t : State) (rD : Reg) (a b : Word) (c : Bool) : Prop :=
  let sum : BitVec 33 := a.setWidth 33 + b.setWidth 33 + (BitVec.ofBool c).setWidth 33
  WritesRegister s t rD (sum.setWidth 32) ∧ t.flagCY = sum.getLsbD 32 ∧ KeepsStatusBut s.platform.statusBits.cy s t ∧
    t.pc = s.pc + 4#32 ∧ KeepsAllElse s t

/-- `t` is `s` after a compare that found `b`. -/
def SetsFlag (s t : State) (b : Bool) : Prop :=
  t.flagF = b ∧ KeepsStatusBut s.platform.statusBits.f s t ∧ KeepsRegisters s t ∧
    t.pc = s.pc + 4#32 ∧ KeepsAllElse s t

/-- A register compare (R170, R191): every word that the selector fits is the instruction, and the instruction writes to
SR.F whether the relation holds, and changes nothing else. -/
def RegisterCompare (pattern : Word) (mk : Reg → Reg → Instr) (holds : Word → Word → Bool) : Prop :=
  (∀ (c : Encoding) (w : Word), c.wellFormed = true → w &&& 0xFFE00000#32 = pattern →
      decodeWord c w = .ok (mk (regField w 16) (regField w 11))) ∧
    ∀ (rA rB : Reg) (s : State), ∃ t, exec (mk rA rB) s = .next t ∧ SetsFlag s t (holds (s.reg rA) (s.reg rB))

/-- An immediate compare (R170, R191, R192): as `RegisterCompare`, with the sign-extended immediate. -/
def ImmediateCompare (pattern : Word) (mk : Reg → Half → Instr) (holds : Word → Word → Bool) : Prop :=
  (∀ (c : Encoding) (w : Word), c.wellFormed = true → w &&& 0xFFE00000#32 = pattern →
      decodeWord c w = .ok (mk (regField w 16) (field w 0 16))) ∧
    ∀ (rA : Reg) (imm : Half) (s : State),
      ∃ t, exec (mk rA imm) s = .next t ∧ SetsFlag s t (holds (s.reg rA) (imm.signExtend 32))

/-- `t` is `s` at another `pc`. -/
def ChangesPcOnly (s t : State) (target : Word) : Prop :=
  t.pc = target ∧ KeepsRegisters s t ∧ t.sr = s.sr ∧ KeepsAllElse s t

/-- A data access of `n` bytes at `a` has no alignment to complain of: it is aligned, or MISALIGNED_DATA splits it (R66; log
entry 31). -/
def AlignmentAllows (s : State) (a : Word) (n : Nat) : Prop := a.toNat % n = 0 ∨ s.platform.misalignedData = .split

/-- An access of `n` bytes at `a` goes through: its alignment allows it, the platform declares no bus error for it and holds
memory at each of its bytes (R66, R67). -/
def AccessGoesThrough (s : State) (a : Word) (n : Nat) (k : AccessKind) : Prop :=
  AlignmentAllows s a n ∧ s.busFaultAt a n k = false ∧ ∀ j, j < n → s.mappedAt (a + BitVec.ofNat 32 j) = true

/-- `t` is `s` after a store to the `n` bytes from `a` up: those bytes may differ, and `pc` has moved on. -/
def StoresOnly (s t : State) (a : Word) (n : Nat) : Prop :=
  KeepsMemoryOutside a n s t ∧ KeepsRegisters s t ∧ t.sr = s.sr ∧ t.pc = s.pc + 4#32 ∧ KeepsExceptionState s t ∧
    KeepsSurroundings s t

/-- The instruction enters the bus-error exception and does nothing else (R230, R275). -/
def TakesBusError (i : Instr) (s : State) : Prop :=
  ∃ t, exec i s = .next t ∧ Entered s t .busError s.nmiPending ∧ t.epc = s.pc + 4#32 ∧
    t.pc = s.platform.isrVector + 0x800#32

/-- A row of the opcode table: every word that the selector fits is the instruction with the operands that stand in the
word's fields, whatever its other bits are (R101). -/
def EntryDecodes (c : Encoding) (mask pattern : Word) (mk : Word → Instr) : Prop :=
  ∀ w : Word, w &&& mask = pattern → decodeWord c w = .ok (mk w)

/-- No bit of `v` but those of IEE, F and CY is set (R34). -/
def OnlyNamedBits (b : StatusBits) (v : Word) : Prop :=
  ∀ k : Nat, v.getLsbD k = true → k = b.iee.val ∨ k = b.f.val ∨ k = b.cy.val

/-- The step of the core from `s` enters the synchronous exception `e`: the bus error of the fetch, the illegal
instruction, or the exception of the instruction at `pc` (R260, R262 tests 2 to 7). -/
def EntersSynchronously (s : State) (e : Exception) : Prop :=
  (s.rst = false ∧ (s.pc.toNat % 4 ≠ 0 ∨ s.busFaultAt s.pc 4 .fetch = true) ∧ e = .busError) ∨
    (s.Fetchable ∧ (∀ r ∈ opcodeRows s.platform.encoding, s.fetched &&& r.mask ≠ r.pattern) ∧
      e = .illegalInstruction) ∨
    ∃ i, s.Fetchable ∧ s.decoded = .ok i ∧ synchronousCause i s = some e

/-- `t` is `s` after the move `m` of the environment (R296): what the move writes, and nothing else. -/
def MoveDoes (s t : State) (m : EnvMove) : Prop :=
  match m with
  | .assertInterrupt => t = { s with intr := true }
  | .releaseInterrupt => t = { s with intr := false }
  | .pulseNmi => t = { s with nmiPending := true }
  | .assertReset => t = { s with rst := true }
  | .releaseReset => t = { s with rst := false }
  | .writeByte a v => t.memRead1 a = v ∧ (∀ b : Word, b ≠ a → t.memRead1 b = s.memRead1 b) ∧ t = { s with mem := t.mem }
  | .setBusFaults rules =>
    (∀ a n k, t.busFaultAt a n k = true ↔ ∃ r ∈ rules, r.kind = k ∧ r.size = n ∧ r.first ≤ a ∧ a ≤ r.last) ∧
      t = { s with platform := { s.platform with busFaults := t.platform.busFaults } }

/-- The step from `s` enters exception `e` from the state `s'` that the environment's moves lead to (R270). -/
def StepEnters (s s' : State) (e : Exception) (nmiPending : Bool) : Prop :=
  ∃ t, step s = .next t ∧ Entered s' t e nmiPending

end Sys2Proof.Machine

open Sys2Proof Sys2Proof.Machine

/-- For every well-formed choice of the encoding parameters and every well-formed instruction, with every operand at
every value its encoding admits, decoding the bytes that the encoder writes, whatever bytes follow them, gives back
the instruction and the bytes that follow. -/
def Obligations.EncodeThenDecode : Prop :=
  ∀ (c : Encoding) (i : Instr), c.wellFormed = true → i.wellFormed = true →
    ∀ rest : List Byte, decode c (encode c i ++ rest) = .ok (i, rest)

/-- Words that the spec writes out decode to the instructions it names. The selector of the immediate shifts is the
spec's decision D2 (log entry 11), and so is that unnamed bits are ignored (D1, log entry 12); the words stand at
the default of the encoding parameters (R6; log entries 6, 11 and 24). -/
def Obligations.WordsOfTheSpecDecode : Prop :=
  defaultEncoding = ⟨8, 6, 0x15#6⟩ ∧
    decodeWord defaultEncoding 0xE0642CF0#32 = .ok (.lAdd 3 4 5) ∧
    decodeWord defaultEncoding 0xE0642908#32 = .ok (.lSrl 3 4 5) ∧
    decodeWord defaultEncoding 0xB8640020#32 = .ok (.lSlli 3 4 32) ∧
    decodeWord defaultEncoding 0xBC84FFFF#32 = .ok (.lSfltui 4 0xFFFF#16) ∧
    decodeWord defaultEncoding 0x13FFFFFD#32 = .ok (.lBf 0x3FFFFFD#26) ∧
    decodeWord defaultEncoding 0xDBE42FFF#32 = .ok (.lSb 4 5 0xFFFF#16) ∧
    decodeWord defaultEncoding 0xC2202811#32 = .ok (.lMtspr 0 5 0x8811#16) ∧
    decodeWord defaultEncoding 0x2100FFFF#32 = .ok (.lTrap 0xFFFF#16) ∧
    decodeWord defaultEncoding 0x15000000#32 = .error (.unlistedMajor 0x05#6) ∧
    decodeWord defaultEncoding 0xB86400C1#32 = .error .unlistedShift

/-- "Under it no word matches two entries" (R101, under the spec's decision D1; log entry 12). -/
def Obligations.NoWordMatchesTwoEntries : Prop :=
  ∀ (c : Encoding) (w : Word), c.wellFormed = true → ((opcodeRows c).filter (fun r => r.selects w)).length ≤ 1

/-- Each row of the opcode table decodes, with mask, match and fields as spec/opcode_table.json gives them where the
encoding parameters have their default values (SHIFT_REG_SEL at bit 8, SHIFT_IMM_SEL at bit 6, NOP_MAJOR 0x15; log
entries 11 and 24). That bits under no mask and in no field do not matter is the spec's decision D1 (log entry 12);
the selector of the immediate shifts is its decision D2 (log entry 11). -/
def Obligations.EveryEntryDecodes : Prop :=
  ∀ c : Encoding, c.wellFormed = true →
    EntryDecodes c 0xFC00030F#32 0xE0000000#32 (fun w => .lAdd (regField w 21) (regField w 16) (regField w 11)) ∧
    EntryDecodes c 0xFC00030F#32 0xE0000001#32 (fun w => .lAddc (regField w 21) (regField w 16) (regField w 11)) ∧
    EntryDecodes c 0xFC000000#32 0x9C000000#32 (fun w => .lAddi (regField w 21) (regField w 16) (w.extractLsb' 0 16)) ∧
    EntryDecodes c 0xFC00030F#32 0xE0000003#32 (fun w => .lAnd (regField w 21) (regField w 16) (regField w 11)) ∧
    EntryDecodes c 0xFC000000#32 0xA4000000#32 (fun w => .lAndi (regField w 21) (regField w 16) (w.extractLsb' 0 16)) ∧
    EntryDecodes c 0xFC000000#32 0x18000000#32 (fun w => .lMovhi (regField w 21) (w.extractLsb' 0 16)) ∧
    EntryDecodes c 0xFC00030F#32 0xE0000004#32 (fun w => .lOr (regField w 21) (regField w 16) (regField w 11)) ∧
    EntryDecodes c 0xFC000000#32 0xA8000000#32 (fun w => .lOri (regField w 21) (regField w 16) (w.extractLsb' 0 16)) ∧
    EntryDecodes c 0xFC00030F#32 0xE0000002#32 (fun w => .lSub (regField w 21) (regField w 16) (regField w 11)) ∧
    EntryDecodes c 0xFC00030F#32 0xE0000005#32 (fun w => .lXor (regField w 21) (regField w 16) (regField w 11)) ∧
    EntryDecodes c 0xFC000000#32 0xAC000000#32 (fun w => .lXori (regField w 21) (regField w 16) (w.extractLsb' 0 16)) ∧
    EntryDecodes c (0xFC00000F#32 ||| 3#32 <<< c.shiftReg) (0xE0000008#32 ||| 0#32 <<< c.shiftReg) (fun w => .lSll (regField w 21) (regField w 16) (regField w 11)) ∧
    EntryDecodes c (0xFC000000#32 ||| 3#32 <<< c.shiftImm) (0xB8000000#32 ||| 0#32 <<< c.shiftImm) (fun w => .lSlli (regField w 21) (regField w 16) (w.toNat % 64)) ∧
    EntryDecodes c (0xFC00000F#32 ||| 3#32 <<< c.shiftReg) (0xE0000008#32 ||| 2#32 <<< c.shiftReg) (fun w => .lSra (regField w 21) (regField w 16) (regField w 11)) ∧
    EntryDecodes c (0xFC000000#32 ||| 3#32 <<< c.shiftImm) (0xB8000000#32 ||| 2#32 <<< c.shiftImm) (fun w => .lSrai (regField w 21) (regField w 16) (w.toNat % 64)) ∧
    EntryDecodes c (0xFC00000F#32 ||| 3#32 <<< c.shiftReg) (0xE0000008#32 ||| 1#32 <<< c.shiftReg) (fun w => .lSrl (regField w 21) (regField w 16) (regField w 11)) ∧
    EntryDecodes c (0xFC000000#32 ||| 3#32 <<< c.shiftImm) (0xB8000000#32 ||| 1#32 <<< c.shiftImm) (fun w => .lSrli (regField w 21) (regField w 16) (w.toNat % 64)) ∧
    EntryDecodes c 0xFFE00000#32 0xE4000000#32 (fun w => .lSfeq (regField w 16) (regField w 11)) ∧
    EntryDecodes c 0xFFE00000#32 0xBC000000#32 (fun w => .lSfeqi (regField w 16) (w.extractLsb' 0 16)) ∧
    EntryDecodes c 0xFFE00000#32 0xE5600000#32 (fun w => .lSfges (regField w 16) (regField w 11)) ∧
    EntryDecodes c 0xFFE00000#32 0xBD600000#32 (fun w => .lSfgesi (regField w 16) (w.extractLsb' 0 16)) ∧
    EntryDecodes c 0xFFE00000#32 0xE4600000#32 (fun w => .lSfgeu (regField w 16) (regField w 11)) ∧
    EntryDecodes c 0xFFE00000#32 0xBC600000#32 (fun w => .lSfgeui (regField w 16) (w.extractLsb' 0 16)) ∧
    EntryDecodes c 0xFFE00000#32 0xE5400000#32 (fun w => .lSfgts (regField w 16) (regField w 11)) ∧
    EntryDecodes c 0xFFE00000#32 0xBD400000#32 (fun w => .lSfgtsi (regField w 16) (w.extractLsb' 0 16)) ∧
    EntryDecodes c 0xFFE00000#32 0xE4400000#32 (fun w => .lSfgtu (regField w 16) (regField w 11)) ∧
    EntryDecodes c 0xFFE00000#32 0xBC400000#32 (fun w => .lSfgtui (regField w 16) (w.extractLsb' 0 16)) ∧
    EntryDecodes c 0xFFE00000#32 0xE5A00000#32 (fun w => .lSfles (regField w 16) (regField w 11)) ∧
    EntryDecodes c 0xFFE00000#32 0xBDA00000#32 (fun w => .lSflesi (regField w 16) (w.extractLsb' 0 16)) ∧
    EntryDecodes c 0xFFE00000#32 0xE4A00000#32 (fun w => .lSfleu (regField w 16) (regField w 11)) ∧
    EntryDecodes c 0xFFE00000#32 0xBCA00000#32 (fun w => .lSfleui (regField w 16) (w.extractLsb' 0 16)) ∧
    EntryDecodes c 0xFFE00000#32 0xE5800000#32 (fun w => .lSflts (regField w 16) (regField w 11)) ∧
    EntryDecodes c 0xFFE00000#32 0xBD800000#32 (fun w => .lSfltsi (regField w 16) (w.extractLsb' 0 16)) ∧
    EntryDecodes c 0xFFE00000#32 0xE4800000#32 (fun w => .lSfltu (regField w 16) (regField w 11)) ∧
    EntryDecodes c 0xFFE00000#32 0xBC800000#32 (fun w => .lSfltui (regField w 16) (w.extractLsb' 0 16)) ∧
    EntryDecodes c 0xFFE00000#32 0xE4200000#32 (fun w => .lSfne (regField w 16) (regField w 11)) ∧
    EntryDecodes c 0xFFE00000#32 0xBC200000#32 (fun w => .lSfnei (regField w 16) (w.extractLsb' 0 16)) ∧
    EntryDecodes c 0xFC000000#32 0x10000000#32 (fun w => .lBf (w.extractLsb' 0 26)) ∧
    EntryDecodes c 0xFC000000#32 0x0C000000#32 (fun w => .lBnf (w.extractLsb' 0 26)) ∧
    EntryDecodes c 0xFC000000#32 0x00000000#32 (fun w => .lJ (w.extractLsb' 0 26)) ∧
    EntryDecodes c 0xFC000000#32 0x04000000#32 (fun w => .lJal (w.extractLsb' 0 26)) ∧
    EntryDecodes c 0xFC000000#32 0x48000000#32 (fun w => .lJalr (regField w 11)) ∧
    EntryDecodes c 0xFC000000#32 0x44000000#32 (fun w => .lJr (regField w 11)) ∧
    EntryDecodes c 0xFC000000#32 0x90000000#32 (fun w => .lLbs (regField w 21) (regField w 16) (w.extractLsb' 0 16)) ∧
    EntryDecodes c 0xFC000000#32 0x8C000000#32 (fun w => .lLbz (regField w 21) (regField w 16) (w.extractLsb' 0 16)) ∧
    EntryDecodes c 0xFC000000#32 0x98000000#32 (fun w => .lLhs (regField w 21) (regField w 16) (w.extractLsb' 0 16)) ∧
    EntryDecodes c 0xFC000000#32 0x94000000#32 (fun w => .lLhz (regField w 21) (regField w 16) (w.extractLsb' 0 16)) ∧
    EntryDecodes c 0xFC000000#32 0x88000000#32 (fun w => .lLws (regField w 21) (regField w 16) (w.extractLsb' 0 16)) ∧
    EntryDecodes c 0xFC000000#32 0x84000000#32 (fun w => .lLwz (regField w 21) (regField w 16) (w.extractLsb' 0 16)) ∧
    EntryDecodes c 0xFC000000#32 0xD8000000#32 (fun w => .lSb (regField w 16) (regField w 11) (w.extractLsb' 21 5 ++ w.extractLsb' 0 11)) ∧
    EntryDecodes c 0xFC000000#32 0xDC000000#32 (fun w => .lSh (regField w 16) (regField w 11) (w.extractLsb' 21 5 ++ w.extractLsb' 0 11)) ∧
    EntryDecodes c 0xFC000000#32 0xD4000000#32 (fun w => .lSw (regField w 16) (regField w 11) (w.extractLsb' 21 5 ++ w.extractLsb' 0 11)) ∧
    EntryDecodes c 0xFC000000#32 0xB4000000#32 (fun w => .lMfspr (regField w 21) (regField w 16) (w.extractLsb' 0 16)) ∧
    EntryDecodes c 0xFC000000#32 0xC0000000#32 (fun w => .lMtspr (regField w 16) (regField w 11) (w.extractLsb' 21 5 ++ w.extractLsb' 0 11)) ∧
    EntryDecodes c 0xFC000000#32 (c.nopMajor ++ 0#26) (fun w => .lNop (w.extractLsb' 0 16)) ∧
    EntryDecodes c 0xFC000000#32 0x24000000#32 (fun _ => .lRfe) ∧
    EntryDecodes c 0xFFFF0000#32 0x20000000#32 (fun w => .lSys (w.extractLsb' 0 16)) ∧
    EntryDecodes c 0xFFFF0000#32 0x21000000#32 (fun w => .lTrap (w.extractLsb' 0 16))

/-- If the decoder reads an instruction from a word, the instruction is well formed, and encoding it and decoding again
gives the same instruction. -/
def Obligations.DecodedIsWellFormed : Prop :=
  ∀ (c : Encoding) (w : Word) (i : Instr), c.wellFormed = true → decodeWord c w = .ok i →
    i.wellFormed = true ∧ decodeWord c (encodeWord c i) = .ok i

/-- Whatever the encoding parameters, a word with major opcode 0x08 is l.sys if insn[25:16] is 0x000, l.trap if it is
0x100, and no instruction otherwise; the four words 0x20010000, 0x21800000, 0x22000000 and 0x23000000 are no
instructions. -/
def Obligations.OnlyTwoSystemSelectors : Prop :=
  ∀ c : Encoding, c.wellFormed = true →
    (∀ w : Word, field w 26 6 = 0x08#6 →
      decodeWord c w =
        if field w 16 10 = 0x000#10 then .ok (.lSys (field w 0 16))
        else if field w 16 10 = 0x100#10 then .ok (.lTrap (field w 0 16))
        else .error (.unlistedSystem (field w 16 10))) ∧
    ∀ w ∈ [0x20010000#32, 0x21800000#32, 0x22000000#32, 0x23000000#32], ∀ i, decodeWord c w ≠ .ok i

/-- The machine right after reset meets the invariant. It rests on the model's choices in log entries 1 and 3. -/
def Obligations.ResetMeetsInvariant : Prop :=
  State.reset.Inv

/-- Every step keeps the invariant, from every state that meets it. That reserved bits stay 0 is the spec's decision D17
(log entry 13), that register 0 is hard-wired its decision D5 (log entry 2). -/
def Obligations.StepKeepsInvariant : Prop :=
  ∀ s t : State, s.Inv → step s = .next t → t.Inv

/-- R6, with the decisions D2, D3, D5, D7, D8, D10, D14, D15 and D32 (log entries 2, 5, 6, 8, 9, 10, 11, 21 and 24).
"ISR_VECTOR and BOOT_VECTOR are constants of the hardware build, not registers: software cannot move the vectors"
(R71, D19; log entry 4). -/
def Obligations.StepKeepsPlatformConstants : Prop :=
  (∀ s t : State, step s = .next t → t.platform = { s.platform with busFaults := t.platform.busFaults }) ∧
    State.reset.platform.statusBits = ⟨2, 9, 10⟩ ∧ State.reset.platform.sprNumbers = ⟨0x11#32, 0x20#32, 0x40#32⟩ ∧
      State.reset.platform.encoding = ⟨8, 6, 0x15#6⟩ ∧ State.reset.platform.bigEndian = true ∧
      State.reset.platform.r0Zero = true ∧ State.reset.platform.misalignedData = .busError ∧
      State.reset.platform.busFaults = []

/-- A step runs the decoded instruction (R262 test 10, in the order of tests that is the spec's decision D20; log entry
18). -/
def Obligations.StepRunsDecodedInstruction : Prop :=
  ∀ (s : State) (i : Instr), s.afterMoves.Fetchable → s.afterMoves.decoded = .ok i →
    (synchronousCause i s.afterMoves ≠ none ∨
      (s.afterMoves.nmiPending = false ∧ (s.afterMoves.intr = false ∨ s.afterMoves.flagIEE = false))) →
    step s = exec i s.afterMoves

/-- Encoder, memory, byte order, fetch, decoder and step agree. That a fetch sees every earlier store is the spec's
abstract machine (R78, D13; log entry 19). -/
def Obligations.PlacedInstructionRuns : Prop :=
  ∀ (s : State) (i : Instr), Memory.wf s.mem → s.platform.encoding.wellFormed = true → s.script = [] → s.Fetchable →
    s.nmiPending = false → s.intr = false → i.wellFormed = true →
    step (s.withFetchWord 32 (encodeWord s.platform.encoding i).toNat) =
      exec i (s.withFetchWord 32 (encodeWord s.platform.encoding i).toNat)

/-- Where rst_i is active after the environment's moves, the step leaves EPC = 0, ESR = 0, SR = 0 with F, CY and IEE 0,
and pc at BOOT_VECTOR + 0x100; State.reset holds the same values. -/
def Obligations.ResetStepSetsStatedValues : Prop :=
  (∀ s : State, s.afterMoves.rst = true →
      ∃ t, step s = .next t ∧ t.epc = 0#32 ∧ t.esr = 0#32 ∧ t.sr = 0#32 ∧ t.flagF = false ∧ t.flagCY = false ∧
        t.flagIEE = false ∧ t.pc = s.afterMoves.platform.bootVector + 0x100#32) ∧
    State.reset.epc = 0#32 ∧ State.reset.esr = 0#32 ∧ State.reset.sr = 0#32 ∧ State.reset.flagF = false ∧
      State.reset.flagCY = false ∧ State.reset.flagIEE = false ∧
      State.reset.pc = State.reset.platform.bootVector + 0x100#32

/-- What reset does beyond the four stated values. The registers' value is the model's choice (log entry 1), clearing
the latch the spec's decision D21 (log entry 20). -/
def Obligations.ResetStepLeavesTheRest : Prop :=
  ∀ s : State, s.afterMoves.rst = true →
    ∃ t, step s = .next t ∧ t.nmiPending = false ∧ (∀ r : Reg, t.reg r = State.reset.reg r) ∧
      KeepsMemory s.afterMoves t ∧ KeepsSurroundings s.afterMoves t

/-- "While rst_i stays active every step is the reset entry again, so the core makes no progress" (R311, D28). It rests
on log entry 1. -/
def Obligations.ResetHeldMakesNoProgress : Prop :=
  ∀ s t : State, s.script = [] → s.rst = true → step s = .next t → step t = .next t

/-- R270: the entry itself, the four assignments and nothing else. The last clause says what taking the exception adds:
that taking the NMI clears the latch is R277 under the spec's decision D21 (log entry 20). -/
def Obligations.EntryWritesFourRegisters : Prop :=
  ∀ (s : State) (e : Exception), e ≠ .reset →
    Entered s (s.enter e) e s.nmiPending ∧ (s.enter e).pc = s.platform.isrVector + vectorOffset e ∧
      (s.enter e).flagIEE = false ∧ (s.enter e).flagF = false ∧ (s.enter e).flagCY = false ∧
      s.takeException e = { s.enter e with nmiPending := if e = .nonMaskableInterrupt then false else s.nmiPending }

/-- Taking each exception at pc goes to its vector and puts in EPC what the table gives: 0 for reset, pc + 4 for illegal
instruction, bus error, syscall and trap, pc for the two interrupts. -/
def Obligations.ExceptionsFollowTheTable : Prop :=
  ∀ s : State,
    (s.takeException .reset).pc = s.platform.bootVector + 0x100#32 ∧ (s.takeException .reset).epc = 0#32 ∧
      (s.takeException .illegalInstruction).pc = s.platform.isrVector + 0x200#32 ∧
      (s.takeException .illegalInstruction).epc = s.pc + 4#32 ∧
      (s.takeException .externalInterrupt).pc = s.platform.isrVector + 0x300#32 ∧
      (s.takeException .externalInterrupt).epc = s.pc ∧
      (s.takeException .syscall).pc = s.platform.isrVector + 0x400#32 ∧ (s.takeException .syscall).epc = s.pc + 4#32 ∧
      (s.takeException .trap).pc = s.platform.isrVector + 0x600#32 ∧ (s.takeException .trap).epc = s.pc + 4#32 ∧
      (s.takeException .nonMaskableInterrupt).pc = s.platform.isrVector + 0x700#32 ∧
      (s.takeException .nonMaskableInterrupt).epc = s.pc ∧
      (s.takeException .busError).pc = s.platform.isrVector + 0x800#32 ∧ (s.takeException .busError).epc = s.pc + 4#32

/-- An instruction's own exception comes before a waiting interrupt, as the priorities of R260 say (R262, R263; the
order of tests is the spec's decision D20, log entry 18). -/
def Obligations.SynchronousExceptionWins : Prop :=
  ∀ (s : State) (i : Instr) (e : Exception), s.afterMoves.Fetchable → s.afterMoves.decoded = .ok i →
    synchronousCause i s.afterMoves = some e →
    (e = .busError ∨ e = .syscall ∨ e = .trap) ∧ exec i s.afterMoves = .next (s.afterMoves.takeException e) ∧
      StepEnters s s.afterMoves e s.afterMoves.nmiPending ∧ priority e < priority .nonMaskableInterrupt ∧
      priority .nonMaskableInterrupt < priority .externalInterrupt

/-- R272 and R118. That the exception comes before a waiting interrupt is the order of tests of R262, the spec's
decision D20 (log entry 18). -/
def Obligations.IllegalWordTakesException : Prop :=
  ∀ s : State, s.afterMoves.Fetchable →
    (∀ r ∈ opcodeRows s.afterMoves.platform.encoding, s.afterMoves.fetched &&& r.mask ≠ r.pattern) →
    ∃ t, step s = .next t ∧ Entered s.afterMoves t .illegalInstruction s.afterMoves.nmiPending ∧
      t.epc = s.afterMoves.pc + 4#32 ∧ t.pc = s.afterMoves.platform.isrVector + 0x200#32

/-- R65 and R67: that the test is made at the fetch is the spec's decision D9 (log entry 21), `BusFault` its open
parameter (D10; log entry 5). -/
def Obligations.ErroneousFetchTakesBusError : Prop :=
  ∀ s : State, s.afterMoves.rst = false →
    (s.afterMoves.pc.toNat % 4 ≠ 0 ∨ s.afterMoves.busFaultAt s.afterMoves.pc 4 .fetch = true) →
    ∃ t, step s = .next t ∧ Entered s.afterMoves t .busError s.afterMoves.nmiPending ∧
      t.epc = s.afterMoves.pc + 4#32 ∧ t.pc = s.afterMoves.platform.isrVector + 0x800#32

/-- R277; the latch is the spec's decision D21 (log entry 20), the order of tests its decision D20 (log entry 18). That
an instruction whose misaligned access the platform refuses is pre-empted like any other is the model's choice (log
entry 31). -/
def Obligations.NmiPreempts : Prop :=
  ∀ (s : State) (i : Instr), s.afterMoves.Fetchable → s.afterMoves.decoded = .ok i →
    synchronousCause i s.afterMoves = none → s.afterMoves.nmiPending = true →
    ∃ t, step s = .next t ∧ Entered s.afterMoves t .nonMaskableInterrupt false ∧ t.epc = s.afterMoves.pc ∧
      t.pc = s.afterMoves.platform.isrVector + 0x700#32

/-- R276; the level-sensitive input is the spec's decision D22 (log entry 22), the order of tests its decision D20 (log
entry 18). That an instruction whose misaligned access the platform refuses is pre-empted like any other is the
model's choice (log entry 31). -/
def Obligations.ExternalInterruptPreempts : Prop :=
  ∀ (s : State) (i : Instr), s.afterMoves.Fetchable → s.afterMoves.decoded = .ok i →
    synchronousCause i s.afterMoves = none → s.afterMoves.nmiPending = false → s.afterMoves.intr = true →
    s.afterMoves.flagIEE = true →
    ∃ t, step s = .next t ∧ Entered s.afterMoves t .externalInterrupt false ∧ t.epc = s.afterMoves.pc ∧
      t.pc = s.afterMoves.platform.isrVector + 0x300#32 ∧ t.flagIEE = false

/-- R263 (b) and R284: there is one EPC and one ESR. It rests on the spec's decisions D20 and D21 (log entries 18 and
20). That an instruction whose misaligned access the platform refuses is pre-empted like any other is the model's
choice (log entry 31). -/
def Obligations.PendingNmiOverwritesEntry : Prop :=
  ∀ (s t : State) (j : Instr) (e : Exception), s.script = [] → s.nmiPending = true → EntersSynchronously s e →
    step s = .next t → t.Fetchable → t.decoded = .ok j → synchronousCause j t = none →
    ∃ u, step t = .next u ∧ u.epc = vectorAddress s.platform e ∧ u.esr = 0#32 ∧ u.sr = 0#32 ∧ u.nmiPending = false ∧
      u.pc = s.platform.isrVector + 0x700#32

/-- Each of the 20 compares writes to SR.F whether its relation holds; no other instruction changes SR.F, the three
fields of SR being three bits, but for a whole-register move into SR (l.mtspr, l.rfe) and the entry of its own
exception; l.bf branches when SR.F is 1, l.bnf when it is 0. -/
def Obligations.FlagWriters : Prop :=
  (∀ (i : Instr) (s : State) (b : Bool), comparison i s = some b → ∃ t, exec i s = .next t ∧ t.flagF = b) ∧
    (∀ (i : Instr) (s t : State), s.platform.statusBits.wellFormed = true → comparison i s = none →
      ¬ MovesWholeStatus i → synchronousCause i s = none → exec i s = .next t → t.flagF = s.flagF) ∧
    ∀ (N : BitVec 26) (s : State),
      exec (.lBf N) s = .next (if s.flagF = true then s.jumpTo (s.branchTarget N) else s.advance) ∧
        exec (.lBnf N) s = .next (if s.flagF = false then s.jumpTo (s.branchTarget N) else s.advance)

/-- R32, the three fields of SR being three bits. That l.sub leaves SR.CY unchanged is the spec's decision D26 (R149;
log entry 16). -/
def Obligations.CarryWriters : Prop :=
  (∀ (i : Instr) (s : State) (b : Bool), additionCarry i s = some b → ∃ t, exec i s = .next t ∧ t.flagCY = b) ∧
    (∀ (i : Instr) (s t : State), s.platform.statusBits.wellFormed = true → additionCarry i s = none →
      ¬ MovesWholeStatus i → synchronousCause i s = none → exec i s = .next t → t.flagCY = s.flagCY) ∧
    ∀ (i : Instr) (s t : State) (b : Bool), s.platform.statusBits.wellFormed = true → exec i s = .next t →
      ∃ u, exec i (s.setCY b) = .next u ∧ u.pc = t.pc

/-- The external interrupt is taken only while SR.IEE is 1; whether the NMI or a synchronous exception is taken does not
depend on SR; SR.IEE is 0 at reset and after every exception entry; and a step that turns SR.IEE from 0 to 1, the
three fields of SR being three bits, ran an l.mtspr or an l.rfe. -/
def Obligations.InterruptEnableRule : Prop :=
  (∀ (i : Instr) (s : State), preemptingInterrupt i s = some .externalInterrupt → s.intr = true ∧ s.flagIEE = true) ∧
    (∀ (i : Instr) (s : State) (v : Word),
      synchronousCause i { s with sr := v } = synchronousCause i s ∧
        (preemptingInterrupt i { s with sr := v } = some .nonMaskableInterrupt ↔
          preemptingInterrupt i s = some .nonMaskableInterrupt)) ∧
    State.reset.flagIEE = false ∧ (∀ (s : State) (e : Exception), (s.takeException e).flagIEE = false) ∧
    ∀ s t : State, s.platform.statusBits.wellFormed = true → step s = .next t → s.afterMoves.flagIEE = false →
      t.flagIEE = true → ∃ i, s.afterMoves.decoded = .ok i ∧ MovesWholeStatus i ∧ exec i s.afterMoves = .next t

/-- For every instruction and state, if the instruction has a next state, every register other than the one it writes
(rD, or register 9 for l.jal and l.jalr) reads as before. -/
def Obligations.RegisterFrame : Prop :=
  ∀ (i : Instr) (s t : State) (r : Reg), exec i s = .next t → destination i ≠ some r → t.reg r = s.reg r

/-- For every instruction and state, if the instruction has a next state, every byte of memory reads as before, but for
the bytes from the address of the access up that l.sb, l.sh or l.sw stores to. -/
def Obligations.MemoryFrame : Prop :=
  ∀ (i : Instr) (s t : State), exec i s = .next t →
    (storedSpan i s = none → KeepsMemory s t) ∧
      ∀ (a : Word) (n : Nat), storedSpan i s = some (a, n) → KeepsMemoryOutside a n s t

/-- For every instruction that has a next state: the NMI latch, the inputs, the moves to come and the platform are
unchanged; EPC and ESR too, unless it is l.mtspr or enters its own exception. -/
def Obligations.SavedRegistersFrame : Prop :=
  ∀ (i : Instr) (s t : State), exec i s = .next t →
    t.nmiPending = s.nmiPending ∧ KeepsSurroundings s t ∧
      (¬ IsMtspr i → synchronousCause i s = none → t.epc = s.epc ∧ t.esr = s.esr)

/-- Progress: the machine stops nowhere but at an l.mfspr or l.mtspr (whose refusals are R34 and R40), by a fault, where
the platform has no memory (R67), and where MISALIGNED_DATA refuses (log entry 31). -/
def Obligations.MachineGoesOn : Prop :=
  ∀ s : State, s.Inv → (∀ a : Word, s.mappedAt a = true) → s.platform.misalignedData ≠ .refuse →
    s.GoesOn ∨ ∃ i, s.afterMoves.decoded = .ok i ∧ (IsMfspr i ∨ IsMtspr i)

/-- R296; the moves are the spec's decisions D21, D22 and D28 (log entries 7, 20 and 22), BusFault its open parameter
(D10; log entry 5). -/
def Obligations.EnvironmentLeavesCoreAlone : Prop :=
  (∀ (s : State) (m : EnvMove), Memory.wf s.mem → MoveDoes s (s.applyMove m) m) ∧
    (∀ (s : State) (moves : List EnvMove) (rest : List (List EnvMove)), s.script = moves :: rest →
      s.afterMoves = moves.foldl State.applyMove { s with script := rest } ∧
        (EnvMove.pulseNmi ∈ moves → s.afterMoves.nmiPending = true)) ∧
    ∀ s : State,
      (s.script = [] → s.afterMoves = s) ∧ s.afterMoves.regs = s.regs ∧ s.afterMoves.pc = s.pc ∧
        s.afterMoves.sr = s.sr ∧ s.afterMoves.epc = s.epc ∧ s.afterMoves.esr = s.esr ∧
        s.afterMoves.script = s.script.tail ∧ (s.nmiPending = true → s.afterMoves.nmiPending = true) ∧
        (Memory.wf s.mem → Memory.wf s.afterMoves.mem)

/-- R68. Big-endian order is the spec's decision D7 (log entry 8). -/
def Obligations.StoredBytesReadBack : Prop :=
  ∀ (s : State) (a : Word) (w : Word) (h : Half) (b : Byte), Memory.wf s.mem →
    (s.memWrite4 a w).memRead4 a = w ∧ (s.memWrite2 a h).memRead2 a = h ∧ (s.memWrite1 a b).memRead1 a = b ∧
      (s.platform.bigEndian = true → a.toNat % 4 = 0 →
        (s.memWrite4 a w).memRead1 a = w.extractLsb' 24 8 ∧ (s.memWrite4 a w).memRead1 (a + 1#32) = w.extractLsb' 16 8 ∧
          (s.memWrite4 a w).memRead1 (a + 2#32) = w.extractLsb' 8 8 ∧
          (s.memWrite4 a w).memRead1 (a + 3#32) = w.extractLsb' 0 8 ∧
          (s.memWrite4 a w).memRead2 a = w.extractLsb' 16 16 ∧
          (s.memWrite4 a w).memRead2 (a + 2#32) = w.extractLsb' 0 16)

/-- R22 and R23: the hard-wired zero is the spec's decision D5, the parameter R0_ZERO (log entry 2). -/
def Obligations.RegisterZeroByPlatform : Prop :=
  ∀ (s : State) (v : Word),
    (s.platform.r0Zero = true → s.reg 0 = 0#32 ∧ s.setReg 0 v = s) ∧
      (s.platform.r0Zero = false → (s.setReg 0 v).reg 0 = v)

/-- R141, R142, R143 and R152, every register among the destinations: that register 0 discards the sum is the spec's
decision D5 (log entry 2). -/
def Obligations.AdditionsWriteSumAndCarry : Prop :=
  ∀ (rD rA rB : Reg) (imm : Half) (s : State),
    (∃ t, exec (.lAdd rD rA rB) s = .next t ∧ AddsInto s t rD (s.reg rA) (s.reg rB) false) ∧
      (∃ t, exec (.lAddc rD rA rB) s = .next t ∧ AddsInto s t rD (s.reg rA) (s.reg rB) s.flagCY) ∧
      ∃ t, exec (.lAddi rD rA imm) s = .next t ∧ AddsInto s t rD (s.reg rA) (imm.signExtend 32) false

/-- R152. What l.add, l.addc and l.addi do where rD is register 0 is AdditionsWriteSumAndCarry's. -/
def Obligations.CarryOutIsBit32 : Prop :=
  ∀ (rD rA rB : Reg) (imm : Half) (s : State),
    (∀ (a b : Word) (c : Bool), a.toNat + b.toNat + c.toNat ≤ 2 ^ 33 - 1) ∧
    (∃ t, exec (.lAdd rD rA rB) s = .next t ∧ KeepsStatusBut s.platform.statusBits.cy s t ∧
      t.flagCY = decide ((s.reg rA).toNat + (s.reg rB).toNat ≥ 2 ^ 32) ∧
      (rD ≠ 0 → (t.reg rD).toNat = ((s.reg rA).toNat + (s.reg rB).toNat) % 2 ^ 32)) ∧
    (∃ t, exec (.lAddi rD rA imm) s = .next t ∧ KeepsStatusBut s.platform.statusBits.cy s t ∧
      t.flagCY = decide ((s.reg rA).toNat + (imm.signExtend 32).toNat ≥ 2 ^ 32) ∧
      (rD ≠ 0 → (t.reg rD).toNat = ((s.reg rA).toNat + (imm.signExtend 32).toNat) % 2 ^ 32)) ∧
    ∃ t, exec (.lAddc rD rA rB) s = .next t ∧ KeepsStatusBut s.platform.statusBits.cy s t ∧
      t.flagCY = decide ((s.reg rA).toNat + (s.reg rB).toNat + s.flagCY.toNat ≥ 2 ^ 32) ∧
      (rD ≠ 0 → (t.reg rD).toNat = ((s.reg rA).toNat + (s.reg rB).toNat + s.flagCY.toNat) % 2 ^ 32)

/-- R144, R147, R149 and R150. That l.sub leaves SR.CY unchanged is the spec's decision D26 (log entry 16); register 0
is D5 (log entry 2). -/
def Obligations.RegisterLogicAndSubtract : Prop :=
  ∀ (rD rA rB : Reg) (s : State),
    (∃ t, exec (.lAnd rD rA rB) s = .next t ∧ WritesOnly s t rD (s.reg rA &&& s.reg rB)) ∧
      (∃ t, exec (.lOr rD rA rB) s = .next t ∧ WritesOnly s t rD (s.reg rA ||| s.reg rB)) ∧
      (∃ t, exec (.lXor rD rA rB) s = .next t ∧ WritesOnly s t rD (s.reg rA ^^^ s.reg rB)) ∧
      ∃ t, exec (.lSub rD rA rB) s = .next t ∧
        WritesOnly s t rD (BitVec.ofInt 32 ((s.reg rA).toNat - (s.reg rB).toNat : Int))

/-- R145, R146, R148 and R151; register 0 is the spec's decision D5 (log entry 2). -/
def Obligations.ImmediateLogic : Prop :=
  ∀ (rD rA : Reg) (imm : Half) (s : State),
    (∃ t, exec (.lAndi rD rA imm) s = .next t ∧ WritesOnly s t rD (s.reg rA &&& (0#16 ++ imm))) ∧
      (∃ t, exec (.lOri rD rA imm) s = .next t ∧ WritesOnly s t rD (s.reg rA ||| (0#16 ++ imm))) ∧
      (∃ t, exec (.lMovhi rD imm) s = .next t ∧ WritesOnly s t rD (BitVec.ofNat 32 (imm.toNat * 2 ^ 16))) ∧
      ∃ t, exec (.lXori rD rA imm) s = .next t ∧ WritesOnly s t rD (s.reg rA ^^^ BitVec.ofInt 32 imm.toInt)

/-- R161, R163 and R165. The amount modulo 32 is the spec's decision D4 (log entry 15), the selector of the three words
as the sources give it D3; register 0 is D5 (log entry 2). -/
def Obligations.RegisterShifts : Prop :=
  ∀ (rD rA rB : Reg) (s : State),
    (∃ t, exec (.lSll rD rA rB) s = .next t ∧
        WritesOnly s t rD (BitVec.ofNat 32 ((s.reg rA).toNat * 2 ^ ((s.reg rB).toNat % 32)))) ∧
      (∃ t, exec (.lSrl rD rA rB) s = .next t ∧
        WritesOnly s t rD (BitVec.ofNat 32 ((s.reg rA).toNat / 2 ^ ((s.reg rB).toNat % 32)))) ∧
      ∃ t, exec (.lSra rD rA rB) s = .next t ∧
        WritesOnly s t rD (BitVec.ofInt 32 ((s.reg rA).toInt / 2 ^ ((s.reg rB).toNat % 32)))

/-- R162, R164 and R166. The amount modulo 32 is the spec's decision D4 (log entry 15); register 0 is D5 (log entry 2). -/
def Obligations.ImmediateShifts : Prop :=
  ∀ (rD rA : Reg) (L : Nat) (s : State),
    (∃ t, exec (.lSlli rD rA L) s = .next t ∧
        WritesOnly s t rD (BitVec.ofNat 32 ((s.reg rA).toNat * 2 ^ (L % 32)))) ∧
      (∃ t, exec (.lSrli rD rA L) s = .next t ∧
        WritesOnly s t rD (BitVec.ofNat 32 ((s.reg rA).toNat / 2 ^ (L % 32)))) ∧
      ∃ t, exec (.lSrai rD rA L) s = .next t ∧
        WritesOnly s t rD (BitVec.ofInt 32 ((s.reg rA).toInt / 2 ^ (L % 32)))

/-- R171 to R189. That bits 10..0 of the word are ignored is the spec's decision D1 (R101; log entry 12). -/
def Obligations.RegisterCompares : Prop :=
  RegisterCompare 0xE4000000#32 .lSfeq (fun a b => decide (a = b)) ∧
    RegisterCompare 0xE5600000#32 .lSfges (fun a b => BitVec.sle b a) ∧
    RegisterCompare 0xE4600000#32 .lSfgeu (fun a b => BitVec.ule b a) ∧
    RegisterCompare 0xE5400000#32 .lSfgts (fun a b => BitVec.slt b a) ∧
    RegisterCompare 0xE4400000#32 .lSfgtu (fun a b => BitVec.ult b a) ∧
    RegisterCompare 0xE5A00000#32 .lSfles BitVec.sle ∧
    RegisterCompare 0xE4A00000#32 .lSfleu BitVec.ule ∧
    RegisterCompare 0xE5800000#32 .lSflts BitVec.slt ∧
    RegisterCompare 0xE4800000#32 .lSfltu BitVec.ult ∧
    RegisterCompare 0xE4200000#32 .lSfne (fun a b => decide (a ≠ b))

/-- For each of the ten immediate compares: whatever the encoding parameters, every word that its selector fits is the
instruction; for every state and operands it completes and sets SR.F to whether its relation holds of x[rA] and the
immediate, sign-extended in the unsigned compares too; no register, no other bit of SR, nothing else but pc changes. -/
def Obligations.ImmediateCompares : Prop :=
  ImmediateCompare 0xBC000000#32 .lSfeqi (fun a b => decide (a = b)) ∧
    ImmediateCompare 0xBD600000#32 .lSfgesi (fun a b => BitVec.sle b a) ∧
    ImmediateCompare 0xBC600000#32 .lSfgeui (fun a b => BitVec.ule b a) ∧
    ImmediateCompare 0xBD400000#32 .lSfgtsi (fun a b => BitVec.slt b a) ∧
    ImmediateCompare 0xBC400000#32 .lSfgtui (fun a b => BitVec.ult b a) ∧
    ImmediateCompare 0xBDA00000#32 .lSflesi BitVec.sle ∧
    ImmediateCompare 0xBCA00000#32 .lSfleui BitVec.ule ∧
    ImmediateCompare 0xBD800000#32 .lSfltsi BitVec.slt ∧
    ImmediateCompare 0xBC800000#32 .lSfltui BitVec.ult ∧
    ImmediateCompare 0xBC200000#32 .lSfnei (fun a b => decide (a ≠ b))

/-- Whatever the encoding parameters, every word that the selector of l.bf or l.bnf fits is that instruction with N =
insn[25:0]; l.bf goes to pc + sext(N ++ 00) if SR.F is 1 and to pc + 4 if it is 0, l.bnf the other way round;
nothing but pc changes. -/
def Obligations.BranchesOnFlag : Prop :=
  (∀ (c : Encoding) (w : Word), c.wellFormed = true → w &&& 0xFC000000#32 = 0x10000000#32 →
      decodeWord c w = .ok (.lBf (w.extractLsb' 0 26))) ∧
    (∀ (c : Encoding) (w : Word), c.wellFormed = true → w &&& 0xFC000000#32 = 0x0C000000#32 →
      decodeWord c w = .ok (.lBnf (w.extractLsb' 0 26))) ∧
    ∀ (N : BitVec 26) (s : State),
      (∃ t, exec (.lBf N) s = .next t ∧
        ChangesPcOnly s t (if s.flagF = true then s.pc + (N ++ 0#2 : BitVec 28).signExtend 32 else s.pc + 4#32)) ∧
      ∃ t, exec (.lBnf N) s = .next t ∧
        ChangesPcOnly s t (if s.flagF = true then s.pc + 4#32 else s.pc + (N ++ 0#2 : BitVec 28).signExtend 32)

/-- Whatever the encoding parameters, every word that the selector of l.j or l.jal fits is that instruction with N =
insn[25:0]; both go to pc + sext(N ++ 00); l.jal writes pc + 4 to register 9; no other register and nothing else but
pc changes. -/
def Obligations.RelativeJumps : Prop :=
  (∀ (c : Encoding) (w : Word), c.wellFormed = true → w &&& 0xFC000000#32 = 0x00000000#32 →
      decodeWord c w = .ok (.lJ (w.extractLsb' 0 26))) ∧
    (∀ (c : Encoding) (w : Word), c.wellFormed = true → w &&& 0xFC000000#32 = 0x04000000#32 →
      decodeWord c w = .ok (.lJal (w.extractLsb' 0 26))) ∧
    ∀ (N : BitVec 26) (s : State),
      (∃ t, exec (.lJ N) s = .next t ∧ ChangesPcOnly s t (s.pc + (N ++ 0#2 : BitVec 28).signExtend 32)) ∧
      ∃ t, exec (.lJal N) s = .next t ∧ t.pc = s.pc + (N ++ 0#2 : BitVec 28).signExtend 32 ∧
        (∀ r : Reg, t.reg r = if r = 9 then s.pc + 4#32 else s.reg r) ∧ t.sr = s.sr ∧ KeepsAllElse s t

/-- R205, R206 and R208. That l.jalr r9 goes to the old register 9 is the spec's decision D25 (log entry 17), that a
misaligned target is no error of the jump D9 (log entry 21). -/
def Obligations.JumpsThroughRegister : Prop :=
  ∀ (rB : Reg) (s : State),
    (∃ t, exec (.lJr rB) s = .next t ∧ ChangesPcOnly s t (s.reg rB)) ∧
      ∃ t, exec (.lJalr rB) s = .next t ∧ t.pc = s.reg rB ∧
        (∀ r : Reg, t.reg r = if r = 9 then s.pc + 4#32 else s.reg r) ∧ t.sr = s.sr ∧ KeepsAllElse s t

/-- The target is pc plus 4 times N read as a signed number, modulo 2^32; N = 0 is the instruction itself, N = 1 the
next one, N = -1 the one before; the target is aligned whenever pc is. -/
def Obligations.BranchTargetArithmetic : Prop :=
  ∀ (s : State) (N : BitVec 26),
    s.branchTarget N = BitVec.ofInt 32 (s.pc.toNat + 4 * N.toInt) ∧ s.branchTarget 0#26 = s.pc ∧
      s.branchTarget 1#26 = s.pc + 4#32 ∧ s.branchTarget 0x3FFFFFF#26 = s.pc - 4#32 ∧
      (s.pc.toNat % 4 = 0 → (s.branchTarget N).toNat % 4 = 0)

/-- Each of the six completes in every state and raises no exception; memory and SR are unchanged; running it with other
memory, or, SR.CY and SR.F being two bits, with another SR.CY, gives the same next state with that memory or that
SR.CY; the four that are not l.bf or l.bnf do not read SR.F either. -/
def Obligations.JumpsTouchNoMemoryOrFlags : Prop :=
  ∀ (i : Instr) (s : State), IsJump i →
    ∃ t, exec i s = .next t ∧ synchronousCause i s = none ∧ t.mem = s.mem ∧ t.sr = s.sr ∧
      (∀ m : Memory, exec i { s with mem := m } = .next { t with mem := m }) ∧
      (s.platform.statusBits.wellFormed = true → ∀ b : Bool, exec i (s.setCY b) = .next (t.setCY b)) ∧
      ((∀ N, i ≠ .lBf N) → (∀ N, i ≠ .lBnf N) → ∀ b : Bool, exec i (s.setF b) = .next (t.setF b))

/-- R221 and R222; register 0 is the spec's decision D5 (log entry 2). -/
def Obligations.ByteLoads : Prop :=
  ∀ (rD rA : Reg) (imm : Half) (s : State), AccessGoesThrough s (accessAddress s rA imm 1) 1 .load →
    (∃ t, exec (.lLbs rD rA imm) s = .next t ∧
      WritesOnly s t rD (BitVec.ofInt 32 (s.memRead1 (accessAddress s rA imm 1)).toInt)) ∧
      ∃ t, exec (.lLbz rD rA imm) s = .next t ∧
        WritesOnly s t rD (BitVec.ofNat 32 (s.memRead1 (accessAddress s rA imm 1)).toNat)

/-- R223 and R224. The byte order is the spec's decision D7 (log entry 8), the alignment rule D8, with the other values
of MISALIGNED_DATA (log entries 21 and 31), register 0 D5 (log entry 2). -/
def Obligations.HalfWordLoads : Prop :=
  ∀ (rD rA : Reg) (imm : Half) (s : State), AccessGoesThrough s (accessAddress s rA imm 2) 2 .load →
    ∃ h : Half,
      (s.platform.bigEndian = true →
        h = s.memRead1 (accessAddress s rA imm 2) ++ s.memRead1 (accessAddress s rA imm 2 + 1#32)) ∧
      (s.platform.bigEndian = false →
        h = s.memRead1 (accessAddress s rA imm 2 + 1#32) ++ s.memRead1 (accessAddress s rA imm 2)) ∧
      (∃ t, exec (.lLhs rD rA imm) s = .next t ∧ WritesOnly s t rD (BitVec.ofInt 32 h.toInt)) ∧
      ∃ t, exec (.lLhz rD rA imm) s = .next t ∧ WritesOnly s t rD (BitVec.ofNat 32 h.toNat)

/-- R225 and R226. The byte order is the spec's decision D7 (log entry 8), the alignment rule D8, with the other values
of MISALIGNED_DATA (log entries 21 and 31), register 0 D5 (log entry 2). -/
def Obligations.WordLoads : Prop :=
  ∀ (rD rA : Reg) (imm : Half) (s : State), AccessGoesThrough s (accessAddress s rA imm 4) 4 .load →
    ∃ w : Word,
      (s.platform.bigEndian = true → ∀ k, k < 4 →
        w.extractLsb' (8 * (3 - k)) 8 = s.memRead1 (accessAddress s rA imm 4 + BitVec.ofNat 32 k)) ∧
      (s.platform.bigEndian = false → ∀ k, k < 4 →
        w.extractLsb' (8 * k) 8 = s.memRead1 (accessAddress s rA imm 4 + BitVec.ofNat 32 k)) ∧
      (∃ t, exec (.lLws rD rA imm) s = .next t ∧ WritesOnly s t rD w) ∧
      ∃ t, exec (.lLwz rD rA imm) s = .next t ∧ WritesOnly s t rD w

/-- Where the access at x[rA] + sext(I) goes through, l.sb completes: the byte there takes the low 8 bits of x[rB], and
every other byte, every register, SR and everything else but pc is unchanged. -/
def Obligations.ByteStore : Prop :=
  ∀ (rA rB : Reg) (imm : Half) (s : State), Memory.wf s.mem →
    AccessGoesThrough s (accessAddress s rA imm 1) 1 .store →
    ∃ t, exec (.lSb rA rB imm) s = .next t ∧ StoresOnly s t (accessAddress s rA imm 1) 1 ∧
      (t.memRead1 (accessAddress s rA imm 1)).toNat = (s.reg rB).toNat % 256

/-- R228. The byte order is the spec's decision D7 (log entry 8), the alignment rule D8, with the other values of
MISALIGNED_DATA (log entries 21 and 31). -/
def Obligations.HalfWordStore : Prop :=
  ∀ (rA rB : Reg) (imm : Half) (s : State), Memory.wf s.mem →
    AccessGoesThrough s (accessAddress s rA imm 2) 2 .store →
    ∃ t, exec (.lSh rA rB imm) s = .next t ∧ StoresOnly s t (accessAddress s rA imm 2) 2 ∧
      ∀ k, k < 2 → t.memRead1 (accessAddress s rA imm 2 + BitVec.ofNat 32 k) =
        (s.reg rB).extractLsb' (8 * (if s.platform.bigEndian = true then 1 - k else k)) 8

/-- R229. The byte order is the spec's decision D7 (log entry 8), the alignment rule D8, with the other values of
MISALIGNED_DATA (log entries 21 and 31). -/
def Obligations.WordStore : Prop :=
  ∀ (rA rB : Reg) (imm : Half) (s : State), Memory.wf s.mem →
    AccessGoesThrough s (accessAddress s rA imm 4) 4 .store →
    ∃ t, exec (.lSw rA rB imm) s = .next t ∧ StoresOnly s t (accessAddress s rA imm 4) 4 ∧
      ∀ k, k < 4 → t.memRead1 (accessAddress s rA imm 4 + BitVec.ofNat 32 k) =
        (s.reg rB).extractLsb' (8 * (if s.platform.bigEndian = true then 3 - k else k)) 8

/-- R66 and R230: that a misaligned access raises the bus error is the spec's decision D8 (log entry 21); its
alternative "refuse" is U6 of 93_implementation_defined.md, and that it comes before a bus error of the same access
is the model's choice (log entry 31). For the values "truncate" and "split" the accesses go through as the
statements on loads and stores say. -/
def Obligations.MisalignedDataTakesBusError : Prop :=
  ∀ (rD rA rB : Reg) (imm : Half) (s : State),
    (s.platform.misalignedData = .busError →
      ((s.reg rA + imm.signExtend 32).toNat % 2 ≠ 0 →
        TakesBusError (.lLhs rD rA imm) s ∧ TakesBusError (.lLhz rD rA imm) s ∧ TakesBusError (.lSh rA rB imm) s) ∧
      ((s.reg rA + imm.signExtend 32).toNat % 4 ≠ 0 →
        TakesBusError (.lLws rD rA imm) s ∧ TakesBusError (.lLwz rD rA imm) s ∧ TakesBusError (.lSw rA rB imm) s)) ∧
    (s.platform.misalignedData = .refuse →
      ((s.reg rA + imm.signExtend 32).toNat % 2 ≠ 0 →
        exec (.lLhs rD rA imm) s = .refused (.misalignedAccess (s.reg rA + imm.signExtend 32)) ∧
        exec (.lLhz rD rA imm) s = .refused (.misalignedAccess (s.reg rA + imm.signExtend 32)) ∧
        exec (.lSh rA rB imm) s = .refused (.misalignedAccess (s.reg rA + imm.signExtend 32))) ∧
      ((s.reg rA + imm.signExtend 32).toNat % 4 ≠ 0 →
        exec (.lLws rD rA imm) s = .refused (.misalignedAccess (s.reg rA + imm.signExtend 32)) ∧
        exec (.lLwz rD rA imm) s = .refused (.misalignedAccess (s.reg rA + imm.signExtend 32)) ∧
        exec (.lSw rA rB imm) s = .refused (.misalignedAccess (s.reg rA + imm.signExtend 32))))

/-- R67 and R230: `BusFault` is the spec's open parameter (D10; log entry 5); the access is at EA, or where
MISALIGNED_DATA puts it (log entry 31). -/
def Obligations.RejectedDataTakesBusError : Prop :=
  ∀ (rD rA rB : Reg) (imm : Half) (s : State),
    (s.busFaultAt (accessAddress s rA imm 1) 1 .load = true → TakesBusError (.lLbs rD rA imm) s ∧ TakesBusError (.lLbz rD rA imm) s) ∧
    (((accessAddress s rA imm 2).toNat % 2 = 0 ∨ s.platform.misalignedData ≠ .refuse) →
      s.busFaultAt (accessAddress s rA imm 2) 2 .load = true → TakesBusError (.lLhs rD rA imm) s ∧ TakesBusError (.lLhz rD rA imm) s) ∧
    (((accessAddress s rA imm 4).toNat % 4 = 0 ∨ s.platform.misalignedData ≠ .refuse) →
      s.busFaultAt (accessAddress s rA imm 4) 4 .load = true → TakesBusError (.lLws rD rA imm) s ∧ TakesBusError (.lLwz rD rA imm) s) ∧
    (s.busFaultAt (accessAddress s rA imm 1) 1 .store = true → TakesBusError (.lSb rA rB imm) s) ∧
    (((accessAddress s rA imm 2).toNat % 2 = 0 ∨ s.platform.misalignedData ≠ .refuse) →
      s.busFaultAt (accessAddress s rA imm 2) 2 .store = true → TakesBusError (.lSh rA rB imm) s) ∧
    (((accessAddress s rA imm 4).toNat % 4 = 0 ∨ s.platform.misalignedData ≠ .refuse) →
      s.busFaultAt (accessAddress s rA imm 4) 4 .store = true → TakesBusError (.lSw rA rB imm) s)

/-- "An access to an address where Mapped is false and BusFault is false has no meaning in this spec: a model gives it
no step" (R67; D10, D11; log entry 5). -/
def Obligations.AccessWithoutMemoryStops : Prop :=
  (∀ (rD rA rB : Reg) (imm : Half) (s : State) (n j : Nat), j < n → AlignmentAllows s (accessAddress s rA imm n) n →
      s.mappedAt (accessAddress s rA imm n + BitVec.ofNat 32 j) = false →
      (s.busFaultAt (accessAddress s rA imm n) n .load = false →
        (n = 1 → exec (.lLbs rD rA imm) s = .fault (.unmapped .load (accessAddress s rA imm n)) ∧
        exec (.lLbz rD rA imm) s = .fault (.unmapped .load (accessAddress s rA imm n))) ∧
        (n = 2 → exec (.lLhs rD rA imm) s = .fault (.unmapped .load (accessAddress s rA imm n)) ∧
        exec (.lLhz rD rA imm) s = .fault (.unmapped .load (accessAddress s rA imm n))) ∧
        (n = 4 → exec (.lLws rD rA imm) s = .fault (.unmapped .load (accessAddress s rA imm n)) ∧
        exec (.lLwz rD rA imm) s = .fault (.unmapped .load (accessAddress s rA imm n)))) ∧
      (s.busFaultAt (accessAddress s rA imm n) n .store = false →
        (n = 1 → exec (.lSb rA rB imm) s = .fault (.unmapped .store (accessAddress s rA imm n))) ∧
        (n = 2 → exec (.lSh rA rB imm) s = .fault (.unmapped .store (accessAddress s rA imm n))) ∧
        (n = 4 → exec (.lSw rA rB imm) s = .fault (.unmapped .store (accessAddress s rA imm n))))) ∧
    ∀ (s : State) (j : Nat), j < 4 → s.afterMoves.rst = false → s.afterMoves.pc.toNat % 4 = 0 →
      s.afterMoves.busFaultAt s.afterMoves.pc 4 .fetch = false →
      s.afterMoves.mappedAt (s.afterMoves.pc + BitVec.ofNat 32 j) = false →
      step s = .fault (.unmapped .fetch s.afterMoves.pc)

/-- R241 and R40: the numbers are the spec's decision D15 (log entry 10). -/
def Obligations.MoveFromSpecialRegister : Prop :=
  ∀ (rD rA : Reg) (imm : Half) (s : State), s.platform.sprNumbers.wellFormed = true →
    (s.reg rA ||| (0#16 ++ imm) = s.platform.sprNumbers.sr →
        ∃ t, exec (.lMfspr rD rA imm) s = .next t ∧ WritesOnly s t rD s.sr) ∧
      (s.reg rA ||| (0#16 ++ imm) = s.platform.sprNumbers.epc →
        ∃ t, exec (.lMfspr rD rA imm) s = .next t ∧ WritesOnly s t rD s.epc) ∧
      (s.reg rA ||| (0#16 ++ imm) = s.platform.sprNumbers.esr →
        ∃ t, exec (.lMfspr rD rA imm) s = .next t ∧ WritesOnly s t rD s.esr)

/-- R242, R40 and R34: the numbers are the spec's decision D15 (log entry 10), the bit positions D14 (log entry 9), the
reserved bits D17 (log entry 13). -/
def Obligations.MoveToSpecialRegister : Prop :=
  ∀ (rA rB : Reg) (imm : Half) (s : State), s.platform.sprNumbers.wellFormed = true →
    (s.reg rA ||| (0#16 ++ imm) = s.platform.sprNumbers.sr →
      OnlyNamedBits s.platform.statusBits (s.reg rB) →
      ∃ t, exec (.lMtspr rA rB imm) s = .next t ∧ t.sr = s.reg rB ∧ t.pc = s.pc + 4#32 ∧ KeepsRegisters s t ∧
        KeepsAllElse s t) ∧
    (s.reg rA ||| (0#16 ++ imm) = s.platform.sprNumbers.epc →
      ∃ t, exec (.lMtspr rA rB imm) s = .next t ∧ t.epc = s.reg rB ∧ t.esr = s.esr ∧ t.nmiPending = s.nmiPending ∧
        t.sr = s.sr ∧ t.pc = s.pc + 4#32 ∧ KeepsRegisters s t ∧ KeepsMemory s t ∧ KeepsSurroundings s t) ∧
    (s.reg rA ||| (0#16 ++ imm) = s.platform.sprNumbers.esr →
      OnlyNamedBits s.platform.statusBits (s.reg rB) →
      ∃ t, exec (.lMtspr rA rB imm) s = .next t ∧ t.esr = s.reg rB ∧ t.epc = s.epc ∧ t.nmiPending = s.nmiPending ∧
        t.sr = s.sr ∧ t.pc = s.pc + 4#32 ∧ KeepsRegisters s t ∧ KeepsMemory s t ∧ KeepsSurroundings s t)

/-- R40 and R34: "no meaning: a model refuses the instruction" is the spec's decisions D16 and D17 (log entries 10 and
13). -/
def Obligations.SpecialRegisterRefusals : Prop :=
  ∀ (rD rA rB : Reg) (imm : Half) (s : State), s.platform.sprNumbers.wellFormed = true →
    (s.reg rA ||| (0#16 ++ imm) ≠ s.platform.sprNumbers.sr →
      s.reg rA ||| (0#16 ++ imm) ≠ s.platform.sprNumbers.epc →
      s.reg rA ||| (0#16 ++ imm) ≠ s.platform.sprNumbers.esr →
      exec (.lMfspr rD rA imm) s = .refused (.undefinedSpecialRegister (s.reg rA ||| (0#16 ++ imm))) ∧
        exec (.lMtspr rA rB imm) s = .refused (.undefinedSpecialRegister (s.reg rA ||| (0#16 ++ imm)))) ∧
    (s.reg rA ||| (0#16 ++ imm) = s.platform.sprNumbers.sr ∨
        s.reg rA ||| (0#16 ++ imm) = s.platform.sprNumbers.esr →
      ¬ OnlyNamedBits s.platform.statusBits (s.reg rB) →
      exec (.lMtspr rA rB imm) s = .refused (.reservedStatusBits (s.reg rB))) ∧
    (¬ OnlyNamedBits s.platform.statusBits s.esr → exec .lRfe s = .refused (.reservedStatusBits s.esr))

/-- R243; that K has no effect is the spec's decision D27 (log entry 23). -/
def Obligations.NopOnlyAdvances : Prop :=
  ∀ (imm : Half) (s : State), ∃ t, exec (.lNop imm) s = .next t ∧ ChangesPcOnly s t (s.pc + 4#32)

/-- R244 and R283; the reserved bits are the spec's decision D17 (log entry 13). -/
def Obligations.ReturnFromException : Prop :=
  (∀ s : State, OnlyNamedBits s.platform.statusBits s.esr →
      ∃ t, exec .lRfe s = .next t ∧ t.pc = s.epc ∧ t.sr = s.esr ∧ KeepsRegisters s t ∧ KeepsAllElse s t) ∧
    ∀ (s : State) (e : Exception), e ≠ .reset → OnlyNamedBits s.platform.statusBits s.sr →
      ∃ t, exec .lRfe (s.takeException e) = .next t ∧ t.pc = returnAddress e s.pc ∧ t.sr = s.sr ∧ KeepsRegisters s t ∧
        KeepsMemory s t

/-- R273 and R274, R245 and R246. That what they do does not depend on K, which selects no vector and is recorded
nowhere, and that l.trap is unconditional, is the spec's decision D31 (log entry 26). -/
def Obligations.SystemCallAndTrapEnter : Prop :=
  ∀ (K K' : Half) (s : State),
    (∃ t, exec (.lSys K) s = .next t ∧ exec (.lSys K') s = .next t ∧ Entered s t .syscall s.nmiPending ∧
      t.epc = s.pc + 4#32 ∧ t.pc = s.platform.isrVector + 0x400#32) ∧
    ∃ t, exec (.lTrap K) s = .next t ∧ exec (.lTrap K') s = .next t ∧ Entered s t .trap s.nmiPending ∧
      t.epc = s.pc + 4#32 ∧ t.pc = s.platform.isrVector + 0x600#32
end

