-- ==== Sys2Proof/Laws/Encode.lean ====
section
/-! SUPPORT. The laws of fields and placed bits, and from them the fields of each instruction format: what the decoder
reads from a word that the encoder wrote. -/

namespace Sys2Proof

/-! ### Placed bits and fields -/

/-- The bits of a placed value. -/
theorem place_getLsbD {n : Nat} (x : BitVec n) (lo k : Nat) :
    (place x lo).getLsbD k = (decide (k < 32) && decide (lo ≤ k) && x.getLsbD (k - lo)) := by
  unfold place
  rw [BitVec.getLsbD_shiftLeft, BitVec.getLsbD_setWidth]
  by_cases h : lo ≤ k
  · by_cases hk : k < 32
    · have : k - lo < 32 := by omega
      simp [h, hk, this, Nat.not_lt.2 h]
    · simp [hk]
  · simp [h, Nat.lt_of_not_le h]

/-- The bits of a field. -/
theorem field_getLsbD (w : Word) (lo len k : Nat) :
    (field w lo len).getLsbD k = (decide (k < len) && w.getLsbD (lo + k)) := by
  unfold field; rw [BitVec.getLsbD_extractLsb']

/-- A field of a bit-wise OR. -/
theorem field_or (v w : Word) (lo len : Nat) : field (v ||| w) lo len = field v lo len ||| field w lo len := by
  apply BitVec.eq_of_getLsbD_eq
  intro k hk
  simp only [field_getLsbD, BitVec.getLsbD_or, hk, decide_true, Bool.true_and]

/-- The field where a value was placed is that value. -/
theorem field_place_same {n : Nat} (x : BitVec n) (lo : Nat) (h : lo + n ≤ 32) : field (place x lo) lo n = x := by
  apply BitVec.eq_of_getLsbD_eq
  intro k hk
  rw [field_getLsbD, place_getLsbD]
  have h1 : lo + k < 32 := by omega
  have h2 : lo ≤ lo + k := by omega
  simp [hk, h1]

/-- A field that a placed value does not reach is 0. -/
theorem field_place_apart {n : Nat} (x : BitVec n) (lo lo' len : Nat) (h : lo + len ≤ lo' ∨ lo' + n ≤ lo) :
    field (place x lo') lo len = 0 := by
  apply BitVec.eq_of_getLsbD_eq
  intro k hk
  rw [field_getLsbD, place_getLsbD]
  by_cases h1 : lo' ≤ lo + k
  · rw [BitVec.getLsbD_of_ge x (lo + k - lo') (by omega)]; simp
  · simp [h1]

/-- A mask that does not reach a placed value. -/
theorem place_and_apart {n : Nat} (x : BitVec n) (lo : Nat) (m : Word)
    (h : ∀ k, k < n → m.getLsbD (lo + k) = false) : place x lo &&& m = 0#32 := by
  apply BitVec.eq_of_getLsbD_eq
  intro k hk
  rw [BitVec.getLsbD_and, place_getLsbD, BitVec.getLsbD_zero]
  by_cases h1 : lo ≤ k
  · by_cases h2 : k - lo < n
    · have := h _ h2
      rw [show lo + (k - lo) = k by omega] at this
      simp [this]
    · rw [BitVec.getLsbD_of_ge x (k - lo) (by omega)]; simp
  · simp [h1]

/-- A mask that covers a placed value. -/
theorem place_and_covered {n : Nat} (x : BitVec n) (lo : Nat) (m : Word)
    (h : ∀ k, k < n → m.getLsbD (lo + k) = true) : place x lo &&& m = place x lo := by
  apply BitVec.eq_of_getLsbD_eq
  intro k hk
  rw [BitVec.getLsbD_and, place_getLsbD]
  by_cases h1 : lo ≤ k
  · by_cases h2 : k - lo < n
    · have := h _ h2
      rw [show lo + (k - lo) = k by omega] at this
      simp [this]
    · rw [BitVec.getLsbD_of_ge x (k - lo) (by omega)]; simp
  · simp [h1]

/-- A mask over a bit-wise OR. -/
theorem or_and_mask (v w m : Word) : (v ||| w) &&& m = (v &&& m) ||| (w &&& m) := by
  apply BitVec.eq_of_getLsbD_eq
  intro k _
  simp only [BitVec.getLsbD_and, BitVec.getLsbD_or, Bool.and_or_distrib_right]

/-- A register number is what its five bits say. -/
theorem regField_of_field (w : Word) (lo : Nat) (r : Reg) (h : field w lo 5 = regBits r) : regField w lo = r := by
  apply Fin.ext
  show (field w lo 5).toNat = r.val
  rw [h]
  simp [regBits]

/-! ### The fields of each format -/

theorem formatJ_fields (major : BitVec 6) (offset : BitVec 26) : fieldOffset (formatJ major offset) = offset := by
  unfold fieldOffset formatJ
  rw [field_or, field_place_apart _ _ _ _ (by omega), field_place_same _ _ (by omega)]
  simp

theorem formatJR_fields (major : BitVec 6) (rB : Reg) : fieldB (formatJR major rB) = rB := by
  apply regField_of_field
  unfold formatJR
  rw [field_or, field_place_apart _ _ _ _ (by omega), field_place_same _ _ (by omega)]
  simp

theorem formatRRR_fields (lo : Nat) (sel2 : BitVec 2) (fn4 : BitVec 4) (rD rA rB : Reg) (h : lo ≤ 9) :
    fieldD (formatRRR lo sel2 fn4 rD rA rB) = rD ∧ fieldA (formatRRR lo sel2 fn4 rD rA rB) = rA ∧
      fieldB (formatRRR lo sel2 fn4 rD rA rB) = rB := by
  refine ⟨regField_of_field _ _ _ ?_, regField_of_field _ _ _ ?_, regField_of_field _ _ _ ?_⟩ <;>
    simp (disch := omega) [formatRRR, field_or, field_place_same, field_place_apart]

theorem formatRRI_fields (major : BitVec 6) (rD rA : Reg) (imm : Half) :
    fieldD (formatRRI major rD rA imm) = rD ∧ fieldA (formatRRI major rD rA imm) = rA ∧
      fieldImm (formatRRI major rD rA imm) = imm := by
  refine ⟨regField_of_field _ _ _ ?_, regField_of_field _ _ _ ?_, ?_⟩ <;>
    simp [fieldImm, formatRRI, field_or, field_place_same, field_place_apart]

theorem formatRI_fields (major : BitVec 6) (rD : Reg) (imm : Half) :
    fieldD (formatRI major rD imm) = rD ∧ fieldImm (formatRI major rD imm) = imm := by
  refine ⟨regField_of_field _ _ _ ?_, ?_⟩ <;>
    simp [fieldImm, formatRI, field_or, field_place_same, field_place_apart]

/-- The two parts of the split immediate, put together, are the immediate (R112). -/
theorem splitImm_join (imm : Half) : imm.extractLsb' 11 5 ++ imm.extractLsb' 0 11 = imm := by
  apply BitVec.eq_of_getLsbD_eq
  intro k hk
  rw [BitVec.getLsbD_append]
  split
  · next h => simp [h]
  · next h =>
    have h1 : k - 11 < 5 := by omega
    have h2 : 11 + (k - 11) = k := by omega
    simp [h1, h2]

theorem formatRSI_fields (major : BitVec 6) (rA rB : Reg) (imm : Half) :
    fieldA (formatRSI major rA rB imm) = rA ∧ fieldB (formatRSI major rA rB imm) = rB ∧
      fieldSplitImm (formatRSI major rA rB imm) = imm := by
  refine ⟨regField_of_field _ _ _ ?_, regField_of_field _ _ _ ?_, ?_⟩
  · simp [formatRSI, field_or, field_place_same, field_place_apart]
  · simp [formatRSI, field_or, field_place_same, field_place_apart]
  · have h1 : field (formatRSI major rA rB imm) 21 5 = imm.extractLsb' 11 5 := by
      simp [formatRSI, field_or, field_place_same, field_place_apart]
    have h2 : field (formatRSI major rA rB imm) 0 11 = imm.extractLsb' 0 11 := by
      simp [formatRSI, field_or, field_place_same, field_place_apart]
    unfold fieldSplitImm
    rw [h1, h2, splitImm_join]

theorem formatSF_fields (cond : BitVec 5) (rA rB : Reg) :
    fieldA (formatSF cond rA rB) = rA ∧ fieldB (formatSF cond rA rB) = rB := by
  refine ⟨regField_of_field _ _ _ ?_, regField_of_field _ _ _ ?_⟩ <;>
    simp [formatSF, field_or, field_place_same, field_place_apart]

theorem formatSFI_fields (cond : BitVec 5) (rA : Reg) (imm : Half) :
    fieldA (formatSFI cond rA imm) = rA ∧ fieldImm (formatSFI cond rA imm) = imm := by
  refine ⟨regField_of_field _ _ _ ?_, ?_⟩ <;>
    simp [fieldImm, formatSFI, field_or, field_place_same, field_place_apart]

theorem formatSHI_fields (lo : Nat) (shsel : BitVec 2) (rD rA : Reg) (amount : Nat) (h : amount < 64) (h6 : 6 ≤ lo)
    (h14 : lo ≤ 14) :
    fieldD (formatSHI lo shsel rD rA amount) = rD ∧ fieldA (formatSHI lo shsel rD rA amount) = rA ∧
      fieldAmount (formatSHI lo shsel rD rA amount) = amount := by
  refine ⟨regField_of_field _ _ _ ?_, regField_of_field _ _ _ ?_, ?_⟩
  · simp (disch := omega) [formatSHI, field_or, field_place_same, field_place_apart]
  · simp (disch := omega) [formatSHI, field_or, field_place_same, field_place_apart]
  · simp (disch := omega) [fieldAmount, formatSHI, field_or, field_place_same, field_place_apart]
    omega

theorem formatNOP_fields (major : BitVec 6) (imm : Half) : fieldImm (formatNOP major imm) = imm := by
  simp [fieldImm, formatNOP, field_or, field_place_same, field_place_apart]

theorem formatSYS_fields (opcode : BitVec 16) (imm : Half) : fieldImm (formatSYS opcode imm) = imm := by
  simp [fieldImm, formatSYS, field_or, field_place_same, field_place_apart]

/-! ### The selector bits of each format: what the mask of its rows leaves -/

theorem formatJ_masked (major : BitVec 6) (offset : BitVec 26) :
    formatJ major offset &&& 0xFC000000#32 = place major 26 := by
  unfold formatJ
  simp only [or_and_mask]
  rw [place_and_covered major _ _ (by decide),
    place_and_apart offset _ _ (by decide)]
  simp

theorem formatJR_masked (major : BitVec 6) (rB : Reg) :
    formatJR major rB &&& 0xFC000000#32 = place major 26 := by
  unfold formatJR
  simp only [or_and_mask]
  rw [place_and_covered major _ _ (by decide),
    place_and_apart (regBits rB) _ _ (by decide)]
  simp

/-- The bits of the mask of a row with a selector field. -/
theorem selectorMask_getLsbD (bits : Word) (lo k : Nat) :
    (selectorMask bits lo).getLsbD k = (bits.getLsbD k || (decide (k < 32) && decide (lo ≤ k ∧ k < lo + 2))) := by
  have h3 : ∀ j, (3#32).getLsbD j = decide (j < 2) := by
    intro j
    by_cases hj : j < 32
    · revert j; decide
    · rw [BitVec.getLsbD_of_ge _ _ (by omega), decide_eq_false (by omega)]
  unfold selectorMask
  rw [BitVec.getLsbD_or, BitVec.getLsbD_shiftLeft, h3]
  congr 1
  by_cases h1 : k < lo
  · simp [h1, Nat.not_le.2 h1]
  · by_cases h2 : k < lo + 2
    · simp [Nat.not_lt.1 h1, h2, show k - lo < 2 by omega, show ¬ k < lo from h1]
    · simp [h2, show ¬ k - lo < 2 by omega]

/-- A placed selector beside the other selector bits of its row is the row's pattern. -/
theorem selectorPattern_eq (bits : Word) (v : BitVec 2) (lo : Nat) : selectorPattern bits v lo = bits ||| place v lo := rfl

theorem formatRRR_masked (lo : Nat) (sel2 : BitVec 2) (fn4 : BitVec 4) (rD rA rB : Reg) (h4 : 4 ≤ lo) (h9 : lo ≤ 9) :
    formatRRR lo sel2 fn4 rD rA rB &&& selectorMask 0xFC00000F#32 lo =
      place 0x38#6 26 ||| place sel2 lo ||| place fn4 0 := by
  have apart : ∀ j k, 11 ≤ j → j + k < 26 → (selectorMask 0xFC00000F#32 lo).getLsbD (j + k) = false := by
    intro j k hj hk
    have h0 : ∀ m, m < 26 → 11 ≤ m → (0xFC00000F#32).getLsbD m = false := by decide
    rw [selectorMask_getLsbD, h0 _ hk (by omega), decide_eq_false (show ¬ (lo ≤ j + k ∧ j + k < lo + 2) by omega)]
    simp
  have covered : ∀ j k, (0xFC00000F#32).getLsbD (j + k) = true → (selectorMask 0xFC00000F#32 lo).getLsbD (j + k) = true := by
    intro j k h
    rw [selectorMask_getLsbD, h, Bool.true_or]
  unfold formatRRR
  simp only [or_and_mask]
  rw [place_and_covered 0x38#6 _ _ (fun k hk => covered 26 k (by revert k; decide)),
    place_and_apart (regBits rD) _ _ (fun k hk => apart 21 k (by omega) (by omega)),
    place_and_apart (regBits rA) _ _ (fun k hk => apart 16 k (by omega) (by omega)),
    place_and_apart (regBits rB) _ _ (fun k hk => apart 11 k (by omega) (by omega)),
    place_and_covered sel2 _ _ (fun k hk => by
      rw [selectorMask_getLsbD, decide_eq_true (show lo ≤ lo + k ∧ lo + k < lo + 2 by omega),
        decide_eq_true (show lo + k < 32 by omega)]
      simp),
    place_and_covered fn4 _ _ (fun k hk => covered 0 k (by revert k; decide))]
  simp

theorem formatRRI_masked (major : BitVec 6) (rD rA : Reg) (imm : Half) :
    formatRRI major rD rA imm &&& 0xFC000000#32 = place major 26 := by
  unfold formatRRI
  simp only [or_and_mask]
  rw [place_and_covered major _ _ (by decide),
    place_and_apart (regBits rD) _ _ (by decide),
    place_and_apart (regBits rA) _ _ (by decide),
    place_and_apart imm _ _ (by decide)]
  simp

theorem formatRI_masked (major : BitVec 6) (rD : Reg) (imm : Half) :
    formatRI major rD imm &&& 0xFC000000#32 = place major 26 := by
  unfold formatRI
  simp only [or_and_mask]
  rw [place_and_covered major _ _ (by decide),
    place_and_apart (regBits rD) _ _ (by decide),
    place_and_apart imm _ _ (by decide)]
  simp

theorem formatRSI_masked (major : BitVec 6) (rA rB : Reg) (imm : Half) :
    formatRSI major rA rB imm &&& 0xFC000000#32 = place major 26 := by
  unfold formatRSI
  simp only [or_and_mask]
  rw [place_and_covered major _ _ (by decide),
    place_and_apart (imm.extractLsb' 11 5) _ _ (by decide),
    place_and_apart (regBits rA) _ _ (by decide),
    place_and_apart (regBits rB) _ _ (by decide),
    place_and_apart (imm.extractLsb' 0 11) _ _ (by decide)]
  simp

theorem formatSF_masked (cond : BitVec 5) (rA rB : Reg) :
    formatSF cond rA rB &&& 0xFFE00000#32 = place 0x39#6 26 ||| place cond 21 := by
  unfold formatSF
  simp only [or_and_mask]
  rw [place_and_covered 0x39#6 _ _ (by decide),
    place_and_covered cond _ _ (by decide),
    place_and_apart (regBits rA) _ _ (by decide),
    place_and_apart (regBits rB) _ _ (by decide)]
  simp

theorem formatSFI_masked (cond : BitVec 5) (rA : Reg) (imm : Half) :
    formatSFI cond rA imm &&& 0xFFE00000#32 = place 0x2f#6 26 ||| place cond 21 := by
  unfold formatSFI
  simp only [or_and_mask]
  rw [place_and_covered 0x2f#6 _ _ (by decide),
    place_and_covered cond _ _ (by decide),
    place_and_apart (regBits rA) _ _ (by decide),
    place_and_apart imm _ _ (by decide)]
  simp

theorem formatSHI_masked (lo : Nat) (shsel : BitVec 2) (rD rA : Reg) (amount : Nat) (h6 : 6 ≤ lo) (h14 : lo ≤ 14) :
    formatSHI lo shsel rD rA amount &&& selectorMask 0xFC000000#32 lo = place 0x2e#6 26 ||| place shsel lo := by
  have apart : ∀ j k, j + k < 26 → (j + k < 6 ∨ 16 ≤ j + k) →
      (selectorMask 0xFC000000#32 lo).getLsbD (j + k) = false := by
    intro j k hk hj
    have h0 : ∀ m, m < 26 → (0xFC000000#32).getLsbD m = false := by decide
    rw [selectorMask_getLsbD, h0 _ hk, decide_eq_false (show ¬ (lo ≤ j + k ∧ j + k < lo + 2) by omega)]
    simp
  unfold formatSHI
  simp only [or_and_mask]
  rw [place_and_covered 0x2e#6 _ _ (fun k hk => by
      rw [selectorMask_getLsbD, show (0xFC000000#32).getLsbD (26 + k) = true by revert k; decide, Bool.true_or]),
    place_and_apart (regBits rD) _ _ (fun k hk => apart 21 k (by omega) (by omega)),
    place_and_apart (regBits rA) _ _ (fun k hk => apart 16 k (by omega) (by omega)),
    place_and_covered shsel _ _ (fun k hk => by
      rw [selectorMask_getLsbD, decide_eq_true (show lo ≤ lo + k ∧ lo + k < lo + 2 by omega),
        decide_eq_true (show lo + k < 32 by omega)]
      simp),
    place_and_apart (BitVec.ofNat 6 amount) _ _ (fun k hk => apart 0 k (by omega) (by omega))]
  simp

theorem formatNOP_masked (major : BitVec 6) (imm : Half) :
    formatNOP major imm &&& 0xFC000000#32 = place major 26 := by
  unfold formatNOP
  simp only [or_and_mask]
  rw [place_and_covered major _ _ (by decide),
    place_and_apart imm _ _ (by decide)]
  simp

theorem formatSYS_masked (opcode : BitVec 16) (imm : Half) :
    formatSYS opcode imm &&& 0xFFFF0000#32 = place opcode 16 := by
  unfold formatSYS
  simp only [or_and_mask]
  rw [place_and_covered opcode _ _ (by decide),
    place_and_apart imm _ _ (by decide)]
  simp

/-! ### The decoder -/

/-- If the decoder answers an instruction, a row of the opcode table selects the word and builds it; if it answers none,
no row selects the word (R101, R118). -/
theorem decodeWord_cases (e : Encoding) (w : Word) :
    (∃ r ∈ opcodeRows e, r.selects w = true ∧ decodeWord e w = .ok (r.build w)) ∨
      ((∀ r ∈ opcodeRows e, r.selects w = false) ∧ decodeWord e w = .error (rejectReason e w)) := by
  unfold decodeWord
  cases h : (opcodeRows e).find? (·.selects w) with
  | some r => exact .inl ⟨r, List.mem_of_find?_eq_some h, by simpa using List.find?_some h, rfl⟩
  | none => exact .inr ⟨by simpa using List.find?_eq_none.1 h, rfl⟩

/-- The bytes of a word, put together again, are the word (R64). -/
theorem wordOfBytes_bytesOfWord (w : Word) :
    wordOfBytes (field w 24 8) (field w 16 8) (field w 8 8) (field w 0 8) = w := by
  unfold wordOfBytes
  apply BitVec.eq_of_getLsbD_eq
  intro k hk
  rw [BitVec.getLsbD_append, BitVec.getLsbD_append, BitVec.getLsbD_append]
  simp only [field_getLsbD]
  split
  · next h => simp [h]
  · split
    · next h => simp [h, show 8 + (k - 8) = k by omega]
    · split
      · next h => simp [h, show 16 + (k - 8 - 8) = k by omega]
      · next h => simp [show k - 8 - 8 - 8 < 8 by omega, show 24 + (k - 8 - 8 - 8) = k by omega]

/-- Decoding the bytes of a word is decoding the word. -/
theorem decode_bytesOfWord (e : Encoding) (w : Word) (rest : List Byte) :
    decode e (bytesOfWord w ++ rest) =
      match decodeWord e w with
      | .ok i => .ok (i, rest)
      | .error r => .error r := by
  show (match decodeWord e (wordOfBytes (field w 24 8) (field w 16 8) (field w 8 8) (field w 0 8)) with
    | .ok i => Except.ok (i, rest)
    | .error r => .error r) = _
  rw [wordOfBytes_bytesOfWord]

end Sys2Proof
end

