-- ==== Sys2Proof/Laws/State.lean ====
section
/-! SUPPORT. One lemma for each field of a state after each update, so that no proof unfolds a record update. -/

namespace Sys2Proof.Machine

variable (s : State)

@[simp] theorem setReg_regs (i : Reg) (v : Word) : (s.setReg i v).regs = if s.platform.r0Zero = true ∧ i = 0 then s.regs else s.regs.set i v := rfl
@[simp] theorem setReg_pc (i : Reg) (v : Word) : (s.setReg i v).pc = s.pc := rfl
@[simp] theorem setReg_sr (i : Reg) (v : Word) : (s.setReg i v).sr = s.sr := rfl
@[simp] theorem setReg_epc (i : Reg) (v : Word) : (s.setReg i v).epc = s.epc := rfl
@[simp] theorem setReg_esr (i : Reg) (v : Word) : (s.setReg i v).esr = s.esr := rfl
@[simp] theorem setReg_nmiPending (i : Reg) (v : Word) : (s.setReg i v).nmiPending = s.nmiPending := rfl
@[simp] theorem setReg_mem (i : Reg) (v : Word) : (s.setReg i v).mem = s.mem := rfl
@[simp] theorem setReg_rst (i : Reg) (v : Word) : (s.setReg i v).rst = s.rst := rfl
@[simp] theorem setReg_intr (i : Reg) (v : Word) : (s.setReg i v).intr = s.intr := rfl
@[simp] theorem setReg_script (i : Reg) (v : Word) : (s.setReg i v).script = s.script := rfl
@[simp] theorem setReg_platform (i : Reg) (v : Word) : (s.setReg i v).platform = s.platform := rfl

@[simp] theorem jumpTo_regs (t : Word) : (s.jumpTo t).regs = s.regs := rfl
@[simp] theorem jumpTo_pc (t : Word) : (s.jumpTo t).pc = t := rfl
@[simp] theorem jumpTo_sr (t : Word) : (s.jumpTo t).sr = s.sr := rfl
@[simp] theorem jumpTo_epc (t : Word) : (s.jumpTo t).epc = s.epc := rfl
@[simp] theorem jumpTo_esr (t : Word) : (s.jumpTo t).esr = s.esr := rfl
@[simp] theorem jumpTo_nmiPending (t : Word) : (s.jumpTo t).nmiPending = s.nmiPending := rfl
@[simp] theorem jumpTo_mem (t : Word) : (s.jumpTo t).mem = s.mem := rfl
@[simp] theorem jumpTo_rst (t : Word) : (s.jumpTo t).rst = s.rst := rfl
@[simp] theorem jumpTo_intr (t : Word) : (s.jumpTo t).intr = s.intr := rfl
@[simp] theorem jumpTo_script (t : Word) : (s.jumpTo t).script = s.script := rfl
@[simp] theorem jumpTo_platform (t : Word) : (s.jumpTo t).platform = s.platform := rfl

@[simp] theorem advance_regs : (s.advance).regs = s.regs := rfl
@[simp] theorem advance_pc : (s.advance).pc = s.pc + 4#32 := rfl
@[simp] theorem advance_sr : (s.advance).sr = s.sr := rfl
@[simp] theorem advance_epc : (s.advance).epc = s.epc := rfl
@[simp] theorem advance_esr : (s.advance).esr = s.esr := rfl
@[simp] theorem advance_nmiPending : (s.advance).nmiPending = s.nmiPending := rfl
@[simp] theorem advance_mem : (s.advance).mem = s.mem := rfl
@[simp] theorem advance_rst : (s.advance).rst = s.rst := rfl
@[simp] theorem advance_intr : (s.advance).intr = s.intr := rfl
@[simp] theorem advance_script : (s.advance).script = s.script := rfl
@[simp] theorem advance_platform : (s.advance).platform = s.platform := rfl

@[simp] theorem link_regs : (s.link).regs = (s.setReg linkRegister (s.pc + 4#32)).regs := rfl
@[simp] theorem link_pc : (s.link).pc = s.pc := rfl
@[simp] theorem link_sr : (s.link).sr = s.sr := rfl
@[simp] theorem link_epc : (s.link).epc = s.epc := rfl
@[simp] theorem link_esr : (s.link).esr = s.esr := rfl
@[simp] theorem link_nmiPending : (s.link).nmiPending = s.nmiPending := rfl
@[simp] theorem link_mem : (s.link).mem = s.mem := rfl
@[simp] theorem link_rst : (s.link).rst = s.rst := rfl
@[simp] theorem link_intr : (s.link).intr = s.intr := rfl
@[simp] theorem link_script : (s.link).script = s.script := rfl
@[simp] theorem link_platform : (s.link).platform = s.platform := rfl

@[simp] theorem setF_regs (b : Bool) : (s.setF b).regs = s.regs := rfl
@[simp] theorem setF_pc (b : Bool) : (s.setF b).pc = s.pc := rfl
@[simp] theorem setF_sr (b : Bool) : (s.setF b).sr = withBit s.sr s.platform.statusBits.f b := rfl
@[simp] theorem setF_epc (b : Bool) : (s.setF b).epc = s.epc := rfl
@[simp] theorem setF_esr (b : Bool) : (s.setF b).esr = s.esr := rfl
@[simp] theorem setF_nmiPending (b : Bool) : (s.setF b).nmiPending = s.nmiPending := rfl
@[simp] theorem setF_mem (b : Bool) : (s.setF b).mem = s.mem := rfl
@[simp] theorem setF_rst (b : Bool) : (s.setF b).rst = s.rst := rfl
@[simp] theorem setF_intr (b : Bool) : (s.setF b).intr = s.intr := rfl
@[simp] theorem setF_script (b : Bool) : (s.setF b).script = s.script := rfl
@[simp] theorem setF_platform (b : Bool) : (s.setF b).platform = s.platform := rfl

@[simp] theorem setCY_regs (b : Bool) : (s.setCY b).regs = s.regs := rfl
@[simp] theorem setCY_pc (b : Bool) : (s.setCY b).pc = s.pc := rfl
@[simp] theorem setCY_sr (b : Bool) : (s.setCY b).sr = withBit s.sr s.platform.statusBits.cy b := rfl
@[simp] theorem setCY_epc (b : Bool) : (s.setCY b).epc = s.epc := rfl
@[simp] theorem setCY_esr (b : Bool) : (s.setCY b).esr = s.esr := rfl
@[simp] theorem setCY_nmiPending (b : Bool) : (s.setCY b).nmiPending = s.nmiPending := rfl
@[simp] theorem setCY_mem (b : Bool) : (s.setCY b).mem = s.mem := rfl
@[simp] theorem setCY_rst (b : Bool) : (s.setCY b).rst = s.rst := rfl
@[simp] theorem setCY_intr (b : Bool) : (s.setCY b).intr = s.intr := rfl
@[simp] theorem setCY_script (b : Bool) : (s.setCY b).script = s.script := rfl
@[simp] theorem setCY_platform (b : Bool) : (s.setCY b).platform = s.platform := rfl

@[simp] theorem putBytes_regs (a : Word) (bs : List Byte) : (s.putBytes a bs).regs = s.regs := rfl
@[simp] theorem putBytes_pc (a : Word) (bs : List Byte) : (s.putBytes a bs).pc = s.pc := rfl
@[simp] theorem putBytes_sr (a : Word) (bs : List Byte) : (s.putBytes a bs).sr = s.sr := rfl
@[simp] theorem putBytes_epc (a : Word) (bs : List Byte) : (s.putBytes a bs).epc = s.epc := rfl
@[simp] theorem putBytes_esr (a : Word) (bs : List Byte) : (s.putBytes a bs).esr = s.esr := rfl
@[simp] theorem putBytes_nmiPending (a : Word) (bs : List Byte) : (s.putBytes a bs).nmiPending = s.nmiPending := rfl
@[simp] theorem putBytes_mem (a : Word) (bs : List Byte) : (s.putBytes a bs).mem = Memory.putAll s.mem a bs := rfl
@[simp] theorem putBytes_rst (a : Word) (bs : List Byte) : (s.putBytes a bs).rst = s.rst := rfl
@[simp] theorem putBytes_intr (a : Word) (bs : List Byte) : (s.putBytes a bs).intr = s.intr := rfl
@[simp] theorem putBytes_script (a : Word) (bs : List Byte) : (s.putBytes a bs).script = s.script := rfl
@[simp] theorem putBytes_platform (a : Word) (bs : List Byte) : (s.putBytes a bs).platform = s.platform := rfl

@[simp] theorem memWrite1_regs (a : Word) (v : Byte) : (s.memWrite1 a v).regs = s.regs := rfl
@[simp] theorem memWrite1_pc (a : Word) (v : Byte) : (s.memWrite1 a v).pc = s.pc := rfl
@[simp] theorem memWrite1_sr (a : Word) (v : Byte) : (s.memWrite1 a v).sr = s.sr := rfl
@[simp] theorem memWrite1_epc (a : Word) (v : Byte) : (s.memWrite1 a v).epc = s.epc := rfl
@[simp] theorem memWrite1_esr (a : Word) (v : Byte) : (s.memWrite1 a v).esr = s.esr := rfl
@[simp] theorem memWrite1_nmiPending (a : Word) (v : Byte) : (s.memWrite1 a v).nmiPending = s.nmiPending := rfl
@[simp] theorem memWrite1_mem (a : Word) (v : Byte) : (s.memWrite1 a v).mem = Memory.putAll s.mem a [v] := rfl
@[simp] theorem memWrite1_rst (a : Word) (v : Byte) : (s.memWrite1 a v).rst = s.rst := rfl
@[simp] theorem memWrite1_intr (a : Word) (v : Byte) : (s.memWrite1 a v).intr = s.intr := rfl
@[simp] theorem memWrite1_script (a : Word) (v : Byte) : (s.memWrite1 a v).script = s.script := rfl
@[simp] theorem memWrite1_platform (a : Word) (v : Byte) : (s.memWrite1 a v).platform = s.platform := rfl

@[simp] theorem memWrite2_regs (a : Word) (v : Half) : (s.memWrite2 a v).regs = s.regs := rfl
@[simp] theorem memWrite2_pc (a : Word) (v : Half) : (s.memWrite2 a v).pc = s.pc := rfl
@[simp] theorem memWrite2_sr (a : Word) (v : Half) : (s.memWrite2 a v).sr = s.sr := rfl
@[simp] theorem memWrite2_epc (a : Word) (v : Half) : (s.memWrite2 a v).epc = s.epc := rfl
@[simp] theorem memWrite2_esr (a : Word) (v : Half) : (s.memWrite2 a v).esr = s.esr := rfl
@[simp] theorem memWrite2_nmiPending (a : Word) (v : Half) : (s.memWrite2 a v).nmiPending = s.nmiPending := rfl
@[simp] theorem memWrite2_mem (a : Word) (v : Half) : (s.memWrite2 a v).mem = Memory.putAll s.mem a (s.inMemoryOrder [v.extractLsb' 8 8, v.extractLsb' 0 8]) := rfl
@[simp] theorem memWrite2_rst (a : Word) (v : Half) : (s.memWrite2 a v).rst = s.rst := rfl
@[simp] theorem memWrite2_intr (a : Word) (v : Half) : (s.memWrite2 a v).intr = s.intr := rfl
@[simp] theorem memWrite2_script (a : Word) (v : Half) : (s.memWrite2 a v).script = s.script := rfl
@[simp] theorem memWrite2_platform (a : Word) (v : Half) : (s.memWrite2 a v).platform = s.platform := rfl

@[simp] theorem memWrite4_regs (a : Word) (v : Word) : (s.memWrite4 a v).regs = s.regs := rfl
@[simp] theorem memWrite4_pc (a : Word) (v : Word) : (s.memWrite4 a v).pc = s.pc := rfl
@[simp] theorem memWrite4_sr (a : Word) (v : Word) : (s.memWrite4 a v).sr = s.sr := rfl
@[simp] theorem memWrite4_epc (a : Word) (v : Word) : (s.memWrite4 a v).epc = s.epc := rfl
@[simp] theorem memWrite4_esr (a : Word) (v : Word) : (s.memWrite4 a v).esr = s.esr := rfl
@[simp] theorem memWrite4_nmiPending (a : Word) (v : Word) : (s.memWrite4 a v).nmiPending = s.nmiPending := rfl
@[simp] theorem memWrite4_mem (a : Word) (v : Word) : (s.memWrite4 a v).mem = Memory.putAll s.mem a (s.inMemoryOrder
      [v.extractLsb' 24 8, v.extractLsb' 16 8, v.extractLsb' 8 8, v.extractLsb' 0 8]) := rfl
@[simp] theorem memWrite4_rst (a : Word) (v : Word) : (s.memWrite4 a v).rst = s.rst := rfl
@[simp] theorem memWrite4_intr (a : Word) (v : Word) : (s.memWrite4 a v).intr = s.intr := rfl
@[simp] theorem memWrite4_script (a : Word) (v : Word) : (s.memWrite4 a v).script = s.script := rfl
@[simp] theorem memWrite4_platform (a : Word) (v : Word) : (s.memWrite4 a v).platform = s.platform := rfl

@[simp] theorem enter_regs (e : Exception) : (s.enter e).regs = s.regs := rfl
@[simp] theorem enter_pc (e : Exception) : (s.enter e).pc = vectorAddress s.platform e := rfl
@[simp] theorem enter_sr (e : Exception) : (s.enter e).sr = 0#32 := rfl
@[simp] theorem enter_epc (e : Exception) : (s.enter e).epc = returnAddress e s.pc := rfl
@[simp] theorem enter_esr (e : Exception) : (s.enter e).esr = s.sr := rfl
@[simp] theorem enter_nmiPending (e : Exception) : (s.enter e).nmiPending = s.nmiPending := rfl
@[simp] theorem enter_mem (e : Exception) : (s.enter e).mem = s.mem := rfl
@[simp] theorem enter_rst (e : Exception) : (s.enter e).rst = s.rst := rfl
@[simp] theorem enter_intr (e : Exception) : (s.enter e).intr = s.intr := rfl
@[simp] theorem enter_script (e : Exception) : (s.enter e).script = s.script := rfl
@[simp] theorem enter_platform (e : Exception) : (s.enter e).platform = s.platform := rfl

@[simp] theorem resetEntry_regs : (s.resetEntry).regs = resetRegisters := rfl
@[simp] theorem resetEntry_pc : (s.resetEntry).pc = vectorAddress s.platform .reset := rfl
@[simp] theorem resetEntry_sr : (s.resetEntry).sr = 0#32 := rfl
@[simp] theorem resetEntry_epc : (s.resetEntry).epc = 0#32 := rfl
@[simp] theorem resetEntry_esr : (s.resetEntry).esr = 0#32 := rfl
@[simp] theorem resetEntry_nmiPending : (s.resetEntry).nmiPending = false := rfl
@[simp] theorem resetEntry_mem : (s.resetEntry).mem = s.mem := rfl
@[simp] theorem resetEntry_rst : (s.resetEntry).rst = s.rst := rfl
@[simp] theorem resetEntry_intr : (s.resetEntry).intr = s.intr := rfl
@[simp] theorem resetEntry_script : (s.resetEntry).script = s.script := rfl
@[simp] theorem resetEntry_platform : (s.resetEntry).platform = s.platform := rfl

@[simp] theorem withFetchWord_regs (n w : Nat) : (s.withFetchWord n w).regs = s.regs := rfl
@[simp] theorem withFetchWord_pc (n w : Nat) : (s.withFetchWord n w).pc = s.pc := rfl
@[simp] theorem withFetchWord_sr (n w : Nat) : (s.withFetchWord n w).sr = s.sr := rfl
@[simp] theorem withFetchWord_epc (n w : Nat) : (s.withFetchWord n w).epc = s.epc := rfl
@[simp] theorem withFetchWord_esr (n w : Nat) : (s.withFetchWord n w).esr = s.esr := rfl
@[simp] theorem withFetchWord_nmiPending (n w : Nat) : (s.withFetchWord n w).nmiPending = s.nmiPending := rfl
@[simp] theorem withFetchWord_mem (n w : Nat) : (s.withFetchWord n w).mem = (s.memWrite4 s.pc (BitVec.ofNat 32 (w % 2 ^ n))).mem := rfl
@[simp] theorem withFetchWord_rst (n w : Nat) : (s.withFetchWord n w).rst = s.rst := rfl
@[simp] theorem withFetchWord_intr (n w : Nat) : (s.withFetchWord n w).intr = s.intr := rfl
@[simp] theorem withFetchWord_script (n w : Nat) : (s.withFetchWord n w).script = s.script := rfl
@[simp] theorem withFetchWord_platform (n w : Nat) : (s.withFetchWord n w).platform = s.platform := rfl

end Sys2Proof.Machine
end

