-- ==== Sys2Proof/Laws/Memory.lean ====
section
/-! SUPPORT. The laws of memory: what a byte reads as after a write, and that every operation keeps the canonical form. -/

namespace Sys2Proof.Machine

theorem byteAt_nil (a : Nat) : Memory.byteAt [] a = unlistedByte := rfl

theorem byteAt_cons (k : Nat) (b : Byte) (m : Memory) (a : Nat) :
    Memory.byteAt ((k, b) :: m) a = if k = a then b else Memory.byteAt m a := rfl

/-- An address below every listed one is unlisted. -/
theorem byteAt_of_lt (m : Memory) (a : Nat) (h : ∀ c ∈ m, a < c.1) : Memory.byteAt m a = unlistedByte := by
  induction m with
  | nil => rfl
  | cons c m ih =>
    obtain ⟨k, b⟩ := c
    have hk : a < k := h _ (List.mem_cons_self ..)
    rw [byteAt_cons, if_neg (by omega), ih fun c hc => h c (List.mem_cons_of_mem _ hc)]

/-- A write leaves every other address alone. -/
theorem byteAt_put_ne (m : Memory) (a x : Nat) (b : Byte) (h : x ≠ a) :
    Memory.byteAt (Memory.put m a b) x = Memory.byteAt m x := by
  induction m with
  | nil => unfold Memory.put; split <;> simp [byteAt_cons, byteAt_nil, Ne.symm h]
  | cons c m ih =>
    obtain ⟨k, c⟩ := c
    unfold Memory.put
    split
    · split <;> simp [byteAt_cons, Ne.symm h]
    · split
      · next hk => subst hk; split <;> simp [byteAt_cons, Ne.symm h]
      · simp [byteAt_cons, ih]

/-- A read of the address just written gives the byte written. -/
theorem byteAt_put_self (m : Memory) (a : Nat) (b : Byte) (h : Memory.wf m) :
    Memory.byteAt (Memory.put m a b) a = b := by
  induction m with
  | nil => unfold Memory.put; split <;> simp_all [byteAt_cons, byteAt_nil]
  | cons c m ih =>
    obtain ⟨k, c⟩ := c
    obtain ⟨hp, hb⟩ := h
    rw [List.pairwise_cons] at hp
    have hm : Memory.wf m := ⟨hp.2, fun x hx => hb x (List.mem_cons_of_mem _ hx)⟩
    unfold Memory.put
    split
    · next hlt =>
      split
      · next hz =>
        rw [hz]
        refine byteAt_of_lt _ _ fun x hx => ?_
        rcases List.mem_cons.1 hx with rfl | hx
        · exact hlt
        · exact Nat.lt_trans hlt (hp.1 x hx)
      · simp [byteAt_cons]
    · split
      · next hk =>
        split
        · next hz => rw [hz]; exact byteAt_of_lt _ _ fun x hx => hk ▸ hp.1 x hx
        · simp [byteAt_cons]
      · next hk => rw [byteAt_cons, if_neg (Ne.symm hk), ih hm]

/-- Every address of the memory after a write was listed before it or is the address written. -/
theorem mem_put (m : Memory) (a : Nat) (b : Byte) (c : Host.Cell) (h : c ∈ Memory.put m a b) :
    c ∈ m ∨ (c = (a, b) ∧ b ≠ unlistedByte) := by
  induction m with
  | nil => unfold Memory.put at h; split at h <;> simp_all
  | cons d m ih =>
    obtain ⟨k, d⟩ := d
    unfold Memory.put at h
    split at h
    · split at h
      · exact .inl h
      · next hz => rcases List.mem_cons.1 h with rfl | h
                   · exact .inr ⟨rfl, hz⟩
                   · exact .inl h
    · split at h
      · split at h
        · exact .inl (List.mem_cons_of_mem _ h)
        · next hz => rcases List.mem_cons.1 h with rfl | h
                     · exact .inr ⟨rfl, hz⟩
                     · exact .inl (List.mem_cons_of_mem _ h)
      · rcases List.mem_cons.1 h with rfl | h
        · exact .inl (List.mem_cons_self ..)
        · exact (ih h).imp_left (List.mem_cons_of_mem _)

/-- A write keeps the canonical form. -/
theorem put_wf (m : Memory) (a : Nat) (b : Byte) (h : Memory.wf m) (ha : a < 2 ^ 32) : Memory.wf (Memory.put m a b) := by
  refine ⟨?_, fun c hc => ?_⟩
  · obtain ⟨hp, -⟩ := h
    induction m with
    | nil => unfold Memory.put; split <;> simp
    | cons c m ih =>
      obtain ⟨k, c⟩ := c
      have hq := hp
      rw [List.pairwise_cons] at hq
      unfold Memory.put
      split
      · next hlt =>
        split
        · exact hp
        · refine List.pairwise_cons.2 ⟨fun x hx => ?_, hp⟩
          rcases List.mem_cons.1 hx with rfl | hx
          · exact hlt
          · exact Nat.lt_trans hlt (hq.1 x hx)
      · split
        · next hk =>
          split
          · exact hq.2
          · exact List.pairwise_cons.2 ⟨fun x hx => hk ▸ hq.1 x hx, hq.2⟩
        · refine List.pairwise_cons.2 ⟨fun x hx => ?_, ih hq.2⟩
          rcases mem_put _ _ _ _ hx with hx | ⟨rfl, -⟩
          · exact hq.1 x hx
          · show k < a; omega
  · rcases mem_put _ _ _ _ hc with hc | ⟨rfl, hb⟩
    · exact h.2 c hc
    · exact ⟨ha, hb⟩

/-- Writing any number of bytes keeps the canonical form. -/
theorem putAll_wf (m : Memory) (a : Word) (bs : List Byte) (h : Memory.wf m) : Memory.wf (Memory.putAll m a bs) := by
  induction bs generalizing m a with
  | nil => exact h
  | cons b bs ih => exact ih _ _ (put_wf _ _ _ h a.isLt)

/-- Writing bytes leaves every address alone that none of them goes to. -/
theorem byteAt_putAll_outside (m : Memory) (a x : Word) (bs : List Byte)
    (h : ∀ k, k < bs.length → x ≠ a + BitVec.ofNat 32 k) :
    Memory.byteAt (Memory.putAll m a bs) x.toNat = Memory.byteAt m x.toNat := by
  induction bs generalizing m a with
  | nil => rfl
  | cons b bs ih =>
    have h0 : x ≠ a := by simpa using h 0 (by simp)
    rw [Memory.putAll, ih, byteAt_put_ne _ _ _ _ fun hx => h0 (BitVec.eq_of_toNat_eq hx)]
    intro k hk hx
    refine h (k + 1) (by simpa using hk) ?_
    rw [hx, BitVec.add_assoc]
    congr 1
    apply BitVec.eq_of_toNat_eq
    simp [Nat.add_comm]

/-- Of the bytes written, the one at offset `k` reads back. -/
theorem byteAt_putAll_inside (m : Memory) (a : Word) (bs : List Byte) (h : Memory.wf m) (hn : bs.length ≤ 2 ^ 32)
    (k : Nat) (hk : k < bs.length) :
    Memory.byteAt (Memory.putAll m a bs) (a + BitVec.ofNat 32 k).toNat = bs[k] := by
  induction bs generalizing m a k with
  | nil => simp at hk
  | cons b bs ih =>
    have hw := put_wf m a.toNat b h a.isLt
    rw [List.length_cons] at hn hk
    cases k with
    | zero =>
      rw [Memory.putAll, byteAt_putAll_outside]
      · simpa using byteAt_put_self m a.toNat b h
      · intro j hj e
        have := congrArg BitVec.toNat e
        have hlt := a.isLt
        simp only [BitVec.toNat_add, BitVec.toNat_ofNat] at this
        omega
    | succ k =>
      have := ih (Memory.put m a.toNat b) (a + 1#32) hw (by omega) k (by omega)
      rw [Memory.putAll, List.getElem_cons_succ, ← this]
      congr 2
      rw [BitVec.add_assoc]
      congr 1
      apply BitVec.eq_of_toNat_eq
      simp [Nat.add_comm]

/-- Canonical memories that read alike are equal. -/
theorem wf_ext (m n : Memory) (hm : Memory.wf m) (hn : Memory.wf n)
    (h : ∀ a, Memory.byteAt m a = Memory.byteAt n a) : m = n := by
  induction m generalizing n with
  | nil =>
    cases n with
    | nil => rfl
    | cons d n =>
      have := h d.1
      rw [byteAt_nil, byteAt_cons, if_pos rfl] at this
      exact absurd this.symm (hn.2 d (List.mem_cons_self ..)).2
  | cons c m ih =>
    obtain ⟨k, b⟩ := c
    have pm := List.pairwise_cons.1 hm.1
    have wm : Memory.wf m := ⟨pm.2, fun x hx => hm.2 x (List.mem_cons_of_mem _ hx)⟩
    have hb := (hm.2 _ (List.mem_cons_self ..)).2
    cases n with
    | nil =>
      have := h k
      rw [byteAt_nil, byteAt_cons, if_pos rfl] at this
      exact absurd this hb
    | cons d n =>
      obtain ⟨l, d⟩ := d
      have pn := List.pairwise_cons.1 hn.1
      have wn : Memory.wf n := ⟨pn.2, fun x hx => hn.2 x (List.mem_cons_of_mem _ hx)⟩
      have hd := (hn.2 _ (List.mem_cons_self ..)).2
      have below : ∀ {p : Memory} {q : Nat}, (∀ c ∈ p, q < c.1) → ∀ r, r ≤ q → Memory.byteAt p r = unlistedByte :=
        fun hp r hr => byteAt_of_lt _ _ fun x hx => Nat.lt_of_le_of_lt hr (hp x hx)
      have hkl : k = l := by
        rcases Nat.lt_trichotomy k l with hlt | he | hlt
        · have := h k
          rw [byteAt_cons, if_pos rfl, byteAt_cons, if_neg (by omega), below pn.1 k (by omega)] at this
          exact absurd this hb
        · exact he
        · have := h l
          rw [byteAt_cons, if_neg (by omega), below pm.1 l (by omega), byteAt_cons, if_pos rfl] at this
          exact absurd this.symm hd
      subst hkl
      have hbd : b = d := by simpa [byteAt_cons] using h k
      subst hbd
      congr 1
      refine ih n wm wn fun a => ?_
      by_cases ha : k = a
      · subst ha; rw [below pm.1 _ (Nat.le_refl _), below pn.1 _ (Nat.le_refl _)]
      · simpa [byteAt_cons, ha] using h a

end Sys2Proof.Machine
end

