-- ==== Sys2Proof/Laws/Ops.lean ====
section
/-! SUPPORT. One lemma for each shared operation that says what it does, so that no proof unfolds it: the status bits, the
registers, memory accesses, the checks before them, the special registers and the exceptions. -/

namespace Sys2Proof.Machine

/-! ### Bits of the status register -/

/-- Writing bit `n` of a word: bit `n` is the one written, every other bit is as before. -/
theorem withBit_getLsbD (w : Word) (n k : Nat) (b : Bool) (hn : n < 32) :
    (withBit w n b).getLsbD k = if k = n then b else w.getLsbD k := by
  have h1 : (1#32 <<< n).getLsbD k = decide (k = n) := by
    rw [BitVec.getLsbD_shiftLeft, BitVec.getLsbD_one]
    by_cases h : k = n
    · subst h; simp [hn]
    · by_cases hlt : k < n
      · simp [h, hlt]
      · have : ¬ k - n = 0 := by omega
        simp [h, this]
  unfold withBit
  cases b with
  | true =>
    rw [if_pos rfl, BitVec.getLsbD_or, h1]
    by_cases h : k = n <;> simp only [h, decide_true, decide_false, Bool.or_true, Bool.or_false, if_true, if_false]
  | false =>
    rw [if_neg Bool.false_ne_true, BitVec.getLsbD_and, BitVec.getLsbD_not, h1]
    by_cases h : k = n
    · simp only [h, decide_true, Bool.not_true, Bool.and_false, if_true]
    · by_cases hk : k < 32
      · simp only [h, hk, decide_true, decide_false, Bool.not_false, Bool.and_true, if_false]
      · simp only [h, BitVec.getLsbD_of_ge _ _ (Nat.le_of_not_lt hk), Bool.false_and, if_false]

@[simp] theorem flagF_setF (s : State) (b : Bool) : (s.setF b).flagF = b := by
  rw [State.flagF, setF_sr, setF_platform, withBit_getLsbD _ _ _ _ (Fin.isLt _), if_pos rfl]

@[simp] theorem flagCY_setCY (s : State) (b : Bool) : (s.setCY b).flagCY = b := by
  rw [State.flagCY, setCY_sr, setCY_platform, withBit_getLsbD _ _ _ _ (Fin.isLt _), if_pos rfl]

/-- The three fields of SR are three bits, each below 32 (R30). -/
theorem statusBits_ne {b : StatusBits} (h : b.wellFormed = true) :
    b.iee.val ≠ b.f.val ∧ b.iee.val ≠ b.cy.val ∧ b.f.val ≠ b.cy.val := by
  have h' : b.iee ≠ b.f ∧ b.iee ≠ b.cy ∧ b.f ≠ b.cy := of_decide_eq_true h
  exact ⟨Fin.val_ne_of_ne h'.1, Fin.val_ne_of_ne h'.2.1, Fin.val_ne_of_ne h'.2.2⟩

/-- A write of SR.F leaves SR.CY and SR.IEE alone (R31), the three being three bits. -/
theorem flags_setF (s : State) (b : Bool) (h : s.platform.statusBits.wellFormed = true) :
    (s.setF b).flagCY = s.flagCY ∧ (s.setF b).flagIEE = s.flagIEE := by
  obtain ⟨h1, -, h3⟩ := statusBits_ne h
  constructor
  · rw [State.flagCY, setF_sr, setF_platform, withBit_getLsbD _ _ _ _ (Fin.isLt _), if_neg h3.symm]; rfl
  · rw [State.flagIEE, setF_sr, setF_platform, withBit_getLsbD _ _ _ _ (Fin.isLt _), if_neg h1]; rfl

/-- A write of SR.CY leaves SR.F and SR.IEE alone (R32), the three being three bits. -/
theorem flags_setCY (s : State) (b : Bool) (h : s.platform.statusBits.wellFormed = true) :
    (s.setCY b).flagF = s.flagF ∧ (s.setCY b).flagIEE = s.flagIEE := by
  obtain ⟨-, h2, h3⟩ := statusBits_ne h
  constructor
  · rw [State.flagF, setCY_sr, setCY_platform, withBit_getLsbD _ _ _ _ (Fin.isLt _), if_neg h3]; rfl
  · rw [State.flagIEE, setCY_sr, setCY_platform, withBit_getLsbD _ _ _ _ (Fin.isLt _), if_neg h2]; rfl

/-- A state with the same SR on the same platform has the same flags. -/
theorem flags_of_sr {s t : State} (h : t.sr = s.sr) (hp : t.platform = s.platform) :
    t.flagF = s.flagF ∧ t.flagCY = s.flagCY ∧ t.flagIEE = s.flagIEE := by
  simp [State.flagF, State.flagCY, State.flagIEE, h, hp]

/-- `setF` writes one bit of SR. -/
theorem setF_keepsOther (s : State) (b : Bool) (k : Nat) (h : k ≠ s.platform.statusBits.f) :
    (s.setF b).sr.getLsbD k = s.sr.getLsbD k := by
  rw [setF_sr, withBit_getLsbD _ _ _ _ (Fin.isLt _), if_neg h]

/-- `setCY` writes one bit of SR. -/
theorem setCY_keepsOther (s : State) (b : Bool) (k : Nat) (h : k ≠ s.platform.statusBits.cy) :
    (s.setCY b).sr.getLsbD k = s.sr.getLsbD k := by
  rw [setCY_sr, withBit_getLsbD _ _ _ _ (Fin.isLt _), if_neg h]

/-- The bits of `namedBits` (R30). -/
theorem namedBits_getLsbD (b : StatusBits) (k : Nat) :
    (namedBits b).getLsbD k = decide (k = b.iee.val ∨ k = b.f.val ∨ k = b.cy.val) := by
  have one : ∀ n : Fin 32, (1#32 <<< n.val).getLsbD k = decide (k = n.val) := by
    intro n
    have := withBit_getLsbD 0#32 n.val k true n.isLt
    rw [withBit, if_pos rfl, BitVec.zero_or, BitVec.getLsbD_zero] at this
    rw [this]; by_cases h : k = n.val <;> simp [h]
  rw [namedBits, BitVec.getLsbD_or, BitVec.getLsbD_or, one, one, one]
  simp only [Bool.decide_or, Bool.or_assoc]

/-- No reserved bit is set exactly if every bit but IEE, F and CY is clear (R34). -/
theorem hasReservedBits_eq_false_iff (b : StatusBits) (v : Word) :
    hasReservedBits b v = false ↔
      ∀ k, v.getLsbD k = true → k = b.iee.val ∨ k = b.f.val ∨ k = b.cy.val := by
  have h0 : hasReservedBits b v = false ↔ v &&& ~~~namedBits b = 0#32 := by simp [hasReservedBits]
  rw [h0]
  constructor
  · intro h k hv
    have hk : k < 32 := BitVec.lt_of_getLsbD hv
    have := congrArg (BitVec.getLsbD · k) h
    simp only [BitVec.getLsbD_and, BitVec.getLsbD_not, namedBits_getLsbD, hv, hk, decide_true, Bool.true_and,
      BitVec.getLsbD_zero] at this
    by_contra hc
    rw [decide_eq_false hc] at this
    cases this
  · intro h
    apply BitVec.eq_of_getLsbD_eq
    intro k _
    rw [BitVec.getLsbD_and, BitVec.getLsbD_not, namedBits_getLsbD, BitVec.getLsbD_zero]
    cases hv : v.getLsbD k with
    | false => rfl
    | true => rw [decide_eq_true (h k hv)]; simp

/-- Writing a flag sets no reserved bit. -/
theorem hasReservedBits_withBit (b : StatusBits) (v : Word) (n : Fin 32) (x : Bool)
    (hn : n = b.iee ∨ n = b.f ∨ n = b.cy) (h : hasReservedBits b v = false) :
    hasReservedBits b (withBit v n x) = false := by
  rw [hasReservedBits_eq_false_iff] at h ⊢
  intro k hk
  rw [withBit_getLsbD _ _ _ _ n.isLt] at hk
  by_cases e : k = n.val
  · rcases hn with rfl | rfl | rfl <;> simp [e]
  · rw [if_neg e] at hk; exact h k hk

/-! ### Registers -/

/-- What every register reads after `x[i] <- v` (R22, R23). -/
theorem reg_setReg (s : State) (i r : Reg) (v : Word) :
    (s.setReg i v).reg r = if s.platform.r0Zero = true ∧ r = 0 then 0#32 else if r = i then v else s.reg r := by
  by_cases hz : s.platform.r0Zero = true ∧ r = 0
  · simp [State.reg, hz]
  · rw [if_neg hz]
    have hr : (s.setReg i v).reg r = (s.setReg i v).regs[r] := by
      unfold State.reg; rw [setReg_platform, if_neg hz]
    rw [hr, setReg_regs]
    by_cases hi : s.platform.r0Zero = true ∧ i = 0
    · have hne : ¬ r = i := fun e => hz ⟨hi.1, e.trans hi.2⟩
      rw [if_pos hi, if_neg hne]
      unfold State.reg; rw [if_neg hz]
    · rw [if_neg hi]
      by_cases he : r = i
      · subst he; simp
      · have : ¬ i.val = r.val := fun e => he (Fin.ext e.symm)
        rw [if_neg he]
        unfold State.reg; rw [if_neg hz]
        simp [this]

/-- Registers read the same in states that hold the same registers on the same platform. -/
theorem reg_congr {s t : State} (hr : t.regs = s.regs) (hp : t.platform = s.platform) (r : Reg) : t.reg r = s.reg r := by
  simp [State.reg, hr, hp]

@[simp] theorem reg_jumpTo (s : State) (t : Word) (r : Reg) : (s.jumpTo t).reg r = s.reg r := rfl
@[simp] theorem reg_advance (s : State) (r : Reg) : s.advance.reg r = s.reg r := rfl
@[simp] theorem reg_setF (s : State) (b : Bool) (r : Reg) : (s.setF b).reg r = s.reg r := rfl
@[simp] theorem reg_setCY (s : State) (b : Bool) (r : Reg) : (s.setCY b).reg r = s.reg r := rfl
@[simp] theorem reg_putBytes (s : State) (a : Word) (bs : List Byte) (r : Reg) : (s.putBytes a bs).reg r = s.reg r := rfl
@[simp] theorem reg_memWrite1 (s : State) (a : Word) (v : Byte) (r : Reg) : (s.memWrite1 a v).reg r = s.reg r := rfl
@[simp] theorem reg_memWrite2 (s : State) (a : Word) (v : Half) (r : Reg) : (s.memWrite2 a v).reg r = s.reg r := rfl
@[simp] theorem reg_memWrite4 (s : State) (a : Word) (v : Word) (r : Reg) : (s.memWrite4 a v).reg r = s.reg r := rfl
@[simp] theorem reg_enter (s : State) (e : Exception) (r : Reg) : (s.enter e).reg r = s.reg r := rfl

/-! ### Memory through the state -/

/-- A byte reads the same in states that hold the same memory. -/
theorem memRead1_congr {s t : State} (h : t.mem = s.mem) (a : Word) : t.memRead1 a = s.memRead1 a := by
  simp [State.memRead1, h]

/-- Half words and words read the same in states that hold the same memory on the same platform. -/
theorem memRead_congr {s t : State} (h : t.mem = s.mem) (hp : t.platform = s.platform) (a : Word) :
    t.memRead2 a = s.memRead2 a ∧ t.memRead4 a = s.memRead4 a := by
  simp [State.memRead2, State.memRead4, State.memRead1, h, hp]

@[simp] theorem inMemoryOrder_length (s : State) (bs : List Byte) : (s.inMemoryOrder bs).length = bs.length := by
  unfold State.inMemoryOrder; split <;> simp

/-- Bytes written leave every other byte alone. -/
theorem memRead1_putBytes_outside (s : State) (a b : Word) (bs : List Byte)
    (h : ∀ k, k < bs.length → b ≠ a + BitVec.ofNat 32 k) : (s.putBytes a bs).memRead1 b = s.memRead1 b :=
  byteAt_putAll_outside s.mem a b bs h

/-- Bytes written read back. -/
theorem memRead1_putBytes_inside (s : State) (a : Word) (bs : List Byte) (hw : Memory.wf s.mem)
    (hn : bs.length ≤ 2 ^ 32) (k : Nat) (hk : k < bs.length) :
    (s.putBytes a bs).memRead1 (a + BitVec.ofNat 32 k) = bs[k] :=
  byteAt_putAll_inside s.mem a bs hw hn k hk

/-- Every store operation keeps memory canonical. -/
theorem memWrite_wf (s : State) (a : Word) (v1 : Byte) (v2 : Half) (v4 : Word) (h : Memory.wf s.mem) :
    Memory.wf (s.memWrite1 a v1).mem ∧ Memory.wf (s.memWrite2 a v2).mem ∧ Memory.wf (s.memWrite4 a v4).mem :=
  ⟨putAll_wf _ _ _ h, putAll_wf _ _ _ h, putAll_wf _ _ _ h⟩

/-- Memory right after reset is canonical. -/
theorem reset_mem_wf : Memory.wf State.reset.mem := ⟨List.Pairwise.nil, fun _ h => absurd h List.not_mem_nil⟩

/-! ### Checks before an access -/

/-- A one-byte access is never misaligned (R66). -/
@[simp] theorem misaligned_one (a : Word) : misaligned a 1 = false := by simp [misaligned, Nat.mod_one]

/-- An access is not misaligned exactly if its address is a multiple of its width (R66). -/
theorem misaligned_eq_false_iff (a : Word) (n : Nat) : misaligned a n = false ↔ a.toNat % n = 0 := by
  simp [misaligned]

/-- A data access is refused exactly if it is misaligned and MISALIGNED_DATA says so (log entry 31). -/
theorem refusesAccess_eq_true_iff (s : State) (a : Word) (n : Nat) :
    s.refusesAccess a n = true ↔ s.platform.misalignedData = .refuse ∧ a.toNat % n ≠ 0 := by
  simp [State.refusesAccess, misaligned, and_comm]

/-- When a data access that is not refused is erroneous (R66, R67). -/
theorem erroneous_eq_true_iff (s : State) (a : Word) (n : Nat) (k : AccessKind) (h : s.refusesAccess a n = false) :
    s.erroneous a n k = true ↔
      (s.platform.misalignedData = .busError ∧ a.toNat % n ≠ 0) ∨ s.busFaultAt a n k = true := by
  unfold State.erroneous
  cases hp : s.platform.misalignedData with
  | refuse =>
    have : misaligned a n = false := by simpa [State.refusesAccess, hp] using h
    simp [this]
  | busError => simp [misaligned]
  | truncate => simp
  | split => simp

/-- A refused data access is not erroneous. -/
theorem erroneous_of_refused (s : State) (a : Word) (n : Nat) (k : AccessKind) (h : s.refusesAccess a n = true) :
    s.erroneous a n k = false := by
  obtain ⟨hp, hm⟩ := (refusesAccess_eq_true_iff ..).1 h
  simp [State.erroneous, hp, misaligned, hm]

/-- Where MISALIGNED_DATA is not truncation, a data access is made at EA itself (R220). -/
theorem dataAddress_of_ne_truncate (s : State) (rA : Reg) (imm : Half) (n : Nat)
    (h : s.platform.misalignedData ≠ .truncate) : s.dataAddress rA imm n = s.effectiveAddress rA imm := by
  unfold State.dataAddress
  cases hp : s.platform.misalignedData with
  | truncate => exact absurd hp h
  | busError => rfl
  | refuse => rfl
  | split => rfl

/-- An address with its low bits cleared is a multiple. -/
theorem alignedDown_mod (a : Word) (n : Nat) : (alignedDown a n).toNat % n = 0 := by
  have h1 : a.toNat % n ≤ a.toNat := Nat.mod_le _ _
  have h2 := a.isLt
  have h3 : (alignedDown a n).toNat = a.toNat - a.toNat % n := by
    unfold alignedDown
    rw [BitVec.toNat_sub, BitVec.toNat_ofNat, Nat.mod_eq_of_lt (show a.toNat % n < 2 ^ 32 by omega)]
    omega
  rw [h3, Nat.sub_mod_eq_zero_of_mod_eq (Nat.mod_mod _ _).symm]

/-- A one-byte access touches one mapped address. -/
theorem mappedSpan_one (s : State) (a : Word) : s.mappedSpan a 1 = s.mappedAt a := by
  simp [State.mappedSpan]

/-! ### Special registers and the return from an exception -/

/-- What reading a special register can give (R40), the three numbers being three. -/
theorem readSpr_cases (s : State) (n : Word) (hp : s.platform.sprNumbers.wellFormed = true) :
    (n = s.platform.sprNumbers.sr ∧ s.readSpr n = some s.sr) ∨ (n = s.platform.sprNumbers.epc ∧ s.readSpr n = some s.epc) ∨
      (n = s.platform.sprNumbers.esr ∧ s.readSpr n = some s.esr) ∨
      (n ≠ s.platform.sprNumbers.sr ∧ n ≠ s.platform.sprNumbers.epc ∧ n ≠ s.platform.sprNumbers.esr ∧
        s.readSpr n = none) := by
  obtain ⟨h12, h13, h23⟩ : s.platform.sprNumbers.sr ≠ s.platform.sprNumbers.epc ∧
    s.platform.sprNumbers.sr ≠ s.platform.sprNumbers.esr ∧
      s.platform.sprNumbers.epc ≠ s.platform.sprNumbers.esr := of_decide_eq_true hp
  unfold State.readSpr
  by_cases h1 : n = s.platform.sprNumbers.sr
  · simp [h1]
  · by_cases h2 : n = s.platform.sprNumbers.epc
    · simp [h2, h12.symm]
    · by_cases h3 : n = s.platform.sprNumbers.esr
      · simp [h3, h13.symm, h23.symm]
      · simp [h1, h2, h3]

/-- If a write of a special register answers a next state, it wrote SR, EPC or ESR, a value of SR or ESR without reserved
bits, and fell through (R34, R40). -/
theorem writeSpr_next {s t : State} {n v : Word} (h : s.writeSpr n v = .next t) :
    (n = s.platform.sprNumbers.sr ∧ hasReservedBits s.platform.statusBits v = false ∧ t = { s with sr := v }.advance) ∨
      (n = s.platform.sprNumbers.epc ∧ t = { s with epc := v }.advance) ∨
      (n = s.platform.sprNumbers.esr ∧ hasReservedBits s.platform.statusBits v = false ∧
        t = { s with esr := v }.advance) := by
  unfold State.writeSpr at h
  split at h
  · split at h
    · cases h
    · next hr => exact .inl ⟨‹_›, by simpa using hr, by cases h; rfl⟩
  · split at h
    · exact .inr (.inl ⟨‹_›, by cases h; rfl⟩)
    · split at h
      · split at h
        · cases h
        · next hr => exact .inr (.inr ⟨‹_›, by simpa using hr, by cases h; rfl⟩)
      · cases h

/-- If a return from exception answers a next state, ESR had no reserved bit, and `pc` and SR are EPC and ESR (R283). -/
theorem returnFromException_next {s t : State} (h : s.returnFromException = .next t) :
    hasReservedBits s.platform.statusBits s.esr = false ∧ t = { s with pc := s.epc, sr := s.esr } := by
  unfold State.returnFromException at h
  split at h
  · cases h
  · next hr => exact ⟨by simpa using hr, by cases h; rfl⟩

/-! ### Exceptions -/

/-- What taking an exception writes (R261, R270, R310). -/
theorem takeException_fields (s : State) (e : Exception) :
    (s.takeException e).epc = returnAddress e s.pc ∧
      (s.takeException e).esr = (if e = .reset then 0#32 else s.sr) ∧
      (s.takeException e).sr = 0#32 ∧
      (s.takeException e).pc = vectorAddress s.platform e ∧
      (s.takeException e).nmiPending = (if e = .reset ∨ e = .nonMaskableInterrupt then false else s.nmiPending) ∧
      (s.takeException e).regs = (if e = .reset then resetRegisters else s.regs) := by
  cases e <;> simp [State.takeException, returnAddress]

/-- What taking an exception leaves alone. -/
theorem takeException_keeps (s : State) (e : Exception) :
    (s.takeException e).mem = s.mem ∧ (s.takeException e).rst = s.rst ∧ (s.takeException e).intr = s.intr ∧
      (s.takeException e).script = s.script ∧ (s.takeException e).platform = s.platform := by
  cases e <;> simp [State.takeException]

/-! ### The shared meanings of loads and stores -/

/-- What a load can do: the refusal of a misaligned access, the bus error, the load, or the fault of an address without
memory. -/
theorem loadInto_cases (n : Nat) (read : State → Word → Word) (rD rA : Reg) (imm : Half) (s : State) :
    let a := s.dataAddress rA imm n
    (s.refusesAccess a n = true ∧ loadInto n read rD rA imm s = .refused (.misalignedAccess a)) ∨
      (s.refusesAccess a n = false ∧ s.erroneous a n .load = true ∧
        loadInto n read rD rA imm s = .next (s.takeException .busError)) ∨
      (s.refusesAccess a n = false ∧ s.erroneous a n .load = false ∧ s.mappedSpan a n = true ∧
        loadInto n read rD rA imm s = .next (s.setReg rD (read s a)).advance) ∨
      (s.refusesAccess a n = false ∧ s.erroneous a n .load = false ∧ s.mappedSpan a n = false ∧
        loadInto n read rD rA imm s = .fault (.unmapped .load a)) := by
  intro a
  cases h0 : s.refusesAccess a n <;> cases h1 : s.erroneous a n .load <;> cases h2 : s.mappedSpan a n <;>
    simp [loadInto, a, h0, h1, h2]

/-- What a store can do: the refusal of a misaligned access, the bus error, the store, or the fault of an address without
memory. -/
theorem storeFrom_cases (n : Nat) (write : State → Word → Word → State) (rA rB : Reg) (imm : Half) (s : State) :
    let a := s.dataAddress rA imm n
    (s.refusesAccess a n = true ∧ storeFrom n write rA rB imm s = .refused (.misalignedAccess a)) ∨
      (s.refusesAccess a n = false ∧ s.erroneous a n .store = true ∧
        storeFrom n write rA rB imm s = .next (s.takeException .busError)) ∨
      (s.refusesAccess a n = false ∧ s.erroneous a n .store = false ∧ s.mappedSpan a n = true ∧
        storeFrom n write rA rB imm s = .next (write s a (s.reg rB)).advance) ∨
      (s.refusesAccess a n = false ∧ s.erroneous a n .store = false ∧ s.mappedSpan a n = false ∧
        storeFrom n write rA rB imm s = .fault (.unmapped .store a)) := by
  intro a
  cases h0 : s.refusesAccess a n <;> cases h1 : s.erroneous a n .store <;> cases h2 : s.mappedSpan a n <;>
    simp [storeFrom, a, h0, h1, h2]

/-! ### The environment -/

/-- No move of the environment changes a register, `pc`, SR, EPC, ESR or the moves to come (R296). -/
theorem applyMove_keeps (s : State) (m : EnvMove) :
    (s.applyMove m).regs = s.regs ∧ (s.applyMove m).pc = s.pc ∧ (s.applyMove m).sr = s.sr ∧
      (s.applyMove m).epc = s.epc ∧ (s.applyMove m).esr = s.esr ∧ (s.applyMove m).script = s.script := by
  cases m <;> exact ⟨rfl, rfl, rfl, rfl, rfl, rfl⟩

/-- A move of the environment keeps memory canonical. -/
theorem applyMove_wf (s : State) (m : EnvMove) (h : Memory.wf s.mem) : Memory.wf (s.applyMove m).mem := by
  cases m <;> first | exact h | exact putAll_wf _ _ _ h

/-- Of the platform, a move of the environment changes `BusFault` at most (R296). -/
theorem applyMove_platform (s : State) (m : EnvMove) :
    (s.applyMove m).platform = { s.platform with busFaults := (s.applyMove m).platform.busFaults } := by
  cases m <;> rfl

/-! ### One cycle of the core -/

/-- What one cycle can do, in the order of R262: each case with the tests that lead to it. -/
theorem cycle_cases (s : State) :
    (s.rst = true ∧ cycle s = .next (s.takeException .reset)) ∨
      (s.rst = false ∧ (misaligned s.pc 4 = true ∨ s.busFaultAt s.pc 4 .fetch = true) ∧
        cycle s = .next (s.takeException .busError)) ∨
      (s.rst = false ∧ misaligned s.pc 4 = false ∧ s.busFaultAt s.pc 4 .fetch = false ∧
        s.mappedSpan s.pc 4 = false ∧ cycle s = .fault (.unmapped .fetch s.pc)) ∨
      (s.rst = false ∧ misaligned s.pc 4 = false ∧ s.busFaultAt s.pc 4 .fetch = false ∧ s.mappedSpan s.pc 4 = true ∧
        ((∃ r, decodeWord s.platform.encoding (s.memRead4 s.pc) = .error r ∧ cycle s = .next (s.takeException .illegalInstruction)) ∨
          (∃ i e, decodeWord s.platform.encoding (s.memRead4 s.pc) = .ok i ∧ preemptingInterrupt i s = some e ∧
            cycle s = .next (s.takeException e)) ∨
          (∃ i, decodeWord s.platform.encoding (s.memRead4 s.pc) = .ok i ∧ preemptingInterrupt i s = none ∧ cycle s = exec i s))) := by
  unfold cycle
  cases h1 : s.rst
  case true => simp
  cases h2 : misaligned s.pc 4
  case true => simp
  cases h3 : s.busFaultAt s.pc 4 .fetch
  case true => simp
  cases h4 : s.mappedSpan s.pc 4
  case false => simp
  cases h5 : decodeWord s.platform.encoding (s.memRead4 s.pc) with
  | error r => simp
  | ok i => cases h6 : preemptingInterrupt i s <;> simp [h6]

/-- When an instruction is pre-empted, and by what (R262 tests 8 and 9). -/
theorem preemptingInterrupt_cases (i : Instr) (s : State) :
    (synchronousCause i s ≠ none ∧ preemptingInterrupt i s = none) ∨
      (synchronousCause i s = none ∧ s.nmiPending = true ∧ preemptingInterrupt i s = some .nonMaskableInterrupt) ∨
      (synchronousCause i s = none ∧ s.nmiPending = false ∧ s.intr = true ∧ s.flagIEE = true ∧
        preemptingInterrupt i s = some .externalInterrupt) ∨
      (synchronousCause i s = none ∧ s.nmiPending = false ∧ (s.intr = false ∨ s.flagIEE = false) ∧
        preemptingInterrupt i s = none) := by
  unfold preemptingInterrupt
  cases h1 : synchronousCause i s
  case some => simp
  cases h2 : s.nmiPending
  case true => simp
  cases h3 : s.intr <;> cases h4 : s.flagIEE <;> simp

end Sys2Proof.Machine
end

