-- ==== Sys2Proof/Laws/PerInstr.lean ====
section
/-! SUPPORT. A family of statements with one lemma for each instruction: the word that the encoder writes for an
instruction is selected by that instruction's row of the opcode table, the row at its place in the list of
instructions. -/

namespace Sys2Proof.Laws.EncodedWordSelected

/-- Whatever the encoding parameters are, the row at the place of `i` in the opcode table selects the canonical word of
`i` (R101, R124). -/
def Statement (i : Instr) : Prop :=
  ∀ e : Encoding, e.wellFormed = true → ∃ r, (opcodeRows e)[i.ctorIdx]? = some r ∧ r.selects (encodeWord e i) = true

/-- Where a well-formed encoding puts the two shift selectors. -/
theorem selector_bounds {e : Encoding} (h : e.wellFormed = true) :
    4 ≤ e.shiftReg ∧ e.shiftReg ≤ 9 ∧ 6 ≤ e.shiftImm ∧ e.shiftImm ≤ 14 := by
  simp only [Encoding.wellFormed, Bool.and_eq_true, decide_eq_true_eq] at h
  exact ⟨h.1.1.1.1, h.1.1.1.2, h.1.1.2, h.1.2⟩

/-- The row of a register shift selects its canonical word. -/
theorem shift_selects (e : Encoding) (v : BitVec 2) (rD rA rB : Reg) (h : e.wellFormed = true) :
    (formatRRR e.shiftReg v 0x8#4 rD rA rB &&& selectorMask 0xFC00000F#32 e.shiftReg ==
      selectorPattern 0xE0000008#32 v e.shiftReg) = true := by
  obtain ⟨h4, h9, -, -⟩ := selector_bounds h
  rw [formatRRR_masked _ _ _ _ _ _ h4 h9, selectorPattern_eq, beq_iff_eq, BitVec.or_assoc,
    BitVec.or_comm (place v _), ← BitVec.or_assoc]
  rfl

/-- The row of an immediate shift selects its canonical word. -/
theorem shiftImm_selects (e : Encoding) (v : BitVec 2) (rD rA : Reg) (amount : Nat) (h : e.wellFormed = true) :
    (formatSHI e.shiftImm v rD rA amount &&& selectorMask 0xFC000000#32 e.shiftImm ==
      selectorPattern 0xB8000000#32 v e.shiftImm) = true := by
  obtain ⟨-, -, h6, h14⟩ := selector_bounds h
  rw [formatSHI_masked _ _ _ _ _ h6 h14, selectorPattern_eq, beq_iff_eq]
  rfl

/-- A major opcode alone in a word. -/
theorem place_major (major : BitVec 6) : place major 26 = (major ++ 0#26 : BitVec 32) := by
  revert major; decide


theorem lAdd (rD rA rB : Reg) : Statement (.lAdd rD rA rB) :=
  fun _ _ => ⟨_, rfl, beq_iff_eq.2 ((formatRRR_masked 8 _ _ _ _ _ (by decide) (by decide)).trans (by decide))⟩

theorem lAddc (rD rA rB : Reg) : Statement (.lAddc rD rA rB) :=
  fun _ _ => ⟨_, rfl, beq_iff_eq.2 ((formatRRR_masked 8 _ _ _ _ _ (by decide) (by decide)).trans (by decide))⟩

theorem lAddi (rD rA : Reg) (imm : Half) : Statement (.lAddi rD rA imm) :=
  fun _ _ => ⟨_, rfl, beq_iff_eq.2 ((formatRRI_masked ..).trans (by decide))⟩

theorem lAnd (rD rA rB : Reg) : Statement (.lAnd rD rA rB) :=
  fun _ _ => ⟨_, rfl, beq_iff_eq.2 ((formatRRR_masked 8 _ _ _ _ _ (by decide) (by decide)).trans (by decide))⟩

theorem lAndi (rD rA : Reg) (imm : Half) : Statement (.lAndi rD rA imm) :=
  fun _ _ => ⟨_, rfl, beq_iff_eq.2 ((formatRRI_masked ..).trans (by decide))⟩

theorem lMovhi (rD : Reg) (imm : Half) : Statement (.lMovhi rD imm) :=
  fun _ _ => ⟨_, rfl, beq_iff_eq.2 ((formatRI_masked ..).trans (by decide))⟩

theorem lOr (rD rA rB : Reg) : Statement (.lOr rD rA rB) :=
  fun _ _ => ⟨_, rfl, beq_iff_eq.2 ((formatRRR_masked 8 _ _ _ _ _ (by decide) (by decide)).trans (by decide))⟩

theorem lOri (rD rA : Reg) (imm : Half) : Statement (.lOri rD rA imm) :=
  fun _ _ => ⟨_, rfl, beq_iff_eq.2 ((formatRRI_masked ..).trans (by decide))⟩

theorem lSub (rD rA rB : Reg) : Statement (.lSub rD rA rB) :=
  fun _ _ => ⟨_, rfl, beq_iff_eq.2 ((formatRRR_masked 8 _ _ _ _ _ (by decide) (by decide)).trans (by decide))⟩

theorem lXor (rD rA rB : Reg) : Statement (.lXor rD rA rB) :=
  fun _ _ => ⟨_, rfl, beq_iff_eq.2 ((formatRRR_masked 8 _ _ _ _ _ (by decide) (by decide)).trans (by decide))⟩

theorem lXori (rD rA : Reg) (imm : Half) : Statement (.lXori rD rA imm) :=
  fun _ _ => ⟨_, rfl, beq_iff_eq.2 ((formatRRI_masked ..).trans (by decide))⟩

theorem lSll (rD rA rB : Reg) : Statement (.lSll rD rA rB) :=
  fun _ h => ⟨_, rfl, shift_selects _ _ rD rA rB h⟩

theorem lSlli (rD rA : Reg) (amount : Nat) : Statement (.lSlli rD rA amount) :=
  fun _ h => ⟨_, rfl, shiftImm_selects _ _ rD rA amount h⟩

theorem lSra (rD rA rB : Reg) : Statement (.lSra rD rA rB) :=
  fun _ h => ⟨_, rfl, shift_selects _ _ rD rA rB h⟩

theorem lSrai (rD rA : Reg) (amount : Nat) : Statement (.lSrai rD rA amount) :=
  fun _ h => ⟨_, rfl, shiftImm_selects _ _ rD rA amount h⟩

theorem lSrl (rD rA rB : Reg) : Statement (.lSrl rD rA rB) :=
  fun _ h => ⟨_, rfl, shift_selects _ _ rD rA rB h⟩

theorem lSrli (rD rA : Reg) (amount : Nat) : Statement (.lSrli rD rA amount) :=
  fun _ h => ⟨_, rfl, shiftImm_selects _ _ rD rA amount h⟩

theorem lSfeq (rA rB : Reg) : Statement (.lSfeq rA rB) :=
  fun _ _ => ⟨_, rfl, beq_iff_eq.2 ((formatSF_masked ..).trans (by decide))⟩

theorem lSfeqi (rA : Reg) (imm : Half) : Statement (.lSfeqi rA imm) :=
  fun _ _ => ⟨_, rfl, beq_iff_eq.2 ((formatSFI_masked ..).trans (by decide))⟩

theorem lSfges (rA rB : Reg) : Statement (.lSfges rA rB) :=
  fun _ _ => ⟨_, rfl, beq_iff_eq.2 ((formatSF_masked ..).trans (by decide))⟩

theorem lSfgesi (rA : Reg) (imm : Half) : Statement (.lSfgesi rA imm) :=
  fun _ _ => ⟨_, rfl, beq_iff_eq.2 ((formatSFI_masked ..).trans (by decide))⟩

theorem lSfgeu (rA rB : Reg) : Statement (.lSfgeu rA rB) :=
  fun _ _ => ⟨_, rfl, beq_iff_eq.2 ((formatSF_masked ..).trans (by decide))⟩

theorem lSfgeui (rA : Reg) (imm : Half) : Statement (.lSfgeui rA imm) :=
  fun _ _ => ⟨_, rfl, beq_iff_eq.2 ((formatSFI_masked ..).trans (by decide))⟩

theorem lSfgts (rA rB : Reg) : Statement (.lSfgts rA rB) :=
  fun _ _ => ⟨_, rfl, beq_iff_eq.2 ((formatSF_masked ..).trans (by decide))⟩

theorem lSfgtsi (rA : Reg) (imm : Half) : Statement (.lSfgtsi rA imm) :=
  fun _ _ => ⟨_, rfl, beq_iff_eq.2 ((formatSFI_masked ..).trans (by decide))⟩

theorem lSfgtu (rA rB : Reg) : Statement (.lSfgtu rA rB) :=
  fun _ _ => ⟨_, rfl, beq_iff_eq.2 ((formatSF_masked ..).trans (by decide))⟩

theorem lSfgtui (rA : Reg) (imm : Half) : Statement (.lSfgtui rA imm) :=
  fun _ _ => ⟨_, rfl, beq_iff_eq.2 ((formatSFI_masked ..).trans (by decide))⟩

theorem lSfles (rA rB : Reg) : Statement (.lSfles rA rB) :=
  fun _ _ => ⟨_, rfl, beq_iff_eq.2 ((formatSF_masked ..).trans (by decide))⟩

theorem lSflesi (rA : Reg) (imm : Half) : Statement (.lSflesi rA imm) :=
  fun _ _ => ⟨_, rfl, beq_iff_eq.2 ((formatSFI_masked ..).trans (by decide))⟩

theorem lSfleu (rA rB : Reg) : Statement (.lSfleu rA rB) :=
  fun _ _ => ⟨_, rfl, beq_iff_eq.2 ((formatSF_masked ..).trans (by decide))⟩

theorem lSfleui (rA : Reg) (imm : Half) : Statement (.lSfleui rA imm) :=
  fun _ _ => ⟨_, rfl, beq_iff_eq.2 ((formatSFI_masked ..).trans (by decide))⟩

theorem lSflts (rA rB : Reg) : Statement (.lSflts rA rB) :=
  fun _ _ => ⟨_, rfl, beq_iff_eq.2 ((formatSF_masked ..).trans (by decide))⟩

theorem lSfltsi (rA : Reg) (imm : Half) : Statement (.lSfltsi rA imm) :=
  fun _ _ => ⟨_, rfl, beq_iff_eq.2 ((formatSFI_masked ..).trans (by decide))⟩

theorem lSfltu (rA rB : Reg) : Statement (.lSfltu rA rB) :=
  fun _ _ => ⟨_, rfl, beq_iff_eq.2 ((formatSF_masked ..).trans (by decide))⟩

theorem lSfltui (rA : Reg) (imm : Half) : Statement (.lSfltui rA imm) :=
  fun _ _ => ⟨_, rfl, beq_iff_eq.2 ((formatSFI_masked ..).trans (by decide))⟩

theorem lSfne (rA rB : Reg) : Statement (.lSfne rA rB) :=
  fun _ _ => ⟨_, rfl, beq_iff_eq.2 ((formatSF_masked ..).trans (by decide))⟩

theorem lSfnei (rA : Reg) (imm : Half) : Statement (.lSfnei rA imm) :=
  fun _ _ => ⟨_, rfl, beq_iff_eq.2 ((formatSFI_masked ..).trans (by decide))⟩

theorem lBf (offset : BitVec 26) : Statement (.lBf offset) :=
  fun _ _ => ⟨_, rfl, beq_iff_eq.2 ((formatJ_masked ..).trans (by decide))⟩

theorem lBnf (offset : BitVec 26) : Statement (.lBnf offset) :=
  fun _ _ => ⟨_, rfl, beq_iff_eq.2 ((formatJ_masked ..).trans (by decide))⟩

theorem lJ (offset : BitVec 26) : Statement (.lJ offset) :=
  fun _ _ => ⟨_, rfl, beq_iff_eq.2 ((formatJ_masked ..).trans (by decide))⟩

theorem lJal (offset : BitVec 26) : Statement (.lJal offset) :=
  fun _ _ => ⟨_, rfl, beq_iff_eq.2 ((formatJ_masked ..).trans (by decide))⟩

theorem lJalr (rB : Reg) : Statement (.lJalr rB) :=
  fun _ _ => ⟨_, rfl, beq_iff_eq.2 ((formatJR_masked ..).trans (by decide))⟩

theorem lJr (rB : Reg) : Statement (.lJr rB) :=
  fun _ _ => ⟨_, rfl, beq_iff_eq.2 ((formatJR_masked ..).trans (by decide))⟩

theorem lLbs (rD rA : Reg) (imm : Half) : Statement (.lLbs rD rA imm) :=
  fun _ _ => ⟨_, rfl, beq_iff_eq.2 ((formatRRI_masked ..).trans (by decide))⟩

theorem lLbz (rD rA : Reg) (imm : Half) : Statement (.lLbz rD rA imm) :=
  fun _ _ => ⟨_, rfl, beq_iff_eq.2 ((formatRRI_masked ..).trans (by decide))⟩

theorem lLhs (rD rA : Reg) (imm : Half) : Statement (.lLhs rD rA imm) :=
  fun _ _ => ⟨_, rfl, beq_iff_eq.2 ((formatRRI_masked ..).trans (by decide))⟩

theorem lLhz (rD rA : Reg) (imm : Half) : Statement (.lLhz rD rA imm) :=
  fun _ _ => ⟨_, rfl, beq_iff_eq.2 ((formatRRI_masked ..).trans (by decide))⟩

theorem lLws (rD rA : Reg) (imm : Half) : Statement (.lLws rD rA imm) :=
  fun _ _ => ⟨_, rfl, beq_iff_eq.2 ((formatRRI_masked ..).trans (by decide))⟩

theorem lLwz (rD rA : Reg) (imm : Half) : Statement (.lLwz rD rA imm) :=
  fun _ _ => ⟨_, rfl, beq_iff_eq.2 ((formatRRI_masked ..).trans (by decide))⟩

theorem lSb (rA rB : Reg) (imm : Half) : Statement (.lSb rA rB imm) :=
  fun _ _ => ⟨_, rfl, beq_iff_eq.2 ((formatRSI_masked ..).trans (by decide))⟩

theorem lSh (rA rB : Reg) (imm : Half) : Statement (.lSh rA rB imm) :=
  fun _ _ => ⟨_, rfl, beq_iff_eq.2 ((formatRSI_masked ..).trans (by decide))⟩

theorem lSw (rA rB : Reg) (imm : Half) : Statement (.lSw rA rB imm) :=
  fun _ _ => ⟨_, rfl, beq_iff_eq.2 ((formatRSI_masked ..).trans (by decide))⟩

theorem lMfspr (rD rA : Reg) (imm : Half) : Statement (.lMfspr rD rA imm) :=
  fun _ _ => ⟨_, rfl, beq_iff_eq.2 ((formatRRI_masked ..).trans (by decide))⟩

theorem lMtspr (rA rB : Reg) (imm : Half) : Statement (.lMtspr rA rB imm) :=
  fun _ _ => ⟨_, rfl, beq_iff_eq.2 ((formatRSI_masked ..).trans (by decide))⟩

theorem lNop (imm : Half) : Statement (.lNop imm) :=
  fun _ _ => ⟨_, rfl, beq_iff_eq.2 ((formatNOP_masked ..).trans (place_major _))⟩

theorem lRfe : Statement (.lRfe) :=
  fun _ _ => ⟨_, rfl, (by show Row.selects _ formatRFE = true; decide)⟩

theorem lSys (imm : Half) : Statement (.lSys imm) :=
  fun _ _ => ⟨_, rfl, beq_iff_eq.2 ((formatSYS_masked ..).trans (by decide))⟩

theorem lTrap (imm : Half) : Statement (.lTrap imm) :=
  fun _ _ => ⟨_, rfl, beq_iff_eq.2 ((formatSYS_masked ..).trans (by decide))⟩

end Sys2Proof.Laws.EncodedWordSelected
end

