-- ==== Sys2Proof/Tests/Slice0.lean ====
section
/-! SUPPORT. Small tests. Their expected values come from the spec: the words and the outcomes of 95_test_vectors.md (the
table rows of its section 2) and the examples of the rules named beside them. After them stand, for each statement with
hypotheses, a state and operands that meet all of them. -/

namespace Sys2Proof.Tests

open Machine

/-! ### Helpers -/

/-- The setting of the spec's vectors: ISR_VECTOR = 0x10000000, pc = 0x1000, and the bytes of its section 2.5. -/
def board : State where
  regs := resetRegisters
  pc := 0x1000#32
  sr := 0#32
  epc := 0#32
  esr := 0#32
  nmiPending := false
  mem := [(0x1FFC, 0x11), (0x1FFD, 0x22), (0x1FFE, 0x33), (0x1FFF, 0x44),
    (0x2000, 0x80), (0x2001, 0x81), (0x2002, 0xFE), (0x2003, 0x7F)]
  rst := false
  intr := false
  script := []
  platform := { defaultPlatform with isrVector := 0x10000000#32 }

/-- `s` with these registers written. -/
def holding (xs : List (Reg × Word)) (s : State) : State := xs.foldl (fun t x => t.setReg x.1 x.2) s

/-- The board with SR and registers as given, about to execute `word`. -/
def ready (word : Nat) (sr : Word) (xs : List (Reg × Word)) : State :=
  (holding xs { board with sr := sr }).withFetchWord 32 word

/-- The board with registers as given, and no instruction placed. -/
def plain (xs : List (Reg × Word)) : State := holding xs board

/-- `s` is followed by the state that `s` becomes with these registers, SR and pc. -/
def stepsTo (s : State) (xs : List (Reg × Word)) (sr pc : Word) : Bool :=
  match step s with
  | .next u => u == { holding xs s with sr := sr, pc := pc }
  | .fault _ => false
  | .refused _ => false

/-- `s` is followed by the state that `s` becomes by an exception entry: pc, EPC and ESR as given, SR = 0. -/
def entersAt (s : State) (pc epc esr : Word) : Bool :=
  match step s with
  | .next u => u == { s with sr := 0#32, pc := pc, epc := epc, esr := esr }
  | .fault _ => false
  | .refused _ => false

/-- As `stepsTo`, for an instruction that stores `bytes` from `a` up; the bytes are read back. -/
def storesTo (s : State) (a : Word) (bytes : List Byte) : Bool :=
  match step s with
  | .next u =>
    (u == { s with pc := s.pc + 4#32, mem := u.mem }) &&
      ((List.range bytes.length).map (fun k => u.memRead1 (a + BitVec.ofNat 32 k)) == bytes) &&
      (u.memRead1 (a - 1#32) == s.memRead1 (a - 1#32)) &&
      (u.memRead1 (a + BitVec.ofNat 32 bytes.length) == s.memRead1 (a + BitVec.ofNat 32 bytes.length))
  | .fault _ => false
  | .refused _ => false

/-- SR.F after each of six runs of a compare, each on its own values of x[4] and x[5]. -/
def flagsAfter (i : Instr) (pairs : List (Word × Word)) : List (Option Bool) :=
  pairs.map fun p =>
    match exec i (plain [(4, p.1), (5, p.2)]) with
    | .next u => some u.flagF
    | .fault _ => none
    | .refused _ => none

/-- The decoder reads this instruction from this word. -/
def reads (w : Word) (i : Instr) : Bool :=
  match decodeWord defaultEncoding w with
  | .ok j => i == j
  | .error _ => false

/-- The decoder reads no instruction from this word. -/
def rejects (w : Word) : Bool :=
  match decodeWord defaultEncoding w with
  | .ok _ => false
  | .error _ => true

/-! ### Decoding: a word of the spec for every instruction -/

theorem test_decode_arith :
    reads 0xE0642800 (.lAdd 3 4 5) = true ∧
    reads 0xE0642801 (.lAddc 3 4 5) = true ∧
    reads 0x9C648000 (.lAddi 3 4 0x8000) = true ∧
    reads 0xE0642803 (.lAnd 3 4 5) = true ∧
    reads 0xA4648000 (.lAndi 3 4 0x8000) = true ∧
    reads 0x18601234 (.lMovhi 3 0x1234) = true ∧
    reads 0xE0642804 (.lOr 3 4 5) = true ∧
    reads 0xA8648001 (.lOri 3 4 0x8001) = true ∧
    reads 0xE0642802 (.lSub 3 4 5) = true ∧
    reads 0xE0642805 (.lXor 3 4 5) = true ∧
    reads 0xAC647FFF (.lXori 3 4 0x7FFF) = true := by decide

theorem test_decode_shift :
    reads 0xE0642808 (.lSll 3 4 5) = true ∧
    reads 0xB8640020 (.lSlli 3 4 32) = true ∧
    reads 0xE0642A08 (.lSra 3 4 5) = true ∧
    reads 0xB864009F (.lSrai 3 4 31) = true ∧
    reads 0xE0642908 (.lSrl 3 4 5) = true ∧
    reads 0xB8640048 (.lSrli 3 4 8) = true ∧
    reads 0xE0642848 (.lSll 3 4 5) = true := by decide

theorem test_decode_compare_register :
    reads 0xE4042800 (.lSfeq 4 5) = true ∧
    reads 0xE4242800 (.lSfne 4 5) = true ∧
    reads 0xE4442800 (.lSfgtu 4 5) = true ∧
    reads 0xE4642800 (.lSfgeu 4 5) = true ∧
    reads 0xE4842800 (.lSfltu 4 5) = true ∧
    reads 0xE4A42800 (.lSfleu 4 5) = true ∧
    reads 0xE5442800 (.lSfgts 4 5) = true ∧
    reads 0xE5642800 (.lSfges 4 5) = true ∧
    reads 0xE5842800 (.lSflts 4 5) = true ∧
    reads 0xE5A42800 (.lSfles 4 5) = true := by decide

theorem test_decode_compare_immediate :
    reads 0xBC040005 (.lSfeqi 4 5) = true ∧
    reads 0xBC240005 (.lSfnei 4 5) = true ∧
    reads 0xBC44FFFF (.lSfgtui 4 0xFFFF) = true ∧
    reads 0xBC640005 (.lSfgeui 4 5) = true ∧
    reads 0xBC84FFFF (.lSfltui 4 0xFFFF) = true ∧
    reads 0xBCA40005 (.lSfleui 4 5) = true ∧
    reads 0xBD440005 (.lSfgtsi 4 5) = true ∧
    reads 0xBD640005 (.lSfgesi 4 5) = true ∧
    reads 0xBD84FFFF (.lSfltsi 4 0xFFFF) = true ∧
    reads 0xBDA40005 (.lSflesi 4 5) = true := by decide

theorem test_decode_branch :
    reads 0x13FFFFFD (.lBf 0x3FFFFFD) = true ∧
    reads 0x10000004 (.lBf 4) = true ∧
    reads 0x0C000004 (.lBnf 4) = true ∧
    reads 0x02000000 (.lJ 0x2000000) = true ∧
    reads 0x04000010 (.lJal 16) = true ∧
    reads 0x48002800 (.lJalr 5) = true ∧
    reads 0x44004800 (.lJr 9) = true := by decide

theorem test_decode_loadStore :
    reads 0x90640003 (.lLbs 3 4 3) = true ∧
    reads 0x8C64FFFF (.lLbz 3 4 0xFFFF) = true ∧
    reads 0x98640002 (.lLhs 3 4 2) = true ∧
    reads 0x94640002 (.lLhz 3 4 2) = true ∧
    reads 0x88640000 (.lLws 3 4 0) = true ∧
    reads 0x8464FFFC (.lLwz 3 4 0xFFFC) = true ∧
    reads 0xDBE42FFF (.lSb 4 5 0xFFFF) = true ∧
    reads 0xDC042802 (.lSh 4 5 2) = true ∧
    reads 0xD6042800 (.lSw 4 5 0x8000) = true := by decide

theorem test_decode_system :
    reads 0xB4660001 (.lMfspr 3 6 1) = true ∧
    reads 0xC2202811 (.lMtspr 0 5 0x8811) = true ∧
    reads 0x54001234 (.lNop 0x1234) = true ∧
    reads 0x24000000 (.lRfe) = true ∧
    reads 0x20001234 (.lSys 0x1234) = true ∧
    reads 0x2100FFFF (.lTrap 0xFFFF) = true := by decide

/-- R118, and the illegal words of sections 2.2, 2.3, 2.6 and 2.7. -/
theorem test_decode_illegal :
    rejects 0xB86400C1 = true ∧ rejects 0xE0642B08 = true ∧ rejects 0xE4C42800 = true ∧ rejects 0xBDC40005 = true ∧
      rejects 0x20010000 = true ∧ rejects 0x15000000 = true ∧ rejects 0xFFFFFFFF = true ∧ rejects 0xE0642B06 = true := by
  decide

/-- R124: the canonical word of an instruction, and its bytes in memory order. -/
theorem test_encode_words :
    encodeWord defaultEncoding (.lAdd 3 4 5) = 0xE0642800 ∧ encodeWord defaultEncoding (.lSw 4 5 0xFFFC) = 0xD7E42FFC ∧
      encodeWord defaultEncoding (.lSrai 3 4 31) = 0xB864009F ∧ encode defaultEncoding (.lMtspr 0 5 0x8811) = [0xC2, 0x20, 0x28, 0x11] := by decide

/-- The host's bit numbering: bit 0 is the least significant bit of the word. -/
theorem test_decodeTableWord : decodeTableWord 32 0xE0642800 = some (.lAdd 3 4 5) ∧ decodeTableWord 32 0xFFFFFFFF = none := by
  decide

/-! ### Well-formedness: an ill-formed term for each check -/

/-- R114: a shift amount is below 64. -/
theorem test_wellFormed_amount :
    (Instr.lSlli 3 4 63).wellFormed = true ∧ (Instr.lSlli 3 4 64).wellFormed = false ∧
      (Instr.lSrai 3 4 64).wellFormed = false ∧ (Instr.lSrli 3 4 64).wellFormed = false := by decide

theorem test_wellFormed_region : Region.wellFormed ⟨5#32, 4#32⟩ = false ∧ Region.wellFormed ⟨4#32, 4#32⟩ = true := by decide

theorem test_wellFormed_rule :
    AccessRule.wellFormed ⟨.load, 3, 0#32, 4#32⟩ = false ∧ AccessRule.wellFormed ⟨.load, 2, 5#32, 4#32⟩ = false ∧
      AccessRule.wellFormed ⟨.load, 2, 4#32, 4#32⟩ = true := by decide

/-- R315 line 1, and each part of the platform. -/
theorem test_wellFormed_platform :
    defaultPlatform.wellFormed = true ∧ Platform.wellFormed { defaultPlatform with bootVector := 2#32 } = false ∧
      Platform.wellFormed { defaultPlatform with isrVector := 1#32 } = false ∧
      Platform.wellFormed { defaultPlatform with mapped := [⟨5#32, 4#32⟩] } = false ∧
      Platform.wellFormed { defaultPlatform with busFaults := [⟨.store, 8, 0#32, 0#32⟩] } = false ∧
      Platform.wellFormed { defaultPlatform with statusBits := ⟨9, 9, 10⟩ } = false ∧
      Platform.wellFormed { defaultPlatform with sprNumbers := ⟨0x11, 0x20, 0x20⟩ } = false ∧
      Platform.wellFormed { defaultPlatform with encoding := ⟨8, 6, 0x00#6⟩ } = false := by decide

/-- Each selector stays inside its format's free bits, and l.nop on a major opcode of its own. -/
theorem test_wellFormed_encoding :
    defaultEncoding.wellFormed = true ∧ Encoding.wellFormed ⟨3, 6, 0x15⟩ = false ∧ Encoding.wellFormed ⟨10, 6, 0x15⟩ = false ∧
      Encoding.wellFormed ⟨8, 5, 0x15⟩ = false ∧ Encoding.wellFormed ⟨8, 15, 0x15⟩ = false ∧
      Encoding.wellFormed ⟨8, 6, 0x08⟩ = false ∧ Encoding.wellFormed ⟨6, 6, 0x05⟩ = true := by decide

theorem test_wellFormed_statusBits :
    StatusBits.wellFormed ⟨2, 9, 10⟩ = true ∧ StatusBits.wellFormed ⟨2, 2, 10⟩ = false ∧
      StatusBits.wellFormed ⟨2, 9, 2⟩ = false ∧ StatusBits.wellFormed ⟨2, 9, 9⟩ = false := by decide

theorem test_wellFormed_sprNumbers :
    SprNumbers.wellFormed ⟨0x11, 0x20, 0x40⟩ = true ∧ SprNumbers.wellFormed ⟨0x11, 0x11, 0x40⟩ = false ∧
      SprNumbers.wellFormed ⟨0x40, 0x20, 0x40⟩ = false ∧ SprNumbers.wellFormed ⟨0x11, 0x40, 0x40⟩ = false := by decide

/-! ### The parameters of R6 at other values than their defaults -/

/-- The warnings of D3 and D32: with the family's SHIFT_REG_SEL and NOP_MAJOR, its words of l.srl and l.nop; with the
parameters of the sources they are an l.sll and no instruction. -/
theorem test_parameter_encoding :
    decodeWord ⟨6, 6, 0x05⟩ 0xE0642848 = .ok (.lSrl 3 4 5) ∧ decodeWord ⟨6, 6, 0x05⟩ 0x15000000 = .ok (.lNop 0) ∧
      decodeWord ⟨6, 6, 0x05⟩ 0x54000000 = .error (.unlistedMajor 0x15) ∧
      encodeWord ⟨6, 6, 0x05⟩ (.lSra 3 4 5) = 0xE0642888 := ⟨rfl, rfl, rfl, by decide⟩

/-- `board` on another platform. -/
def on (p : Platform) : State := { board with platform := p }

/-- SR_F_BIT and SR_CY_BIT at 0 and 1: the compare and the addition write there. -/
theorem test_parameter_statusBits :
    (match exec (.lSfeq 4 4) (on { board.platform with statusBits := ⟨2, 0, 1⟩ }) with
    | .next u => u.sr == 1 && u.flagF && !u.flagCY
    | .fault _ => false
    | .refused _ => false) = true ∧
    (match exec (.lAddi 3 4 0xFFFF) { on { board.platform with statusBits := ⟨2, 0, 1⟩ } with regs := Vector.replicate 32 1 } with
    | .next u => u.sr == 2 && u.flagCY && !u.flagF
    | .fault _ => false
    | .refused _ => false) = true := by decide

/-- SPR_EPC at 7: that number reads EPC, and its default number names nothing. -/
theorem test_parameter_sprNumbers :
    (match exec (.lMfspr 3 0 7) { on { board.platform with sprNumbers := ⟨0x11, 7, 0x40⟩ } with epc := 0x1234 } with
    | .next u => u.reg 3 == 0x1234
    | .fault _ => false
    | .refused _ => false) = true ∧
    exec (.lMfspr 3 0 0x20) (on { board.platform with sprNumbers := ⟨0x11, 7, 0x40⟩ }) =
      .refused (.undefinedSpecialRegister 0x20) := ⟨by decide, rfl⟩

/-- MISALIGNED_DATA at its other values, for an l.lwz at 0x2001: the bytes of section 2.5 from 0x2000 up (truncation) and
from 0x2001 up (split; the byte at 0x2004 is not listed), and the refusal. -/
theorem test_parameter_misalignedData :
    (match exec (.lLwz 3 0 0x2001) (on { board.platform with misalignedData := .truncate }) with
    | .next u => u.reg 3 == 0x8081FE7F
    | .fault _ => false
    | .refused _ => false) = true ∧
    (match exec (.lLwz 3 0 0x2001) (on { board.platform with misalignedData := .split }) with
    | .next u => u.reg 3 == 0x81FE7F00
    | .fault _ => false
    | .refused _ => false) = true ∧
    exec (.lLwz 3 0 0x2001) (on { board.platform with misalignedData := .refuse }) = .refused (.misalignedAccess 0x2001) :=
  ⟨by decide, by decide, rfl⟩

/-! ### Arithmetic and logic (section 2.1) -/

theorem test_add_carry : stepsTo (ready 0xE0642800 0 [(4, 0xFFFFFFFF), (5, 1)]) [(3, 0)] 0x400 0x1004 = true := by decide

theorem test_add_same_register : stepsTo (ready 0xE0631800 0 [(3, 0xC0000001)]) [(3, 0x80000002)] 0x400 0x1004 = true := by decide

theorem test_addc_largest : stepsTo (ready 0xE0642801 0x604 [(4, 0xFFFFFFFF), (5, 0xFFFFFFFF)]) [(3, 0xFFFFFFFF)] 0x604 0x1004 = true := by decide

theorem test_addc_carry_in : stepsTo (ready 0xE0642801 0x400 [(4, 1), (5, 2)]) [(3, 4)] 0 0x1004 = true := by decide

theorem test_addi_minus_one : stepsTo (ready 0x9C64FFFF 0 [(4, 1)]) [(3, 0)] 0x400 0x1004 = true := by decide

theorem test_addi_register_zero : stepsTo (ready 0x9C60FFFE 0x400 []) [(3, 0xFFFFFFFE)] 0 0x1004 = true := by decide

theorem test_and : stepsTo (ready 0xE0642803 0x600 [(4, 0xFF00FF00), (5, 0x0FF00FF0)]) [(3, 0x0F000F00)] 0x600 0x1004 = true := by decide

theorem test_andi_zero_extends : stepsTo (ready 0xA4648000 0 [(4, 0xFFFFFFFF)]) [(3, 0x8000)] 0 0x1004 = true := by decide

theorem test_movhi : stepsTo (ready 0x1860FFFF 0 [(3, 0xABCD)]) [(3, 0xFFFF0000)] 0 0x1004 = true := by decide

theorem test_or : stepsTo (ready 0xE0642804 0 [(4, 0xF0F00000), (5, 0xF0F1)]) [(3, 0xF0F0F0F1)] 0 0x1004 = true := by decide

theorem test_ori_zero_extends : stepsTo (ready 0xA8648001 0 [(4, 0x12340000)]) [(3, 0x12348001)] 0 0x1004 = true := by decide

theorem test_sub_keeps_carry : stepsTo (ready 0xE0642802 0x400 [(4, 5), (5, 7)]) [(3, 0xFFFFFFFE)] 0x400 0x1004 = true := by decide

theorem test_xor : stepsTo (ready 0xE0642805 0 [(4, 0xFFFF0000), (5, 0x0FF00FF0)]) [(3, 0xF00F0FF0)] 0 0x1004 = true := by decide

theorem test_xori_sign_extends : stepsTo (ready 0xAC64FFFF 0 [(4, 0x12345678)]) [(3, 0xEDCBA987)] 0 0x1004 = true := by decide

/-- Register 0 discards the sum; the carry is still written. -/
theorem test_add_register_zero : stepsTo (ready 0xE0042800 0 [(4, 0xFFFFFFFF), (5, 2)]) [] 0x400 0x1004 = true := by decide

/-! ### Shifts (section 2.2) -/

theorem test_sll_amount_32 : stepsTo (ready 0xE0642808 0 [(4, 0x80000001), (5, 0x20)]) [(3, 0x80000001)] 0 0x1004 = true := by decide

theorem test_sll_low_bits : stepsTo (ready 0xE0642808 0 [(4, 1), (5, 0xFFFFFFE4)]) [(3, 0x10)] 0 0x1004 = true := by decide

theorem test_slli : stepsTo (ready 0xB8640004 0x600 [(4, 0xF000000F)]) [(3, 0xF0)] 0x600 0x1004 = true := by decide

theorem test_slli_amount_32 : stepsTo (ready 0xB8640020 0 [(4, 3)]) [(3, 3)] 0 0x1004 = true := by decide

theorem test_sra : stepsTo (ready 0xE0642A08 0 [(4, 0x80000000), (5, 4)]) [(3, 0xF8000000)] 0 0x1004 = true := by decide

theorem test_srai : stepsTo (ready 0xB8640081 0 [(4, 0xFFFFFFFE)]) [(3, 0xFFFFFFFF)] 0 0x1004 = true := by decide

theorem test_srl_amount_33 : stepsTo (ready 0xE0642908 0 [(4, 0x80000000), (5, 0x21)]) [(3, 0x40000000)] 0 0x1004 = true := by decide

theorem test_srli : stepsTo (ready 0xB8640048 0 [(4, 0xFF00FF00)]) [(3, 0x00FF00FF)] 0 0x1004 = true := by decide

/-! ### Compares (section 2.3, its two tables) -/

/-- The columns of the table of the register forms. -/
def registerPairs : List (Word × Word) :=
  [(5, 5), (5, 7), (7, 5), (0xFFFFFFFF, 1), (0x80000000, 0x7FFFFFFF), (0, 0x80000000)]

/-- The columns of the table of the immediate forms: x[4], with the immediate beside it. -/
def immediateFlags (mk : Half → Instr) : List (Option Bool) :=
  [(0x00000005, 5), (0x00000005, 0xFFFF), (0xFFFFFFFF, 0xFFFF), (0xFFFF8000, 0x8000), (0x00008000, 0x8000),
    (0x80000000, 0x7FFF)].flatMap fun (c : Word × Half) => flagsAfter (mk c.2) [(c.1, 0)]

theorem test_sfeq : flagsAfter (.lSfeq 4 5) registerPairs =
    [some true, some false, some false, some false, some false, some false] := by decide

theorem test_sfne : flagsAfter (.lSfne 4 5) registerPairs =
    [some false, some true, some true, some true, some true, some true] := by decide

theorem test_sfgtu : flagsAfter (.lSfgtu 4 5) registerPairs =
    [some false, some false, some true, some true, some true, some false] := by decide

theorem test_sfgeu : flagsAfter (.lSfgeu 4 5) registerPairs =
    [some true, some false, some true, some true, some true, some false] := by decide

theorem test_sfltu : flagsAfter (.lSfltu 4 5) registerPairs =
    [some false, some true, some false, some false, some false, some true] := by decide

theorem test_sfleu : flagsAfter (.lSfleu 4 5) registerPairs =
    [some true, some true, some false, some false, some false, some true] := by decide

theorem test_sfgts : flagsAfter (.lSfgts 4 5) registerPairs =
    [some false, some false, some true, some false, some false, some true] := by decide

theorem test_sfges : flagsAfter (.lSfges 4 5) registerPairs =
    [some true, some false, some true, some false, some false, some true] := by decide

theorem test_sflts : flagsAfter (.lSflts 4 5) registerPairs =
    [some false, some true, some false, some true, some true, some false] := by decide

theorem test_sfles : flagsAfter (.lSfles 4 5) registerPairs =
    [some true, some true, some false, some true, some true, some false] := by decide

theorem test_sfeqi : immediateFlags (.lSfeqi 4) =
    [some true, some false, some true, some true, some false, some false] := by decide

theorem test_sfnei : immediateFlags (.lSfnei 4) =
    [some false, some true, some false, some false, some true, some true] := by decide

theorem test_sfgtui : immediateFlags (.lSfgtui 4) =
    [some false, some false, some false, some false, some false, some true] := by decide

theorem test_sfgeui : immediateFlags (.lSfgeui 4) =
    [some true, some false, some true, some true, some false, some true] := by decide

theorem test_sfltui : immediateFlags (.lSfltui 4) =
    [some false, some true, some false, some false, some true, some false] := by decide

theorem test_sfleui : immediateFlags (.lSfleui 4) =
    [some true, some true, some true, some true, some true, some false] := by decide

theorem test_sfgtsi : immediateFlags (.lSfgtsi 4) =
    [some false, some true, some false, some false, some true, some false] := by decide

theorem test_sfgesi : immediateFlags (.lSfgesi 4) =
    [some true, some true, some true, some true, some true, some false] := by decide

theorem test_sfltsi : immediateFlags (.lSfltsi 4) =
    [some false, some false, some false, some false, some false, some true] := by decide

theorem test_sflesi : immediateFlags (.lSflesi 4) =
    [some true, some false, some true, some true, some false, some true] := by decide

/-- A compare keeps CY and IEE and every register. -/
theorem test_sfeq_same_register : stepsTo (ready 0xE4042000 0x404 [(4, 0x123)]) [] 0x604 0x1004 = true := by decide

/-! ### Branches and jumps (section 2.4) -/

theorem test_bf_taken : stepsTo (ready 0x10000004 0x200 []) [] 0x200 0x1010 = true := by decide

theorem test_bf_not_taken : stepsTo (ready 0x10000004 0x404 []) [] 0x404 0x1004 = true := by decide

theorem test_bnf_taken : stepsTo (ready 0x0C000004 0x404 []) [] 0x404 0x1010 = true := by decide

theorem test_bnf_not_taken : stepsTo (ready 0x0C000004 0x200 []) [] 0x200 0x1004 = true := by decide

theorem test_j_forward : stepsTo (ready 0x01FFFFFF 0 []) [] 0 0x08000FFC = true := by decide

theorem test_j_backward : stepsTo (ready 0x02000000 0 []) [] 0 0xF8001000 = true := by decide

theorem test_jal : stepsTo (ready 0x07FFFFFC 0 [(9, 0x55)]) [(9, 0x1004)] 0 0xFF0 = true := by decide

theorem test_jalr : stepsTo (ready 0x48002800 0 [(5, 0x2000)]) [(9, 0x1004)] 0 0x2000 = true := by decide

theorem test_jalr_link_register : stepsTo (ready 0x48004800 0 [(9, 0x2000)]) [(9, 0x1004)] 0 0x2000 = true := by decide

theorem test_jr : stepsTo (ready 0x44004800 0 [(9, 0x1234)]) [] 0 0x1234 = true := by decide

theorem test_jr_misaligned : stepsTo (ready 0x44002800 0 [(5, 0x2002)]) [] 0 0x2002 = true := by decide

/-! ### Loads and stores (section 2.5) -/

theorem test_lbs : stepsTo (ready 0x90640000 0 [(4, 0x2000)]) [(3, 0xFFFFFF80)] 0 0x1004 = true := by decide

theorem test_lbs_positive : stepsTo (ready 0x90640003 0 [(4, 0x2000)]) [(3, 0x7F)] 0 0x1004 = true := by decide

theorem test_lbz_negative_offset : stepsTo (ready 0x8C64FFFF 0 [(4, 0x2000)]) [(3, 0x44)] 0 0x1004 = true := by decide

theorem test_lhs : stepsTo (ready 0x98640000 0 [(4, 0x2000)]) [(3, 0xFFFF8081)] 0 0x1004 = true := by decide

theorem test_lhz : stepsTo (ready 0x94640002 0 [(4, 0x2000)]) [(3, 0xFE7F)] 0 0x1004 = true := by decide

theorem test_lws : stepsTo (ready 0x88640000 0 [(4, 0x2000)]) [(3, 0x8081FE7F)] 0 0x1004 = true := by decide

theorem test_lwz : stepsTo (ready 0x8464FFFC 0 [(4, 0x2000)]) [(3, 0x11223344)] 0 0x1004 = true := by decide

theorem test_lwz_same_register : stepsTo (ready 0x84840000 0 [(4, 0x2000)]) [(4, 0x8081FE7F)] 0 0x1004 = true := by decide

theorem test_sb : storesTo (ready 0xDBE42FFF 0 [(4, 0x2000), (5, 0xCD)]) 0x1FFF [0xCD] = true := by decide

theorem test_sh : storesTo (ready 0xDC042802 0 [(4, 0x2000), (5, 0x1234ABCD)]) 0x2002 [0xAB, 0xCD] = true := by decide

theorem test_sw : storesTo (ready 0xD7E42FFC 0 [(4, 0x2000), (5, 0xCAFEF00D)]) 0x1FFC [0xCA, 0xFE, 0xF0, 0x0D] = true := by decide

theorem test_lhz_misaligned : entersAt (ready 0x94640001 0x204 [(3, 0x77), (4, 0x2000)]) 0x10000800 0x1004 0x204 = true := by decide

theorem test_sh_misaligned : entersAt (ready 0xDC042801 0 [(4, 0x2000), (5, 0x1234ABCD)]) 0x10000800 0x1004 0 = true := by decide

theorem test_sw_misaligned : entersAt (ready 0xD4042801 0x400 [(4, 0x2000), (5, 0xDEADBEEF)]) 0x10000800 0x1004 0x400 = true := by decide

/-- The same word in memory read in the other byte order (BIG_ENDIAN false): Program 2 of section 3 names the bytes. -/
theorem test_little_endian :
    State.memRead4 { board with platform := { board.platform with bigEndian := false } } 0x2000 = 0x7FFE8180 ∧
      State.memRead2 { board with platform := { board.platform with bigEndian := false } } 0x2000 = 0x8180 := by decide

/-! ### System instructions (section 2.6) -/

theorem test_mfspr_number_from_register : stepsTo (ready 0xB4660001 0x204 [(6, 0x10)]) [(3, 0x204)] 0x204 0x1004 = true := by decide

theorem test_mtspr_sr : stepsTo (ready 0xC0002811 0 [(5, 0x604)]) [] 0x604 0x1004 = true := by decide

theorem test_nop : stepsTo (ready 0x54001234 0x600 []) [] 0x600 0x1004 = true := by decide

theorem test_mtspr_epc : (match step (ready 0xC0072800 0 [(5, 0x3000), (7, 0x20)]) with
    | .next u => u.epc == 0x3000 && u.esr == 0 && u.sr == 0 && u.pc == 0x1004
    | .fault _ => false
    | .refused _ => false) = true := by decide

theorem test_mfspr_epc : (match step { ready 0xB4600020 0 [] with epc := 0x1234, esr := 4 } with
    | .next u => u.reg 3 == 0x1234 && u.epc == 0x1234 && u.esr == 4 && u.pc == 0x1004
    | .fault _ => false
    | .refused _ => false) = true := by decide

theorem test_rfe : (match step { ready 0x24000000 0 [] with epc := 0x2004, esr := 0x604 } with
    | .next u => u.pc == 0x2004 && u.sr == 0x604 && u.epc == 0x2004 && u.esr == 0x604
    | .fault _ => false
    | .refused _ => false) = true := by decide

theorem test_sys : entersAt (ready 0x20001234 0x204 []) 0x10000400 0x1004 0x204 = true := by decide

theorem test_trap : entersAt (ready 0x2100FFFF 0x204 []) 0x10000600 0x1004 0x204 = true := by decide

/-- R40: any other number of a special register is refused. -/
theorem test_spr_refused : exec (.lMfspr 3 0 0x12) board = .refused (.undefinedSpecialRegister 0x12) ∧
    exec (.lMtspr 7 5 0x11) (plain [(7, 0x10000)]) = .refused (.undefinedSpecialRegister 0x10011) := ⟨rfl, rfl⟩

/-- R34: a reserved bit of SR is refused. -/
theorem test_reserved_refused : exec (.lMtspr 0 5 0x11) (plain [(5, 1)]) = .refused (.reservedStatusBits 1) ∧
    exec .lRfe { board with esr := 0x8000 } = .refused (.reservedStatusBits 0x8000) := ⟨rfl, rfl⟩

/-! ### Exceptions, interrupts and reset (section 2.7) -/

theorem test_illegal : entersAt (ready 0xFFFFFFFF 0x404 []) 0x10000200 0x1004 0x404 = true := by decide

theorem test_illegal_multiply : entersAt (ready 0xE0642B06 0 [(4, 3), (5, 5)]) 0x10000200 0x1004 0 = true := by decide

theorem test_misaligned_pc : entersAt { board with pc := 0x1002, sr := 0x200 } 0x10000800 0x1006 0x200 = true := by decide

theorem test_interrupt_preempts :
    entersAt { ready 0x9C630001 0x204 [(3, 7)] with intr := true } 0x10000300 0x1000 0x204 = true := by decide

theorem test_interrupt_masked :
    stepsTo { ready 0x9C630001 0x200 [(3, 7)] with intr := true } [(3, 8)] 0x200 0x1004 = true := by decide

theorem test_nmi_before_interrupt :
    (match step { ready 0x9C630001 4 [(3, 7)] with intr := true, nmiPending := true } with
    | .next u => u.pc == 0x10000700 && u.epc == 0x1000 && u.esr == 4 && u.sr == 0 && !u.nmiPending && u.reg 3 == 7
    | .fault _ => false
    | .refused _ => false) = true := by decide

/-- The latch keeps its value: the syscall is entered first. -/
theorem test_syscall_before_nmi :
    entersAt { ready 0x20000000 4 [] with intr := true, nmiPending := true } 0x10000400 0x1004 4 = true := by decide

theorem test_bus_error_before_nmi :
    entersAt { ready 0x84640001 0 [(4, 0x2000)] with nmiPending := true } 0x10000800 0x1004 0 = true := by decide

/-- Sequence 4: reset dominates, and BOOT_VECTOR = 0xF0000000 gives the first fetch at 0xF0000100. -/
theorem test_reset : (match step { ready 0x20000000 0x604 [] with
      rst := true, nmiPending := true, platform := { board.platform with bootVector := 0xF0000000#32 } } with
    | .next u => u.pc == 0xF0000100 && u.sr == 0 && u.epc == 0 && u.esr == 0 && !u.nmiPending
    | .fault _ => false
    | .refused _ => false) = true := by decide

/-- R296: the moves at the head of the script are made before the step, here a pulse of `nmi_i`. -/
theorem test_script : (match step { ready 0x54000000 0 [] with script := [[.pulseNmi], [.assertReset]] } with
    | .next u => u.pc == 0x10000700 && !u.nmiPending && u.script == [[.assertReset]]
    | .fault _ => false
    | .refused _ => false) = true := by decide

/-- R260: the numbers of the priority column; 0 is the highest. -/
theorem test_priorities :
    priority .reset = 0 ∧ priority .illegalInstruction = 1 ∧ priority .busError = 2 ∧ priority .syscall = 3 ∧
      priority .trap = 3 ∧ priority .nonMaskableInterrupt = 4 ∧ priority .externalInterrupt = 5 := by decide

/-- R67: an address without memory, and one that the platform declares erroneous. -/
theorem test_unmapped : exec (.lLwz 3 4 0) { plain [(4, 0x2000)] with platform := { board.platform with mapped := [] } } =
    .fault (.unmapped .load 0x2000) := rfl

/-- `withFetchWord` keeps what it does not place, and a shorter word has zeros above it. -/
theorem test_withFetchWord :
    (board.withFetchWord 32 0xE0642800).memRead4 0x1000 = 0xE0642800 ∧
      (board.withFetchWord 16 0xE0642800).memRead4 0x1000 = 0x2800 ∧
      (board.withFetchWord 32 0xE0642800).memRead4 0x1004 = 0 ∧
      (board.withFetchWord 32 0xE0642800).memRead4 0x2000 = 0x8081FE7F := by decide

/-! ### Witnesses: for each statement with hypotheses, a state and operands that meet them together -/

/-- EncodeThenDecode and PlacedInstructionRuns, at the largest operands. -/
theorem witness_wellFormed : (Instr.lSlli 31 31 63).wellFormed = true ∧ (Instr.lSw 31 31 0xFFFF).wellFormed = true ∧
    Encoding.wellFormed ⟨4, 6, 0x15⟩ = true ∧ Encoding.wellFormed ⟨9, 14, 0x3F⟩ = true ∧
    defaultEncoding.wellFormed = true := by decide

/-- NoWordMatchesTwoEntries and the statements with a premise on the three fields of SR or on the three numbers. -/
theorem witness_parameters : Encoding.wellFormed ⟨9, 14, 0x3F⟩ = true ∧ StatusBits.wellFormed ⟨31, 0, 1⟩ = true ∧
    board.platform.statusBits.wellFormed = true ∧ SprNumbers.wellFormed ⟨0, 1, 0xFFFFFFFF⟩ = true ∧
    board.platform.sprNumbers.wellFormed = true := by decide

/-- EveryEntryDecodes, RegisterCompares, ImmediateCompares, BranchesOnFlag and RelativeJumps: for each row, the word with
every other bit clear and the word with every other bit set. -/
theorem witness_entries : ∀ c ∈ [defaultEncoding, ⟨4, 14, 0x3F⟩, ⟨9, 6, 0x05⟩], c.wellFormed = true ∧ ∀ r ∈ opcodeRows c,
    r.pattern &&& r.mask = r.pattern ∧ (r.pattern ||| ~~~r.mask) &&& r.mask = r.pattern := by decide

theorem witness_DecodedIsWellFormed : decodeWord defaultEncoding 0xB87F003F = .ok (.lSlli 3 31 63) := rfl

theorem witness_OnlyTwoSystemSelectors :
    (field 0x2000FFFF#32 26 6 = 0x08#6 ∧ field 0x2000FFFF#32 16 10 = 0x000#10) ∧
      (field 0x21000000#32 26 6 = 0x08#6 ∧ field 0x21000000#32 16 10 = 0x100#10) ∧
      (field 0x23FFFFFF#32 26 6 = 0x08#6 ∧ field 0x23FFFFFF#32 16 10 ≠ 0x000#10 ∧ field 0x23FFFFFF#32 16 10 ≠ 0x100#10) := by
  decide

/-- StepKeepsInvariant and StepKeepsPlatformConstants. -/
theorem witness_StepKeepsInvariant : (ready 0xD4042800 0x604 [(4, 0x2000)]).Inv ∧
    ∃ t, step (ready 0xD4042800 0x604 [(4, 0x2000)]) = .next t := ⟨by decide, _, rfl⟩

/-- StepRunsDecodedInstruction: an instruction with its own exception though interrupts wait. -/
theorem witness_StepRunsDecodedInstruction_exception :
    State.Fetchable { ready 0x20000000 4 [] with nmiPending := true, intr := true }.afterMoves ∧
      State.decoded { ready 0x20000000 4 [] with nmiPending := true, intr := true }.afterMoves = .ok (.lSys 0) ∧
      synchronousCause (.lSys 0) { ready 0x20000000 4 [] with nmiPending := true, intr := true }.afterMoves ≠ none :=
  ⟨⟨rfl, rfl, rfl, rfl⟩, rfl, by decide⟩

/-- StepRunsDecodedInstruction: no interrupt, and an external interrupt that is masked. -/
theorem witness_StepRunsDecodedInstruction_quiet :
    ((ready 0x54000000 4 []).afterMoves.Fetchable ∧ (ready 0x54000000 4 []).afterMoves.decoded = .ok (.lNop 0) ∧
      (ready 0x54000000 4 []).afterMoves.nmiPending = false ∧ (ready 0x54000000 4 []).afterMoves.intr = false) ∧
    (State.Fetchable { ready 0x54000000 0 [] with intr := true }.afterMoves ∧
      State.decoded { ready 0x54000000 0 [] with intr := true }.afterMoves = .ok (.lNop 0) ∧
      State.nmiPending { ready 0x54000000 0 [] with intr := true }.afterMoves = false ∧
      State.flagIEE { ready 0x54000000 0 [] with intr := true }.afterMoves = false) :=
  ⟨⟨⟨rfl, rfl, rfl, rfl⟩, rfl, rfl, rfl⟩, ⟨rfl, rfl, rfl, rfl⟩, rfl, rfl, rfl⟩

theorem witness_PlacedInstructionRuns : Memory.wf board.mem ∧ board.platform.encoding.wellFormed = true ∧ board.script = [] ∧
    board.Fetchable ∧
    board.nmiPending = false ∧ board.intr = false ∧ (Instr.lAdd 3 4 5).wellFormed = true :=
  ⟨by decide, by decide, rfl, ⟨rfl, rfl, rfl, rfl⟩, rfl, rfl, rfl⟩

/-- ResetStepSetsStatedValues and ResetStepLeavesTheRest, reset active from before and by a move. -/
theorem witness_ResetStep : State.rst { board with rst := true }.afterMoves = true ∧
    State.rst { board with script := [[.assertReset]] }.afterMoves = true := by decide

theorem witness_ResetHeldMakesNoProgress : State.script { board with rst := true } = [] ∧
    State.rst { board with rst := true } = true ∧ ∃ t, step { board with rst := true } = .next t := ⟨rfl, rfl, _, rfl⟩

theorem witness_EntryWritesFourRegisters : Exception.nonMaskableInterrupt ≠ .reset ∧ Exception.trap ≠ .reset := by decide

/-- SynchronousExceptionWins, for each of the three exceptions. -/
theorem witness_SynchronousExceptionWins :
    ((ready 0x84640001 0 []).afterMoves.Fetchable ∧
      (ready 0x84640001 0 []).afterMoves.decoded = .ok (.lLwz 3 4 1) ∧
      synchronousCause (.lLwz 3 4 1) (ready 0x84640001 0 []).afterMoves = some .busError) ∧
    ((ready 0x20000000 0 []).afterMoves.Fetchable ∧ (ready 0x20000000 0 []).afterMoves.decoded = .ok (.lSys 0) ∧
      synchronousCause (.lSys 0) (ready 0x20000000 0 []).afterMoves = some .syscall) ∧
    ((ready 0x21000000 0 []).afterMoves.Fetchable ∧ (ready 0x21000000 0 []).afterMoves.decoded = .ok (.lTrap 0) ∧
      synchronousCause (.lTrap 0) (ready 0x21000000 0 []).afterMoves = some .trap) :=
  ⟨⟨⟨rfl, rfl, rfl, rfl⟩, rfl, rfl⟩, ⟨⟨rfl, rfl, rfl, rfl⟩, rfl, rfl⟩, ⟨rfl, rfl, rfl, rfl⟩, rfl, rfl⟩

theorem witness_IllegalWordTakesException : (ready 0xFFFFFFFF 0 []).afterMoves.Fetchable ∧
    ∀ r ∈ opcodeRows (ready 0xFFFFFFFF 0 []).afterMoves.platform.encoding,
      (ready 0xFFFFFFFF 0 []).afterMoves.fetched &&& r.mask ≠ r.pattern :=
  ⟨⟨rfl, rfl, rfl, rfl⟩, by decide⟩

/-- A platform that declares every fetch and every data access of the first words of memory erroneous. -/
def faulty : Platform :=
  { board.platform with busFaults := [⟨.fetch, 4, 0x1000, 0x1003⟩, ⟨.load, 1, 0, 3⟩, ⟨.load, 2, 0, 3⟩, ⟨.load, 4, 0, 3⟩,
      ⟨.store, 1, 0, 3⟩, ⟨.store, 2, 0, 3⟩, ⟨.store, 4, 0, 3⟩] }

/-- ErroneousFetchTakesBusError: a misaligned pc at the top of the address space, and a fetch that the platform rejects. -/
theorem witness_ErroneousFetchTakesBusError :
    (State.rst { board with pc := 0xFFFFFFFF }.afterMoves = false ∧
      (State.pc { board with pc := 0xFFFFFFFF }.afterMoves).toNat % 4 ≠ 0) ∧
    (State.rst { board with platform := faulty }.afterMoves = false ∧
      State.busFaultAt { board with platform := faulty }.afterMoves 0x1000 4 .fetch = true) := by decide

theorem witness_NmiPreempts : State.Fetchable { ready 0x54000000 0 [] with nmiPending := true }.afterMoves ∧
    State.decoded { ready 0x54000000 0 [] with nmiPending := true }.afterMoves = .ok (.lNop 0) ∧
    synchronousCause (.lNop 0) { ready 0x54000000 0 [] with nmiPending := true }.afterMoves = none ∧
    State.nmiPending { ready 0x54000000 0 [] with nmiPending := true }.afterMoves = true :=
  ⟨⟨rfl, rfl, rfl, rfl⟩, rfl, rfl, rfl⟩

theorem witness_ExternalInterruptPreempts : State.Fetchable { ready 0x54000000 4 [] with intr := true }.afterMoves ∧
    State.decoded { ready 0x54000000 4 [] with intr := true }.afterMoves = .ok (.lNop 0) ∧
    synchronousCause (.lNop 0) { ready 0x54000000 4 [] with intr := true }.afterMoves = none ∧
    State.nmiPending { ready 0x54000000 4 [] with intr := true }.afterMoves = false ∧
    State.intr { ready 0x54000000 4 [] with intr := true }.afterMoves = true ∧
    State.flagIEE { ready 0x54000000 4 [] with intr := true }.afterMoves = true :=
  ⟨⟨rfl, rfl, rfl, rfl⟩, rfl, rfl, rfl, rfl, rfl⟩

/-- PendingNmiOverwritesEntry, for each way into a synchronous exception: the first sequence of section 2.7, an illegal word,
a misaligned pc and a fetch that the platform rejects. The word at each vector is 0, that is, `l.j 0`. -/
theorem witness_PendingNmiOverwritesEntry :
    (∀ s ∈ [ready 0x20000000 4 [], ready 0xFFFFFFFF 4 [], { board with pc := 0x1002 },
          { board with platform := faulty }],
      ∃ t, State.script { s with nmiPending := true } = [] ∧ State.nmiPending { s with nmiPending := true } = true ∧
        step { s with nmiPending := true } = .next t ∧ t.Fetchable ∧ t.decoded = .ok (.lJ 0) ∧
        synchronousCause (.lJ 0) t = none) ∧
    EntersSynchronously { ready 0x20000000 4 [] with nmiPending := true } .syscall ∧
    EntersSynchronously { ready 0xFFFFFFFF 4 [] with nmiPending := true } .illegalInstruction ∧
    EntersSynchronously { board with pc := 0x1002, nmiPending := true } .busError ∧
    EntersSynchronously { board with platform := faulty, nmiPending := true } .busError := by
  refine ⟨fun s hs => ?_, .inr (.inr ⟨.lSys 0, ⟨rfl, rfl, rfl, rfl⟩, rfl, rfl⟩),
    .inr (.inl ⟨⟨rfl, rfl, rfl, rfl⟩, by decide, rfl⟩), .inl ⟨rfl, .inl (by decide), rfl⟩,
    .inl ⟨rfl, .inr (by decide), rfl⟩⟩
  simp only [List.mem_cons, List.not_mem_nil, or_false] at hs
  rcases hs with rfl | rfl | rfl | rfl <;>
    exact ⟨_, rfl, rfl, rfl, ⟨rfl, rfl, rfl, rfl⟩, rfl, rfl⟩

/-- l.nop moves no whole register into SR. -/
theorem nop_movesNoStatus : ¬ MovesWholeStatus (.lNop 0) := by
  rintro (⟨_, _, _, h⟩ | h) <;> cases h

/-- FlagWriters, its first two clauses. -/
theorem witness_FlagWriters : comparison (.lSfeq 4 4) board = some true ∧ comparison (.lSfne 4 4) board = some false ∧
    (board.platform.statusBits.wellFormed = true ∧ comparison (.lNop 0) board = none ∧ ¬ MovesWholeStatus (.lNop 0) ∧ synchronousCause (.lNop 0) board = none ∧
      ∃ t, exec (.lNop 0) board = .next t) :=
  ⟨by decide, by decide, by decide, rfl, nop_movesNoStatus, rfl, _, rfl⟩

/-- CarryWriters, at the two sides of the boundary. -/
theorem witness_CarryWriters :
    additionCarry (.lAdd 3 4 5) (plain [(4, 0xFFFFFFFF), (5, 1)]) = some true ∧
    additionCarry (.lAdd 3 4 5) (plain [(4, 0xFFFFFFFE), (5, 1)]) = some false ∧
    (board.platform.statusBits.wellFormed = true ∧ additionCarry (.lNop 0) board = none ∧ ¬ MovesWholeStatus (.lNop 0) ∧ synchronousCause (.lNop 0) board = none ∧
      ∃ t, exec (.lNop 0) board = .next t) :=
  ⟨by decide, by decide, by decide, rfl, nop_movesNoStatus, rfl, _, rfl⟩

/-- InterruptEnableRule, its first clause, and its last one by l.mtspr and by l.rfe. -/
theorem witness_InterruptEnableRule :
    preemptingInterrupt (.lNop 0) { board with intr := true, sr := 4 } = some .externalInterrupt ∧
    ((ready 0xC0002811 0 [(5, 4)]).platform.statusBits.wellFormed = true ∧ ∃ t,
      step (ready 0xC0002811 0 [(5, 4)]) = .next t ∧ (ready 0xC0002811 0 [(5, 4)]).afterMoves.flagIEE = false ∧
      t.flagIEE = true) ∧
    (State.platform { ready 0x24000000 0 [] with esr := 4 }).statusBits.wellFormed = true ∧
    (∃ t, step { ready 0x24000000 0 [] with esr := 4 } = .next t ∧
      State.flagIEE { ready 0x24000000 0 [] with esr := 4 }.afterMoves = false ∧ t.flagIEE = true) :=
  ⟨by decide, ⟨by decide, _, rfl, rfl, rfl⟩, by decide, _, rfl, rfl, rfl⟩

theorem witness_RegisterFrame : (∃ t, exec (.lJal 1) board = .next t) ∧ destination (.lJal 1) ≠ some 8 :=
  ⟨⟨_, rfl⟩, by decide⟩

/-- MemoryFrame: a form that stores nothing, and a store at the top of the address space. -/
theorem witness_MemoryFrame : ((∃ t, exec (.lSfeq 4 5) board = .next t) ∧ storedSpan (.lSfeq 4 5) board = none) ∧
    ((∃ t, exec (.lSw 0 5 0xFFFC) board = .next t) ∧ storedSpan (.lSw 0 5 0xFFFC) board = some (0xFFFFFFFC, 4)) :=
  ⟨⟨⟨_, rfl⟩, rfl⟩, ⟨_, rfl⟩, by decide⟩

theorem witness_SavedRegistersFrame : (∃ t, exec .lRfe board = .next t) ∧ ¬ IsMtspr .lRfe ∧
    synchronousCause .lRfe board = none := ⟨⟨_, rfl⟩, (by rintro ⟨_, _, _, h⟩; cases h), rfl⟩

theorem witness_MachineGoesOn : board.Inv ∧ board.platform.misalignedData ≠ .refuse ∧
    ∀ a : Word, board.mappedAt a = true := by
  refine ⟨by decide, by decide, fun a => ?_⟩
  have : a ≤ 0xFFFFFFFF#32 := by bv_omega
  have h0 : 0#32 ≤ a := by bv_omega
  simp [State.mappedAt, board, defaultPlatform, defaultMapped, this, h0]

theorem witness_EnvironmentLeavesCoreAlone : State.nmiPending { board with nmiPending := true } = true ∧ board.script = [] ∧
    State.script { board with script := [[.assertInterrupt, .pulseNmi]] } = [.assertInterrupt, .pulseNmi] :: [] ∧
    EnvMove.pulseNmi ∈ [EnvMove.assertInterrupt, .pulseNmi] ∧ Memory.wf board.mem := by decide

theorem witness_StoredBytesReadBack : Memory.wf board.mem ∧ board.platform.bigEndian = true ∧
    (0xFFFFFFFC#32).toNat % 4 = 0 := by decide

theorem witness_RegisterZeroByPlatform : board.platform.r0Zero = true ∧
    Platform.r0Zero { board.platform with r0Zero := false } = false := by decide

theorem witness_CarryOutIsBit32 : (31 : Reg) ≠ 0 ∧ (1 : Reg) ≠ 0 := by decide

theorem witness_BranchTargetArithmetic : board.pc.toNat % 4 = 0 := by decide

/-- JumpsTouchNoMemoryOrFlags: each of the six, and one that is neither l.bf nor l.bnf. -/
theorem witness_JumpsTouchNoMemoryOrFlags : IsJump (.lBf 1) ∧ IsJump (.lBnf 1) ∧ IsJump (.lJ 1) ∧ IsJump (.lJal 1) ∧
    IsJump (.lJalr 9) ∧ IsJump (.lJr 9) ∧ (∀ N, Instr.lJr 9 ≠ .lBf N) ∧ ∀ N, Instr.lJr 9 ≠ .lBnf N :=
  ⟨.inl ⟨_, rfl⟩, .inr (.inl ⟨_, rfl⟩), .inr (.inr (.inl ⟨_, rfl⟩)), .inr (.inr (.inr (.inl ⟨_, rfl⟩))),
    .inr (.inr (.inr (.inr (.inl ⟨_, rfl⟩)))), .inr (.inr (.inr (.inr (.inr ⟨_, rfl⟩)))), nofun, nofun⟩

/-- ByteLoads, HalfWordLoads, WordLoads: the last byte, half word and word of the address space, in both byte orders. -/
theorem witness_Loads : AccessGoesThrough board (accessAddress board 0 0xFFFF 1) 1 .load ∧
    AccessGoesThrough board (accessAddress board 0 0xFFFE 2) 2 .load ∧
    AccessGoesThrough board (accessAddress board 0 0xFFFC 4) 4 .load ∧ board.platform.bigEndian = true ∧
    AccessGoesThrough { board with platform := { board.platform with bigEndian := false } } 0xFFFFFFFC 4 .load ∧
    AccessGoesThrough { board with platform := { board.platform with misalignedData := .split } } 0xFFFFFFFE 4 .load ∧
    AccessGoesThrough { board with platform := { board.platform with misalignedData := .truncate } }
      (accessAddress { board with platform := { board.platform with misalignedData := .truncate } } 0 0xFFFF 4) 4 .load :=
  ⟨⟨.inl (by decide), by decide, by decide⟩, ⟨.inl (by decide), by decide, by decide⟩,
    ⟨.inl (by decide), by decide, by decide⟩, rfl, ⟨.inl (by decide), by decide, by decide⟩, ⟨.inr rfl, by decide, by decide⟩,
    .inl (by decide), by decide, by decide⟩

/-- ByteStore, HalfWordStore, WordStore. -/
theorem witness_Stores : Memory.wf board.mem ∧ AccessGoesThrough board (accessAddress board 0 0xFFFF 1) 1 .store ∧
    AccessGoesThrough board (accessAddress board 0 0xFFFE 2) 2 .store ∧
    AccessGoesThrough board (accessAddress board 0 0xFFFC 4) 4 .store :=
  ⟨by decide, ⟨.inl (by decide), by decide, by decide⟩, ⟨.inl (by decide), by decide, by decide⟩, .inl (by decide), by decide,
    by decide⟩

/-- MisalignedDataTakesBusError, with both values of the parameter that it speaks of. -/
theorem witness_MisalignedDataTakesBusError : board.platform.misalignedData = .busError ∧
    State.reg board 0 + (0xFFFF#16).signExtend 32 = 0xFFFFFFFF#32 ∧ (0xFFFFFFFF#32).toNat % 2 ≠ 0 ∧
    (0xFFFFFFFF#32).toNat % 4 ≠ 0 ∧ (board.reg 0 + (1#16).signExtend 32).toNat % 2 ≠ 0 ∧
    (board.reg 0 + (2#16).signExtend 32).toNat % 4 ≠ 0 ∧
    Platform.misalignedData { board.platform with misalignedData := .refuse } = .refuse := by decide

/-- RejectedDataTakesBusError, at an aligned address, and at a misaligned one where MISALIGNED_DATA splits. -/
theorem witness_RejectedDataTakesBusError : (∀ k ∈ [AccessKind.load, .store], ∀ n ∈ [1, 2, 4],
    State.busFaultAt { board with platform := faulty } (accessAddress { board with platform := faulty } 0 0 n) n k = true ∧
      (accessAddress { board with platform := faulty } 0 0 n).toNat % n = 0) ∧
    ∀ k ∈ [AccessKind.load, .store], ∀ n ∈ [2, 4],
      State.busFaultAt { board with platform := { faulty with misalignedData := .split } }
        (accessAddress { board with platform := { faulty with misalignedData := .split } } 0 1 n) n k = true := by
  decide

/-- A platform with memory at the first two bytes only. -/
def sparse : State := { board with platform := { board.platform with mapped := [⟨0, 1⟩] } }

/-- AccessWithoutMemoryStops: at widths 1, 2 and 4, and at the fetch. -/
theorem witness_AccessWithoutMemoryStops :
    (AlignmentAllows sparse (accessAddress sparse 0 2 1) 1 ∧
      sparse.mappedAt (accessAddress sparse 0 2 1 + BitVec.ofNat 32 0) = false) ∧
    (AlignmentAllows sparse (accessAddress sparse 0 2 2) 2 ∧
      sparse.mappedAt (accessAddress sparse 0 2 2 + BitVec.ofNat 32 1) = false) ∧
    (AlignmentAllows sparse (accessAddress sparse 0 0 4) 4 ∧
      sparse.mappedAt (accessAddress sparse 0 0 4 + BitVec.ofNat 32 3) = false) ∧
    (∀ k ∈ [AccessKind.load, .store], ∀ n ∈ [1, 2, 4], sparse.busFaultAt 0 n k = false ∧ sparse.busFaultAt 2 n k = false) ∧
    (sparse.afterMoves.rst = false ∧ sparse.afterMoves.pc.toNat % 4 = 0 ∧
      sparse.afterMoves.busFaultAt sparse.afterMoves.pc 4 .fetch = false ∧
      sparse.afterMoves.mappedAt (sparse.afterMoves.pc + BitVec.ofNat 32 3) = false) :=
  ⟨⟨.inl (by decide), by decide⟩, ⟨.inl (by decide), by decide⟩, ⟨.inl (by decide), by decide⟩, by decide, by decide⟩

/-- A value with bits 2, 9 and 10 alone is one with only named bits; no other bit may be set. -/
theorem named_of_mask (v : Word) (h : hasReservedBits defaultStatusBits v = false) : OnlyNamedBits defaultStatusBits v :=
  (hasReservedBits_eq_false_iff _ _).1 h

theorem unnamed_of_bit (v : Word) (k : Nat) (h : v.getLsbD k = true) (hk : k ≠ 2 ∧ k ≠ 9 ∧ k ≠ 10) :
    ¬ OnlyNamedBits defaultStatusBits v := by
  intro n
  rcases n k h with e | e | e
  · exact hk.1 e
  · exact hk.2.1 e
  · exact hk.2.2 e

/-- MoveFromSpecialRegister and MoveToSpecialRegister, each number, with a value of every named bit. -/
theorem witness_SpecialRegisterMoves : board.platform.sprNumbers.wellFormed = true ∧
    board.reg 0 ||| (0#16 ++ 0x11#16) = board.platform.sprNumbers.sr ∧
    board.reg 0 ||| (0#16 ++ 0x20#16) = board.platform.sprNumbers.epc ∧
    board.reg 0 ||| (0#16 ++ 0x40#16) = board.platform.sprNumbers.esr ∧
    OnlyNamedBits (plain [(5, 0x604)]).platform.statusBits ((plain [(5, 0x604)]).reg 5) ∧
    (plain [(5, 0x604)]).reg 0 ||| (0#16 ++ 0x11#16) = (plain [(5, 0x604)]).platform.sprNumbers.sr ∧
    (plain [(5, 0x604)]).reg 0 ||| (0#16 ++ 0x40#16) = (plain [(5, 0x604)]).platform.sprNumbers.esr :=
  ⟨by decide, by decide, by decide, by decide, named_of_mask _ (by decide), by decide, by decide⟩

theorem witness_SpecialRegisterRefusals :
    (board.reg 0 ||| (0#16 ++ 0xFFFF#16) ≠ board.platform.sprNumbers.sr ∧
      board.reg 0 ||| (0#16 ++ 0xFFFF#16) ≠ board.platform.sprNumbers.epc ∧
      board.reg 0 ||| (0#16 ++ 0xFFFF#16) ≠ board.platform.sprNumbers.esr) ∧
    ((plain [(5, 1)]).reg 0 ||| (0#16 ++ 0x11#16) = (plain [(5, 1)]).platform.sprNumbers.sr ∧
      ¬ OnlyNamedBits (plain [(5, 1)]).platform.statusBits ((plain [(5, 1)]).reg 5)) ∧
    ((plain [(5, 0x800)]).reg 0 ||| (0#16 ++ 0x40#16) = (plain [(5, 0x800)]).platform.sprNumbers.esr ∧
      ¬ OnlyNamedBits (plain [(5, 0x800)]).platform.statusBits ((plain [(5, 0x800)]).reg 5)) ∧
    ¬ OnlyNamedBits board.platform.statusBits (State.esr { board with esr := 0x80000000 }) :=
  ⟨by decide, ⟨by decide, unnamed_of_bit _ 0 (by decide) (by decide)⟩,
    ⟨by decide, unnamed_of_bit _ 11 (by decide) (by decide)⟩, unnamed_of_bit _ 31 (by decide) (by decide)⟩

theorem witness_ReturnFromException : OnlyNamedBits board.platform.statusBits board.esr ∧ Exception.syscall ≠ .reset ∧
    OnlyNamedBits board.platform.statusBits (State.sr { board with sr := 0x604 }) :=
  ⟨named_of_mask _ (by decide), by decide, named_of_mask _ (by decide)⟩

end Sys2Proof.Tests
end

namespace Sys2Proof.Machine

/-! ### What one instruction can do -/

/-- The one relation that is not by definition a comparison of `BitVec`. -/
theorem relationHolds_ne (a b : Word) : relationHolds .ne a b = (a != b) := decide_not

/-- The compares, and no other instruction, find something; what they find is the flag they write (R171 to R190). -/
theorem exec_of_comparison {i : Instr} {s : State} {b : Bool} (h : comparison i s = some b) :
    exec i s = .next (s.setF b).advance := by
  cases i with
  | lSfeq | lSfeqi | lSfges | lSfgesi | lSfgeu | lSfgeui | lSfgts | lSfgtsi | lSfgtu | lSfgtui
  | lSfles | lSflesi | lSfleu | lSfleui | lSflts | lSfltsi | lSfltu | lSfltui => cases h; rfl
  | lSfne | lSfnei => cases h; rw [← relationHolds_ne]; rfl
  | _ => cases h

/-- The three additions, and no other instruction, carry; each writes its carry to SR.CY, a result to its destination,
and goes on with the next instruction (R141 to R143). -/
theorem exec_of_additionCarry {i : Instr} {s : State} {c : Bool} (h : additionCarry i s = some c) :
    ∃ rD v, destination i = some rD ∧ exec i s = .next ((s.setCY c).setReg rD v).advance := by
  cases i with
  | lAdd | lAddc | lAddi => cases h; exact ⟨_, _, rfl, rfl⟩
  | _ => cases h

/-- The address in the terms of the statements is the model's. -/
theorem accessAddress_eq_dataAddress (s : State) (rA : Reg) (imm : Half) (n : Nat) :
    accessAddress s rA imm n = s.dataAddress rA imm n := by
  unfold accessAddress State.dataAddress
  cases s.platform.misalignedData <;> rfl

/-- What an instruction that has a next state can have done: one constructor for each way, with the fact about the
instruction, in the terms of the statements, that goes with it. -/
inductive InstructionEffect (i : Instr) (s : State) : State → Prop where
  /-- The branches, l.j, l.jr and l.nop. -/
  | setsPc (target : Word) : InstructionEffect i s (s.jumpTo target)
  /-- l.jal and l.jalr. -/
  | links (target : Word) (hd : destination i = some linkRegister) : InstructionEffect i s (s.link.jumpTo target)
  /-- The logical instructions, l.sub, the shifts, the loads and l.mfspr. -/
  | writesRegister (rD : Reg) (v : Word) (hd : destination i = some rD) : InstructionEffect i s (s.setReg rD v).advance
  /-- l.add, l.addc and l.addi. -/
  | adds (rD : Reg) (v : Word) (c : Bool) (hd : destination i = some rD) (hc : additionCarry i s = some c) :
      InstructionEffect i s ((s.setCY c).setReg rD v).advance
  /-- The 20 compares. -/
  | compares (b : Bool) (hb : comparison i s = some b) : InstructionEffect i s (s.setF b).advance
  /-- The three stores. -/
  | stores (a : Word) (bytes : List Byte) (hs : storedSpan i s = some (a, bytes.length)) :
      InstructionEffect i s (s.putBytes a bytes).advance
  /-- l.sys, l.trap, and the loads and stores that take the bus error. -/
  | entersException (e : Exception) (he : synchronousCause i s = some e) : InstructionEffect i s (s.takeException e)
  /-- l.mtspr to SR. -/
  | writesSr (v : Word) (hi : IsMtspr i) (hv : hasReservedBits s.platform.statusBits v = false) :
      InstructionEffect i s { s with sr := v }.advance
  /-- l.mtspr to EPC. -/
  | writesEpc (v : Word) (hi : IsMtspr i) : InstructionEffect i s { s with epc := v }.advance
  /-- l.mtspr to ESR. -/
  | writesEsr (v : Word) (hi : IsMtspr i) (hv : hasReservedBits s.platform.statusBits v = false) :
      InstructionEffect i s { s with esr := v }.advance
  /-- l.rfe. -/
  | returns (hi : i = .lRfe) (hv : hasReservedBits s.platform.statusBits s.esr = false) :
      InstructionEffect i s { s with pc := s.epc, sr := s.esr }

/-- A load that has a next state took the bus error, or wrote its destination (R230, R231). -/
theorem loadInto_effect {i : Instr} {n : Nat} {read : State → Word → Word} {rD rA : Reg} {imm : Half} {s t : State}
    (h : loadInto n read rD rA imm s = .next t)
    (hc : synchronousCause i s = dataCause s (s.dataAddress rA imm n) n .load) (hd : destination i = some rD) :
    InstructionEffect i s t := by
  rcases loadInto_cases n read rD rA imm s with ⟨_, h'⟩ | ⟨_, he, h'⟩ | ⟨_, _, _, h'⟩ | ⟨_, _, _, h'⟩ <;>
    cases h'.symm.trans h
  · exact .entersException _ (hc.trans (if_pos he))
  · exact .writesRegister _ _ hd

/-- A store that has a next state took the bus error, or put as many bytes as it is wide at its address (R230, R231). -/
theorem storeFrom_effect {i : Instr} {n : Nat} {write : State → Word → Word → State} {rA rB : Reg} {imm : Half}
    {s t : State} {bytes : List Byte} (h : storeFrom n write rA rB imm s = .next t)
    (hc : synchronousCause i s = dataCause s (s.dataAddress rA imm n) n .store)
    (hs : storedSpan i s = some (accessAddress s rA imm n, n))
    (hw : ∀ a, write s a (s.reg rB) = s.putBytes a bytes) (hn : bytes.length = n) : InstructionEffect i s t := by
  subst hn
  rcases storeFrom_cases bytes.length write rA rB imm s with
      ⟨_, h'⟩ | ⟨_, he, h'⟩ | ⟨_, _, _, h'⟩ | ⟨_, _, _, h'⟩ <;> cases h'.symm.trans h
  · exact .entersException _ (hc.trans (if_pos he))
  · rw [hw]; exact .stores _ _ (accessAddress_eq_dataAddress .. ▸ hs)

/-- An l.mtspr that has a next state wrote one of the three special registers (R242). -/
theorem execMtspr_effect {rA rB : Reg} {imm : Half} {s t : State} (h : execMtspr rA rB imm s = .next t) :
    InstructionEffect (.lMtspr rA rB imm) s t := by
  have hi : IsMtspr (.lMtspr rA rB imm) := ⟨rA, rB, imm, rfl⟩
  rcases writeSpr_next h with ⟨-, hv, rfl⟩ | ⟨-, rfl⟩ | ⟨-, hv, rfl⟩
  · exact .writesSr _ hi hv
  · exact .writesEpc _ hi
  · exact .writesEsr _ hi hv

/-- An l.mfspr that has a next state wrote its destination (R241). -/
theorem execMfspr_effect {rD rA : Reg} {imm : Half} {s t : State} (h : execMfspr rD rA imm s = .next t) :
    InstructionEffect (.lMfspr rD rA imm) s t := by
  unfold execMfspr at h
  split at h <;> cases h
  exact .writesRegister _ _ rfl

/-- A branch goes to its target or on; either way it writes `pc` alone (R201, R202). -/
theorem branchIf_effect {i : Instr} {taken : Bool} {N : BitVec 26} {s t : State} (h : branchIf taken N s = .next t) :
    InstructionEffect i s t := by
  cases taken <;> cases h <;> exact .setsPc _

/-- The inversion of `exec`: one case for each family of instructions. -/
theorem exec_effect {i : Instr} {s t : State} (h : exec i s = .next t) : InstructionEffect i s t := by
  cases hb : comparison i s with
  | some b => cases (exec_of_comparison hb).symm.trans h; exact .compares b hb
  | none =>
  cases hc : additionCarry i s with
  | some c =>
    obtain ⟨rD, v, hd, h'⟩ := exec_of_additionCarry hc
    cases h'.symm.trans h
    exact .adds rD v c hd hc
  | none =>
  cases i with
  | lAnd | lAndi | lMovhi | lOr | lOri | lSub | lXor | lXori | lSll | lSlli | lSra | lSrai | lSrl | lSrli =>
    cases h; exact .writesRegister _ _ rfl
  | lBf | lBnf => exact branchIf_effect h
  | lJ | lJr => cases h; exact .setsPc _
  | lJal | lJalr => cases h; exact .links _ rfl
  | lLbs | lLbz | lLhs | lLhz | lLws | lLwz => unfold exec at h; exact loadInto_effect h rfl rfl
  | lSb => unfold exec at h; exact storeFrom_effect h rfl rfl (fun _ => rfl) rfl
  | lSh | lSw => unfold exec at h; exact storeFrom_effect h rfl rfl (fun _ => rfl) (inMemoryOrder_length ..)
  | lMfspr => exact execMfspr_effect h
  | lMtspr => exact execMtspr_effect h
  | lNop => cases h; exact .setsPc _
  | lRfe => obtain ⟨hv, rfl⟩ := returnFromException_next h; exact .returns rfl hv
  | lSys | lTrap => cases h; exact .entersException _ rfl
  | lAdd | lAddc | lAddi => cases hc
  | _ => cases hb

/-! ### What one instruction does to SR -/

/-- The flags of a state whose SR is 0 (R50, R270). -/
theorem flags_of_sr_zero {s : State} (h : s.sr = 0#32) : s.flagF = false ∧ s.flagCY = false ∧ s.flagIEE = false := by
  simp [State.flagF, State.flagCY, State.flagIEE, h]

/-- The flags after an instruction, on the platform it ran on: SR is moved as a whole, cleared by the entry of the
instruction's own exception, written in F by a compare or in CY by an addition, or else as before (R31 to R33). -/
theorem exec_flags {i : Instr} {s t : State} (hp : s.platform.statusBits.wellFormed = true) (h : exec i s = .next t) :
    MovesWholeStatus i ∨ (∃ e, synchronousCause i s = some e ∧ t = s.takeException e) ∨
      (∃ b, comparison i s = some b ∧ t.flagCY = s.flagCY ∧ t.flagIEE = s.flagIEE) ∨
      (∃ c, additionCarry i s = some c ∧ t.flagF = s.flagF ∧ t.flagIEE = s.flagIEE) ∨
      (t.flagF = s.flagF ∧ t.flagCY = s.flagCY ∧ t.flagIEE = s.flagIEE) := by
  cases exec_effect h with
  | writesSr _ hi | writesEpc _ hi | writesEsr _ hi => exact .inl (.inl hi)
  | returns hi => exact .inl (.inr hi)
  | entersException e he => exact .inr (.inl ⟨e, he, rfl⟩)
  | compares b hb => exact .inr (.inr (.inl ⟨b, hb, flags_setF s b hp⟩))
  | adds _ _ c _ hc => exact .inr (.inr (.inr (.inl ⟨c, hc, flags_setCY s c hp⟩)))
  | setsPc | links | writesRegister | stores => exact .inr (.inr (.inr (.inr (flags_of_sr rfl rfl))))

/-- Settles O23, by the inversion of `exec`: of the cases in which the flags change, its premises leave none. -/
theorem flagWriters : Obligations.FlagWriters := by
  refine ⟨fun i s b hb => ⟨_, exec_of_comparison hb, flagF_setF s b⟩, fun i s t hp hcmp hmove hown h => ?_, fun N s => ?_⟩
  · rcases exec_flags hp h with hm | ⟨e, he, -⟩ | ⟨b, hb, -⟩ | ⟨-, -, hF, -⟩ | ⟨hF, -⟩
    · exact absurd hm hmove
    · cases hown.symm.trans he
    · cases hcmp.symm.trans hb
    · exact hF
    · exact hF
  · constructor
    · rfl
    · show branchIf (!s.flagF) N s = _
      cases s.flagF <;> rfl

/-! ### Where an instruction goes next -/

/-- The `pc` of the state that an instruction answers, if it answers one. -/
def answeredPc : Result → Option Word
  | .next t => some t.pc
  | .fault _ => none
  | .refused _ => none

theorem answeredPc_eq_some_iff (r : Result) (w : Word) : answeredPc r = some w ↔ ∃ t, r = .next t ∧ t.pc = w := by
  cases r <;> simp [answeredPc]

section StatusReplaced

variable (s : State) (v : Word)

/-- Where a branch goes next depends on SR only through whether it is taken. -/
theorem answeredPc_branchIf (taken : Bool) (N : BitVec 26) :
    answeredPc (branchIf taken N { s with sr := v }) = answeredPc (branchIf taken N s) := by
  cases taken <;> rfl

/-- Where a load goes next does not depend on SR. -/
theorem answeredPc_loadInto (n : Nat) (read : State → Word → Word) (rD rA : Reg) (imm : Half) :
    answeredPc (loadInto n read rD rA imm { s with sr := v }) = answeredPc (loadInto n read rD rA imm s) := by
  unfold loadInto
  simp only [apply_ite answeredPc]
  rfl

/-- Where a store goes next does not depend on SR, for a write that leaves `pc` alone. -/
theorem answeredPc_storeFrom (n : Nat) (write : State → Word → Word → State) (rA rB : Reg) (imm : Half)
    (hw : ∀ u a x, (write u a x).pc = u.pc) :
    answeredPc (storeFrom n write rA rB imm { s with sr := v }) = answeredPc (storeFrom n write rA rB imm s) := by
  unfold storeFrom
  simp only [apply_ite answeredPc]
  simp only [answeredPc, advance_pc, hw]
  rfl

/-- Where l.mfspr goes next, and whether it does, does not depend on SR, which it may read. -/
theorem answeredPc_execMfspr (rD rA : Reg) (imm : Half) :
    answeredPc (execMfspr rD rA imm { s with sr := v }) = answeredPc (execMfspr rD rA imm s) := by
  have key : ∀ u : State, answeredPc (execMfspr rD rA imm u) = (u.readSpr (u.sprNumber rA imm)).map fun _ => u.pc + 4#32 := by
    intro u
    unfold execMfspr
    cases u.readSpr (u.sprNumber rA imm) <;> rfl
  rw [key, key]
  unfold State.readSpr
  simp only [apply_ite (Option.map _)]
  rfl

/-- Where l.mtspr goes next does not depend on SR. -/
theorem answeredPc_execMtspr (rA rB : Reg) (imm : Half) :
    answeredPc (execMtspr rA rB imm { s with sr := v }) = answeredPc (execMtspr rA rB imm s) := by
  unfold execMtspr State.writeSpr
  simp only [apply_ite answeredPc]
  rfl

/-- Of SR, an instruction reads SR.F at most to decide where to go next (R31, R32). -/
theorem answeredPc_exec (i : Instr) (hF : State.flagF { s with sr := v } = s.flagF) :
    answeredPc (exec i { s with sr := v }) = answeredPc (exec i s) := by
  cases i with
  | lBf N => show answeredPc (branchIf _ N _) = answeredPc (branchIf _ N _); rw [hF]; exact answeredPc_branchIf ..
  | lBnf N => show answeredPc (branchIf (!_) N _) = answeredPc (branchIf (!_) N _); rw [hF]; exact answeredPc_branchIf ..
  | lLbs | lLbz | lLhs | lLhz | lLws | lLwz => unfold exec; exact answeredPc_loadInto ..
  | lSb | lSh | lSw => unfold exec; exact answeredPc_storeFrom _ _ _ _ _ _ _ (fun _ _ _ => rfl)
  | lMfspr => exact answeredPc_execMfspr ..
  | lMtspr => exact answeredPc_execMtspr ..
  | _ => rfl

end StatusReplaced

/-- Settles O24, by the inversion of `exec` and by what of SR an instruction reads to go on. -/
theorem carryWriters : Obligations.CarryWriters := by
  refine ⟨fun i s c hc => ?_, fun i s t hp hadd hmove hown h => ?_, fun i s t b hp h => ?_⟩
  · obtain ⟨rD, v, -, hexec⟩ := exec_of_additionCarry hc
    exact ⟨_, hexec, flagCY_setCY s c⟩
  · rcases exec_flags hp h with hm | ⟨e, he, -⟩ | ⟨-, -, hCY, -⟩ | ⟨c, hc, -⟩ | ⟨-, hCY, -⟩
    · exact absurd hm hmove
    · cases hown.symm.trans he
    · exact hCY
    · cases hadd.symm.trans hc
    · exact hCY
  · have hF : (s.setCY b).flagF = s.flagF := (flags_setCY s b hp).1
    have hpc : answeredPc (exec i s) = some t.pc := (answeredPc_eq_some_iff ..).2 ⟨t, h, rfl⟩
    exact (answeredPc_eq_some_iff ..).1 ((answeredPc_exec s _ i hF).trans hpc)

/-! ### The interrupt enable -/

/-- The external interrupt is taken only where SR.IEE lets it (R33, R276). -/
theorem preemptingInterrupt_eq_external {i : Instr} {s : State}
    (h : preemptingInterrupt i s = some .externalInterrupt) : s.intr = true ∧ s.flagIEE = true := by
  rcases preemptingInterrupt_cases i s with ⟨-, h'⟩ | ⟨-, -, h'⟩ | ⟨-, -, hi, hf, -⟩ | ⟨-, -, -, h'⟩
  · cases h'.symm.trans h
  · cases h'.symm.trans h
  · exact ⟨hi, hf⟩
  · cases h'.symm.trans h

/-- The NMI is taken exactly where it is pending and the instruction raises nothing itself (R277). -/
theorem preemptingInterrupt_eq_nmi_iff (i : Instr) (s : State) :
    preemptingInterrupt i s = some .nonMaskableInterrupt ↔ synchronousCause i s = none ∧ s.nmiPending = true := by
  rcases preemptingInterrupt_cases i s with ⟨hc, h⟩ | ⟨hc, hn, h⟩ | ⟨-, hn, -, -, h⟩ | ⟨-, hn, -, h⟩
  · simp [h, hc]
  · simp [h, hc, hn]
  · simp [h, hn]
  · simp [h, hn]

/-- An instruction's own exception does not depend on SR. -/
theorem synchronousCause_sr (i : Instr) (s : State) (v : Word) :
    synchronousCause i { s with sr := v } = synchronousCause i s := by
  cases i <;> rfl

/-- Every exception entry clears SR.IEE (R33, R270, R310). -/
theorem takeException_flagIEE (s : State) (e : Exception) : (s.takeException e).flagIEE = false := by
  obtain ⟨-, -, hsr, -⟩ := takeException_fields s e
  exact (flags_of_sr_zero hsr).2.2

/-- The environment moves no field of SR to another bit (R296). -/
theorem applyMoves_statusBits (s : State) (moves : List EnvMove) :
    (s.applyMoves moves).platform.statusBits = s.platform.statusBits := by
  induction moves generalizing s with
  | nil => rfl
  | cons m ms ih => exact (ih _).trans (by rw [applyMove_platform])

theorem afterMoves_statusBits (s : State) : s.afterMoves.platform.statusBits = s.platform.statusBits := by
  unfold State.afterMoves
  split
  · rfl
  · exact applyMoves_statusBits _ _

/-- A cycle that has a next state entered an exception, or ran the decoded instruction (R262). -/
theorem cycle_next {s t : State} (h : cycle s = .next t) :
    (∃ e, t = s.takeException e) ∨ ∃ i, s.decoded = .ok i ∧ exec i s = .next t := by
  have enters : ∀ e, cycle s = .next (s.takeException e) → ∃ e, t = s.takeException e :=
    fun e h' => ⟨e, by cases h'.symm.trans h; rfl⟩
  rcases cycle_cases s with ⟨-, h'⟩ | ⟨-, -, h'⟩ | ⟨-, -, -, -, h'⟩ |
      ⟨-, -, -, -, ⟨_, -, h'⟩ | ⟨_, _, -, -, h'⟩ | ⟨i, hd, -, h'⟩⟩
  · exact .inl (enters _ h')
  · exact .inl (enters _ h')
  · cases h'.symm.trans h
  · exact .inl (enters _ h')
  · exact .inl (enters _ h')
  · exact .inr ⟨i, hd, h'.symm.trans h⟩

/-- An instruction that turns SR.IEE on moves a whole register into SR (R33). -/
theorem movesWholeStatus_of_flagIEE {i : Instr} {s t : State} (hp : s.platform.statusBits.wellFormed = true)
    (h : exec i s = .next t) (hs : s.flagIEE = false) (ht : t.flagIEE = true) : MovesWholeStatus i := by
  rcases exec_flags hp h with hm | ⟨e, -, rfl⟩ | ⟨-, -, -, hI⟩ | ⟨-, -, -, hI⟩ | ⟨-, -, hI⟩
  · exact hm
  · cases (takeException_flagIEE s e).symm.trans ht
  all_goals cases (hI.trans hs).symm.trans ht

/-- Settles O25: a step enters an exception, which clears SR.IEE, or runs one instruction. -/
theorem interruptEnableRule : Obligations.InterruptEnableRule := by
  refine ⟨fun i s => preemptingInterrupt_eq_external, fun i s v => ⟨synchronousCause_sr i s v, ?_⟩,
    (flags_of_sr_zero rfl).2.2, takeException_flagIEE, fun s t hp h hoff hon => ?_⟩
  · rw [preemptingInterrupt_eq_nmi_iff, preemptingInterrupt_eq_nmi_iff, synchronousCause_sr]
  · rcases cycle_next h with ⟨e, rfl⟩ | ⟨i, hd, hexec⟩
    · cases (takeException_flagIEE _ e).symm.trans hon
    · exact ⟨i, hd, movesWholeStatus_of_flagIEE (afterMoves_statusBits s ▸ hp) hexec hoff hon, hexec⟩

/-! ### Reset -/

/-- While `rst_i` is active a cycle is the reset entry (R262 test 1). -/
theorem cycle_of_rst {s : State} (h : s.rst = true) : cycle s = .next (s.takeException .reset) := if_pos h

/-- Settles O12: the step is the reset entry. -/
theorem resetStepSetsStatedValues : Obligations.ResetStepSetsStatedValues := by
  refine ⟨fun s hrst => ?_, rfl, rfl, rfl, ?_⟩
  · obtain ⟨hepc, hesr, hsr, hpc, -⟩ := takeException_fields s.afterMoves .reset
    obtain ⟨hF, hCY, hIEE⟩ := flags_of_sr_zero hsr
    exact ⟨_, cycle_of_rst hrst, hepc, hesr, hsr, hF, hCY, hIEE, hpc⟩
  · obtain ⟨hF, hCY, hIEE⟩ := flags_of_sr_zero (s := State.reset) rfl
    exact ⟨hF, hCY, hIEE, rfl⟩

end Sys2Proof.Machine

namespace Sys2Proof

/-! ### The rows of the opcode table, by their major opcode (R116) -/

/-- A word that a row selects has the major opcode of the row's pattern, where the row's mask covers it. -/
theorem field_major_of_selects {r : Row} {w : Word} (hm : field r.mask 26 6 = BitVec.allOnes 6)
    (h : r.selects w = true) : field w 26 6 = field r.pattern 26 6 := by
  rw [← eq_of_beq h, field, field, BitVec.extractLsb'_and]
  exact (hm ▸ BitVec.and_allOnes).symm

/-- A row with a shift selector looks at the whole major opcode. -/
theorem field_major_selectorMask {bits : Word} (lo : Nat) (h : field bits 26 6 = BitVec.allOnes 6) :
    field (selectorMask bits lo) 26 6 = BitVec.allOnes 6 := by
  rw [selectorMask, field_or, h, BitVec.allOnes_or]

/-- A shift selector lies below the major opcode. -/
theorem field_major_selectorPattern (bits : Word) (v : BitVec 2) {lo : Nat} (h : lo ≤ 14) :
    field (selectorPattern bits v lo) 26 6 = field bits 26 6 := by
  rw [selectorPattern_eq, field_or, field_place_apart v 26 lo 6 (by omega)]
  exact BitVec.or_zero

/-- Every row looks at the whole major opcode. -/
theorem field_major_mask {e : Encoding} {r : Row} (h : r ∈ opcodeRows e) : field r.mask 26 6 = BitVec.allOnes 6 := by
  have harith : ∀ q ∈ arithRows, field q.mask 26 6 = BitVec.allOnes 6 := by decide
  have hshift : ∀ q ∈ shiftRows e, field q.mask 26 6 = BitVec.allOnes 6 := by
    simp [shiftRows, field_major_selectorMask, show field 0xFC00000F#32 26 6 = BitVec.allOnes 6 from rfl,
      show field 0xFC000000#32 26 6 = BitVec.allOnes 6 from rfl]
  have hcompare : ∀ q ∈ compareRows, field q.mask 26 6 = BitVec.allOnes 6 := by decide
  have hbranch : ∀ q ∈ branchRows, field q.mask 26 6 = BitVec.allOnes 6 := by decide
  have hloadStore : ∀ q ∈ loadStoreRows, field q.mask 26 6 = BitVec.allOnes 6 := by decide
  have hsystem : ∀ q ∈ systemRows e, field q.mask 26 6 = BitVec.allOnes 6 := by simp [systemRows, field]
  simp only [opcodeRows, List.mem_append] at h
  rcases h with ((((h | h) | h) | h) | h) | h
  exacts [harith r h, hshift r h, hcompare r h, hbranch r h, hloadStore r h, hsystem r h]

/-! ### The compares in the opcode table -/

/-- The major opcodes of the register and of the immediate compares (R116). -/
def compareMajors : List (BitVec 6) := [0x39, 0x2f]

/-- l.nop takes no other instruction's major opcode (R116). -/
theorem nopMajor_not_mem_otherMajors {e : Encoding} (he : e.wellFormed = true) : e.nopMajor ∉ otherMajors := by
  simp only [Encoding.wellFormed, Bool.and_eq_true] at he
  simpa using he.2

/-- The compares' major opcodes are among those that R116 lists. -/
theorem compareMajors_subset_otherMajors : compareMajors ⊆ otherMajors := by decide

/-- A row with a compare's major opcode is a compare: the shift selectors lie below the major opcode, and l.nop takes no
other instruction's (R116). -/
theorem mem_compareRows_of_major {e : Encoding} (he : e.wellFormed = true) {r : Row} (h : r ∈ opcodeRows e)
    (hmajor : field r.pattern 26 6 ∈ compareMajors) : r ∈ compareRows := by
  obtain ⟨-, hreg, -, himm⟩ := Laws.EncodedWordSelected.selector_bounds he
  have harith : ∀ q ∈ arithRows, field q.pattern 26 6 ∉ compareMajors := by decide
  have hshift : ∀ q ∈ shiftRows e, field q.pattern 26 6 ∉ compareMajors := by
    simp only [shiftRows, List.forall_mem_cons, field_major_selectorPattern _ _ himm,
      field_major_selectorPattern _ _ (Nat.le_trans hreg (by decide : 9 ≤ 14))]
    decide
  have hbranch : ∀ q ∈ branchRows, field q.pattern 26 6 ∉ compareMajors := by decide
  have hloadStore : ∀ q ∈ loadStoreRows, field q.pattern 26 6 ∉ compareMajors := by decide
  have hnop : field (e.nopMajor ++ 0#26 : BitVec 32) 26 6 ∉ compareMajors := by
    rw [← Laws.EncodedWordSelected.place_major, field_place_same _ _ (by decide)]
    exact fun hmem => nopMajor_not_mem_otherMajors he (compareMajors_subset_otherMajors hmem)
  have hsystem : ∀ q ∈ systemRows e, field q.pattern 26 6 ∉ compareMajors := by
    simp only [systemRows, List.forall_mem_cons, hnop]
    decide
  simp only [opcodeRows, List.mem_append] at h
  rcases h with ((((h | h) | h) | h) | h) | h
  exacts [absurd hmajor (harith r h), absurd hmajor (hshift r h), h, absurd hmajor (hbranch r h),
    absurd hmajor (hloadStore r h), absurd hmajor (hsystem r h)]

/-- No word fits two compares: their rows look at the same bits, each for another pattern (R117). -/
theorem compareRows_selects_unique {q r : Row} (hq : q ∈ compareRows) (hr : r ∈ compareRows) {w : Word}
    (hqw : q.selects w = true) (hrw : r.selects w = true) : q = r := by
  have hmask : ∀ p ∈ compareRows, p.mask = 0xFFE00000#32 := by decide
  have hnodup : (compareRows.map Row.pattern).Nodup := by decide
  refine List.inj_on_of_nodup_map hnodup hq hr ?_
  rw [← eq_of_beq hqw, ← eq_of_beq hrw, hmask q hq, hmask r hr]

/-- A word that the row of a compare selects is that compare, whatever the encoding parameters (R101). -/
theorem decodeWord_of_mem_compareRows {e : Encoding} (he : e.wellFormed = true) {r : Row} (hr : r ∈ compareRows)
    {w : Word} (hw : r.selects w = true) : decodeWord e w = .ok (r.build w) := by
  have hrow : r ∈ opcodeRows e := by simp [opcodeRows, hr]
  have hmajor : ∀ p ∈ compareRows, field p.pattern 26 6 ∈ compareMajors := by decide
  rcases decodeWord_cases e w with ⟨q, hq, hqw, hd⟩ | ⟨hnone, -⟩
  · have hsame : field q.pattern 26 6 = field r.pattern 26 6 :=
      (field_major_of_selects (field_major_mask hq) hqw).symm.trans (field_major_of_selects (field_major_mask hrow) hw)
    have hqc : q ∈ compareRows := mem_compareRows_of_major he hq (hsame ▸ hmajor r hr)
    rw [hd, compareRows_selects_unique hqc hr hqw hw]
  · cases (hnone r hrow).symm.trans hw

end Sys2Proof

namespace Sys2Proof.Machine

/-! ### The compares -/

/-- What a compare does (R170): it writes SR.F and falls through, and everything else is as before. -/
theorem setsFlag_setF_advance (s : State) (b : Bool) : SetsFlag s (s.setF b).advance b :=
  ⟨flagF_setF s b, setF_keepsOther s b, fun _ => rfl, rfl, fun _ => rfl, ⟨rfl, rfl, rfl⟩, ⟨rfl, rfl, rfl, rfl⟩⟩

/-- An instruction that compares goes on with what it found in SR.F. -/
theorem exec_setsFlag_of_comparison {i : Instr} {s : State} {b : Bool} (h : comparison i s = some b) :
    ∃ t, exec i s = .next t ∧ SetsFlag s t b :=
  ⟨_, exec_of_comparison h, setsFlag_setF_advance s b⟩

/-- A register compare from its row of the opcode table and what it finds. -/
theorem registerCompare_of_row {pattern : Word} {mk : Reg → Reg → Instr} {holds : Word → Word → Bool} (n : Nat)
    (hrow : compareRows[n]? = some ⟨0xFFE00000#32, pattern, fun w => mk (fieldA w) (fieldB w)⟩)
    (hfinds : ∀ rA rB s, comparison (mk rA rB) s = some (holds (s.reg rA) (s.reg rB))) :
    RegisterCompare pattern mk holds :=
  ⟨fun _ _ he hw => decodeWord_of_mem_compareRows he (List.mem_of_getElem? hrow) (beq_iff_eq.2 hw),
    fun rA rB s => exec_setsFlag_of_comparison (hfinds rA rB s)⟩

/-- Settles O39: each register compare has its row in the opcode table, and finds its relation (R171 to R189). -/
theorem registerCompares : Obligations.RegisterCompares :=
  ⟨registerCompare_of_row 0 rfl fun _ _ _ => rfl,
    registerCompare_of_row 2 rfl fun _ _ _ => rfl,
    registerCompare_of_row 4 rfl fun _ _ _ => rfl,
    registerCompare_of_row 6 rfl fun _ _ _ => rfl,
    registerCompare_of_row 8 rfl fun _ _ _ => rfl,
    registerCompare_of_row 10 rfl fun _ _ _ => rfl,
    registerCompare_of_row 12 rfl fun _ _ _ => rfl,
    registerCompare_of_row 14 rfl fun _ _ _ => rfl,
    registerCompare_of_row 16 rfl fun _ _ _ => rfl,
    registerCompare_of_row 18 rfl fun _ _ _ => congrArg some (relationHolds_ne ..).symm⟩

end Sys2Proof.Machine

namespace Sys2Proof.Machine

/-! ### The carry out of an addition (R152) -/

/-- The exact sum fits 33 bits: two addends below `2^32` and a carry in of at most 1. -/
theorem sum33_le (a b : Word) (c : Bool) : sum33 a b c ≤ 2 ^ 33 - 1 := by
  have ha : a.toNat < 2 ^ 32 := a.isLt
  have hb : b.toNat < 2 ^ 32 := b.isLt
  have hc : c.toNat ≤ 1 := c.toNat_le
  unfold sum33
  omega

@[simp] theorem sumResult_toNat (a b : Word) (c : Bool) : (sumResult a b c).toNat = sum33 a b c % 2 ^ 32 :=
  BitVec.toNat_ofNat ..

/-- A register other than register 0 reads what was written to it, whether or not register 0 is hard-wired (R22, R23). -/
theorem reg_setReg_same (s : State) {r : Reg} (hr : r ≠ 0) (v : Word) : (s.setReg r v).reg r = v := by
  rw [reg_setReg, if_neg fun h => hr h.2, if_pos rfl]

/-- What the three additions share: SR.CY says whether the exact sum reaches `2^32`, the destination takes the sum modulo
`2^32`, and no other bit of SR changes. -/
theorem addInto_carry_and_result (rD : Reg) (a b : Word) (c : Bool) (s : State) :
    ∃ t, addInto rD a b c s = .next t ∧ KeepsStatusBut s.platform.statusBits.cy s t ∧
      t.flagCY = decide (sum33 a b c ≥ 2 ^ 32) ∧ (rD ≠ 0 → (t.reg rD).toNat = sum33 a b c % 2 ^ 32) := by
  refine ⟨_, rfl, setCY_keepsOther s _, flagCY_setCY s _, fun hD => ?_⟩
  rw [reg_advance, reg_setReg_same _ hD, sumResult_toNat]

/-- Settles O34: l.add, l.addi and l.addc are `addInto` with carry in 0, 0 and SR.CY (R141 to R143, R152). -/
theorem carryOutIsBit32 : Obligations.CarryOutIsBit32 := fun rD rA rB imm s =>
  ⟨sum33_le,
    addInto_carry_and_result rD (s.reg rA) (s.reg rB) false s,
    addInto_carry_and_result rD (s.reg rA) (imm.signExtend 32) false s,
    addInto_carry_and_result rD (s.reg rA) (s.reg rB) s.flagCY s⟩

end Sys2Proof.Machine

namespace Sys2Proof.Machine

/-! ### The immediate compares -/

/-- An immediate compare from its row of the opcode table and what it finds of the sign-extended immediate (R192). The
row looks at bits 31 to 21, and register A and the immediate take up the rest: no bit of the word is ignored. -/
theorem immediateCompare_of_row {pattern : Word} {mk : Reg → Half → Instr} {holds : Word → Word → Bool} (n : Nat)
    (hrow : compareRows[n]? = some ⟨0xFFE00000#32, pattern, fun w => mk (fieldA w) (fieldImm w)⟩)
    (hfinds : ∀ rA imm s, comparison (mk rA imm) s = some (holds (s.reg rA) (imm.signExtend 32))) :
    ImmediateCompare pattern mk holds := by
  refine ⟨fun e w he hw => ?decodes, fun rA imm s => exec_setsFlag_of_comparison (hfinds rA imm s)⟩
  case decodes =>
    have hsel : Row.selects ⟨0xFFE00000#32, pattern, fun w => mk (fieldA w) (fieldImm w)⟩ w = true := beq_iff_eq.2 hw
    exact decodeWord_of_mem_compareRows he (List.mem_of_getElem? hrow) hsel

/-- Settles O40: each immediate compare stands in the opcode table behind its register form, and finds its relation of
x[rA] and the sign-extended immediate (R172 to R190, R192). -/
theorem immediateCompares : Obligations.ImmediateCompares :=
  ⟨immediateCompare_of_row 1 rfl fun _ _ _ => rfl,
    immediateCompare_of_row 3 rfl fun _ _ _ => rfl,
    immediateCompare_of_row 5 rfl fun _ _ _ => rfl,
    immediateCompare_of_row 7 rfl fun _ _ _ => rfl,
    immediateCompare_of_row 9 rfl fun _ _ _ => rfl,
    immediateCompare_of_row 11 rfl fun _ _ _ => rfl,
    immediateCompare_of_row 13 rfl fun _ _ _ => rfl,
    immediateCompare_of_row 15 rfl fun _ _ _ => rfl,
    immediateCompare_of_row 17 rfl fun _ _ _ => rfl,
    immediateCompare_of_row 19 rfl fun _ _ _ => congrArg some (relationHolds_ne ..).symm⟩

end Sys2Proof.Machine

namespace Sys2Proof

/-! ### The branches and jumps in the opcode table -/

/-- A word that a row selects decodes as that row builds it, where no row before it in the table has its major opcode
(R101). -/
theorem decodeWord_of_first_with_major {e : Encoding} {r : Row} {before after : List Row}
    (hrows : opcodeRows e = before ++ r :: after)
    (hbefore : ∀ q ∈ before, field q.pattern 26 6 ≠ field r.pattern 26 6) {w : Word} (hw : r.selects w = true) :
    decodeWord e w = .ok (r.build w) := by
  have hmask : ∀ q ∈ before ++ r :: after, field q.mask 26 6 = BitVec.allOnes 6 :=
    fun q hq => field_major_mask (hrows ▸ hq)
  have hmajor : field w 26 6 = field r.pattern 26 6 := field_major_of_selects (hmask r (by simp)) hw
  have hfind : (opcodeRows e).find? (·.selects w) = some r := by
    refine List.find?_eq_some_iff_append.2 ⟨hw, before, after, hrows, fun q hq => ?_⟩
    have hq' : q.selects w ≠ true := fun hqw =>
      hbefore q hq ((field_major_of_selects (hmask q (by simp [hq])) hqw).symm.trans hmajor)
    simpa using hq'
  rw [decodeWord, hfind]

/-- The rows that stand before the branches and jumps have none of their major opcodes (R116): a shift selector lies
below the major opcode, and the other selectors are fixed. -/
theorem field_major_ne_of_before_branchRows {e : Encoding} (he : e.wellFormed = true) {q r : Row}
    (hq : q ∈ arithRows ++ shiftRows e ++ compareRows) (hr : r ∈ branchRows) :
    field q.pattern 26 6 ≠ field r.pattern 26 6 := by
  obtain ⟨-, hreg, -, himm⟩ := Laws.EncodedWordSelected.selector_bounds he
  have harith : ∀ q ∈ arithRows, ∀ r ∈ branchRows, field q.pattern 26 6 ≠ field r.pattern 26 6 := by decide
  have hshift : ∀ q ∈ shiftRows e, ∀ r ∈ branchRows, field q.pattern 26 6 ≠ field r.pattern 26 6 := by
    simp only [shiftRows, List.forall_mem_cons, field_major_selectorPattern _ _ himm,
      field_major_selectorPattern _ _ (Nat.le_trans hreg (by decide : 9 ≤ 14))]
    decide
  have hcompare : ∀ q ∈ compareRows, ∀ r ∈ branchRows, field q.pattern 26 6 ≠ field r.pattern 26 6 := by decide
  simp only [List.mem_append] at hq
  rcases hq with (hq | hq) | hq
  exacts [harith q hq r hr, hshift q hq r hr, hcompare q hq r hr]

/-- A word that the row of a branch or jump selects is that instruction, whatever the encoding parameters (R101). -/
theorem decodeWord_of_mem_branchRows {e : Encoding} (he : e.wellFormed = true) {r : Row} (hr : r ∈ branchRows) {w : Word}
    (hw : r.selects w = true) : decodeWord e w = .ok (r.build w) := by
  have hdistinct : branchRows.Pairwise fun p q => field p.pattern 26 6 ≠ field q.pattern 26 6 := by decide
  obtain ⟨earlier, later, hsplit⟩ := List.append_of_mem hr
  have hrows : opcodeRows e = (arithRows ++ shiftRows e ++ compareRows ++ earlier) ++
      r :: (later ++ loadStoreRows ++ systemRows e) := by
    simp [opcodeRows, hsplit]
  refine decodeWord_of_first_with_major hrows (fun q hq => ?_) hw
  rcases List.mem_append.1 hq with hq | hq
  · exact field_major_ne_of_before_branchRows he hq hr
  · rw [hsplit] at hdistinct
    exact (List.pairwise_append.1 hdistinct).2.2 q hq r List.mem_cons_self

/-- A PC-relative branch or jump from its row of the opcode table, the `n`-th of the six: a word with its major opcode is
the instruction with the offset in bits 25..0 (R113). -/
theorem decodeWord_of_offsetRow {pattern : Word} {mk : BitVec 26 → Instr} (n : Nat)
    (hrow : branchRows[n]? = some ⟨0xFC000000#32, pattern, fun w => mk (fieldOffset w)⟩) (e : Encoding) (w : Word)
    (he : e.wellFormed = true) (hw : w &&& 0xFC000000#32 = pattern) :
    decodeWord e w = .ok (mk (w.extractLsb' 0 26)) :=
  decodeWord_of_mem_branchRows he (List.mem_of_getElem? hrow) (beq_iff_eq.2 hw)

end Sys2Proof

namespace Sys2Proof.Machine

/-! ### The branches and jumps -/

/-- A jump writes `pc` and nothing else (R203, R206). -/
theorem changesPcOnly_jumpTo (s : State) (target : Word) : ChangesPcOnly s (s.jumpTo target) target :=
  ⟨rfl, fun _ => rfl, rfl, fun _ => rfl, ⟨rfl, rfl, rfl⟩, ⟨rfl, rfl, rfl, rfl⟩⟩

/-- A branch is a jump, to its target where it is taken and to the next instruction where it is not (R200). -/
theorem branchIf_eq_jumpTo (taken : Bool) (N : BitVec 26) (s : State) :
    branchIf taken N s = .next (s.jumpTo (if taken = true then s.branchTarget N else s.pc + 4#32)) := by
  cases taken <;> rfl

/-- l.bf is taken where SR.F is 1 (R201). -/
theorem exec_lBf (N : BitVec 26) (s : State) :
    exec (.lBf N) s = .next (s.jumpTo (if s.flagF = true then s.branchTarget N else s.pc + 4#32)) :=
  branchIf_eq_jumpTo s.flagF N s

/-- l.bnf is taken where SR.F is 0 (R202). -/
theorem exec_lBnf (N : BitVec 26) (s : State) :
    exec (.lBnf N) s = .next (s.jumpTo (if s.flagF = true then s.pc + 4#32 else s.branchTarget N)) := by
  have h : exec (.lBnf N) s = _ := branchIf_eq_jumpTo (!s.flagF) N s
  rw [h]
  cases s.flagF <;> rfl

/-- What every register reads after a link: register 9 the next instruction's address, whether or not register 0 is
hard-wired, and the others what they read before (R24). -/
theorem reg_link (s : State) (r : Reg) : s.link.reg r = if r = 9 then s.pc + 4#32 else s.reg r := by
  rw [State.link, reg_setReg]
  by_cases hzero : s.platform.r0Zero = true ∧ r = 0
  · obtain ⟨hr0, rfl⟩ := hzero
    simp [State.reg, hr0]
  · rw [if_neg hzero]
    rfl

/-- A link and a jump write register 9 and `pc`, and leave SR and everything else alone (R204, R205). -/
theorem keepsAllElse_link_jumpTo (s : State) (target : Word) : KeepsAllElse s (s.link.jumpTo target) :=
  ⟨fun _ => rfl, ⟨rfl, rfl, rfl⟩, ⟨rfl, rfl, rfl, rfl⟩⟩

/-- Settles O41: each branch has its row in the opcode table, and is a jump to where SR.F sends it. -/
theorem branchesOnFlag : Obligations.BranchesOnFlag :=
  ⟨decodeWord_of_offsetRow 0 rfl, decodeWord_of_offsetRow 1 rfl, fun N s =>
    ⟨⟨_, exec_lBf N s, changesPcOnly_jumpTo s _⟩, ⟨_, exec_lBnf N s, changesPcOnly_jumpTo s _⟩⟩⟩

/-- Settles O42: each jump has its row in the opcode table; l.j is a jump, l.jal a link and a jump. -/
theorem relativeJumps : Obligations.RelativeJumps :=
  ⟨decodeWord_of_offsetRow 2 rfl, decodeWord_of_offsetRow 3 rfl, fun N s =>
    ⟨⟨s.jumpTo (s.branchTarget N), rfl, changesPcOnly_jumpTo s _⟩,
      ⟨s.link.jumpTo (s.branchTarget N), rfl, rfl, reg_link s, rfl, keepsAllElse_link_jumpTo s _⟩⟩⟩

/-- A branch or jump writes registers and `pc` alone, and what it writes there is the same with any other memory `m` and
any other SR `v`, where it is not a branch or `v` has the same SR.F (R209). -/
theorem exec_of_isJump {i : Instr} (hi : IsJump i) (s : State) :
    ∃ regs pc, ∀ (m : Memory) (v : Word),
      ((∀ N, i ≠ .lBf N) ∧ (∀ N, i ≠ .lBnf N)) ∨ State.flagF { s with sr := v } = s.flagF →
      exec i { s with mem := m, sr := v } = .next { s with regs := regs, pc := pc, mem := m, sr := v } := by
  rcases hi with ⟨N, rfl⟩ | ⟨N, rfl⟩ | ⟨N, rfl⟩ | ⟨N, rfl⟩ | ⟨rB, rfl⟩ | ⟨rB, rfl⟩
  · refine ⟨s.regs, if s.flagF = true then s.branchTarget N else s.pc + 4#32, fun m v h => ?_⟩
    have hF : State.flagF { s with mem := m, sr := v } = s.flagF := h.resolve_left fun hne => hne.1 N rfl
    rw [exec_lBf, hF]
    rfl
  · refine ⟨s.regs, if s.flagF = true then s.pc + 4#32 else s.branchTarget N, fun m v h => ?_⟩
    have hF : State.flagF { s with mem := m, sr := v } = s.flagF := h.resolve_left fun hne => hne.2 N rfl
    rw [exec_lBnf, hF]
    rfl
  · exact ⟨s.regs, s.branchTarget N, fun _ _ _ => rfl⟩
  · exact ⟨s.link.regs, s.branchTarget N, fun _ _ _ => rfl⟩
  · exact ⟨s.link.regs, s.reg rB, fun _ _ _ => rfl⟩
  · exact ⟨s.regs, s.reg rB, fun _ _ _ => rfl⟩

/-- None of the six raises an exception of its own (R209). -/
theorem synchronousCause_of_isJump {i : Instr} (hi : IsJump i) (s : State) : synchronousCause i s = none := by
  rcases hi with ⟨_, rfl⟩ | ⟨_, rfl⟩ | ⟨_, rfl⟩ | ⟨_, rfl⟩ | ⟨_, rfl⟩ | ⟨_, rfl⟩ <;> rfl

/-- Settles O45: the state that a jump answers is its own but for registers and `pc`, which neither memory nor SR.CY
decides, nor SR.F where the instruction is not a branch. -/
theorem jumpsTouchNoMemoryOrFlags : Obligations.JumpsTouchNoMemoryOrFlags := by
  intro i s hi
  obtain ⟨regs, pc, hexec⟩ := exec_of_isJump hi s
  refine ⟨{ s with regs := regs, pc := pc }, hexec s.mem s.sr (.inr rfl), synchronousCause_of_isJump hi s, rfl, rfl,
    fun m => hexec m s.sr (.inr rfl), fun hp b => ?otherCarry, fun hbf hbnf b => ?otherFlag⟩
  case otherCarry =>
    have hF : (s.setCY b).flagF = s.flagF := (flags_setCY s b hp).1
    exact hexec s.mem _ (.inr hF)
  case otherFlag => exact hexec s.mem _ (.inl ⟨hbf, hbnf⟩)

end Sys2Proof.Machine

namespace Sys2Proof

/-! ### Major opcode 0x08 in the opcode table -/

/-- The row of an instruction with major opcode 0x08, told from the others by `insn[25:16]` (R117). -/
def systemSelectorRow (selector : BitVec 10) (mk : Half → Instr) : Row :=
  ⟨0xFFFF0000#32, 0x08#6 ++ selector ++ 0#16, fun w => mk (fieldImm w)⟩

/-- The table ends with the rows of l.sys and l.trap. -/
theorem systemRows_eq_append (e : Encoding) :
    systemRows e = (systemRows e).take 4 ++ [systemSelectorRow 0x000#10 .lSys, systemSelectorRow 0x100#10 .lTrap] := rfl

/-- The mask of l.sys and l.trap keeps the major opcode and `insn[25:16]`, and clears the immediate. -/
theorem and_systemSelectorMask (w : Word) : w &&& 0xFFFF0000#32 = field w 26 6 ++ field w 16 10 ++ 0#16 := by
  have hsplit : field w 26 6 ++ field w 16 10 ++ field w 0 16 = w := by
    rw [field, field, field, BitVec.extractLsb'_append_extractLsb'_eq_extractLsb' (rfl : 26 = 16 + 10),
      BitVec.extractLsb'_append_extractLsb'_eq_extractLsb' (rfl : 16 = 0 + 16)]
    exact BitVec.extractLsb'_eq_self
  calc w &&& 0xFFFF0000#32
      = (field w 26 6 ++ field w 16 10 ++ field w 0 16) &&& (BitVec.allOnes 6 ++ BitVec.allOnes 10 ++ 0#16) := by
        rw [hsplit]; rfl
    _ = field w 26 6 ++ field w 16 10 ++ 0#16 := by
        simp only [BitVec.and_append, BitVec.and_allOnes, BitVec.and_zero]

/-- Of the words with major opcode 0x08, the row of a selector selects those that have it in `insn[25:16]`. -/
theorem systemSelectorRow_selects_iff {w : Word} (hw : field w 26 6 = 0x08#6) (selector : BitVec 10)
    (mk : Half → Instr) : (systemSelectorRow selector mk).selects w = true ↔ field w 16 10 = selector := by
  rw [Row.selects, systemSelectorRow, beq_iff_eq, and_systemSelectorMask, hw, BitVec.append_left_inj,
    BitVec.append_right_inj]

/-- The only rows with major opcode 0x08 are those of l.sys and l.trap: a shift selector lies below the major opcode, and
l.nop takes no other instruction's (R116). -/
theorem eq_systemSelectorRow_of_major {e : Encoding} (he : e.wellFormed = true) {r : Row} (h : r ∈ opcodeRows e)
    (hmajor : field r.pattern 26 6 = 0x08#6) :
    r = systemSelectorRow 0x000#10 .lSys ∨ r = systemSelectorRow 0x100#10 .lTrap := by
  obtain ⟨-, hreg, -, himm⟩ := Laws.EncodedWordSelected.selector_bounds he
  have harith : ∀ q ∈ arithRows, field q.pattern 26 6 ≠ 0x08#6 := by decide
  have hshift : ∀ q ∈ shiftRows e, field q.pattern 26 6 ≠ 0x08#6 := by
    simp only [shiftRows, List.forall_mem_cons, field_major_selectorPattern _ _ himm,
      field_major_selectorPattern _ _ (Nat.le_trans hreg (by decide : 9 ≤ 14))]
    decide
  have hcompare : ∀ q ∈ compareRows, field q.pattern 26 6 ≠ 0x08#6 := by decide
  have hbranch : ∀ q ∈ branchRows, field q.pattern 26 6 ≠ 0x08#6 := by decide
  have hloadStore : ∀ q ∈ loadStoreRows, field q.pattern 26 6 ≠ 0x08#6 := by decide
  have hnop : field (e.nopMajor ++ 0#26 : BitVec 32) 26 6 ≠ 0x08#6 := by
    rw [← Laws.EncodedWordSelected.place_major, field_place_same _ _ (by decide)]
    exact fun hmem => nopMajor_not_mem_otherMajors he (hmem ▸ by decide)
  have hsystem : ∀ q ∈ (systemRows e).take 4, field q.pattern 26 6 ≠ 0x08#6 := by
    simp only [systemRows, List.take_succ_cons, List.take_zero, List.forall_mem_cons, ne_eq, hnop]
    decide
  rw [opcodeRows, systemRows_eq_append] at h
  simp only [List.mem_append] at h
  rcases h with ((((h | h) | h) | h) | h) | h | h
  exacts [absurd hmajor (harith r h), absurd hmajor (hshift r h), absurd hmajor (hcompare r h),
    absurd hmajor (hbranch r h), absurd hmajor (hloadStore r h), absurd hmajor (hsystem r h), by simpa using h]

/-- Within major opcode 0x08, `insn[25:16]` alone says what a word decodes as (R247). -/
theorem decodeWord_of_major_system {e : Encoding} (he : e.wellFormed = true) {w : Word} (hw : field w 26 6 = 0x08#6) :
    decodeWord e w =
      if field w 16 10 = 0x000#10 then .ok (.lSys (field w 0 16))
      else if field w 16 10 = 0x100#10 then .ok (.lTrap (field w 0 16))
      else .error (.unlistedSystem (field w 16 10)) := by
  rcases decodeWord_cases e w with ⟨r, hr, hrw, hd⟩ | ⟨hnone, hd⟩
  · have hmajor : field r.pattern 26 6 = 0x08#6 :=
      (field_major_of_selects (field_major_mask hr) hrw).symm.trans hw
    rcases eq_systemSelectorRow_of_major he hr hmajor with rfl | rfl
    · rw [hd, if_pos ((systemSelectorRow_selects_iff hw _ _).1 hrw)]
      rfl
    · have htrap : field w 16 10 = 0x100#10 := (systemSelectorRow_selects_iff hw _ _).1 hrw
      rw [hd, htrap]
      rfl
  · have hne : ∀ {selector mk}, systemSelectorRow selector mk ∈ opcodeRows e → field w 16 10 ≠ selector :=
      fun hr hsel => Bool.false_ne_true ((hnone _ hr).symm.trans ((systemSelectorRow_selects_iff hw _ _).2 hsel))
    have hsys : systemSelectorRow 0x000#10 .lSys ∈ opcodeRows e := List.mem_of_getElem? (i := 56) rfl
    have htrap : systemSelectorRow 0x100#10 .lTrap ∈ opcodeRows e := List.mem_of_getElem? (i := 57) rfl
    rw [hd, if_neg (hne hsys), if_neg (hne htrap), rejectReason, if_pos hw]

/-- Settles O6: the four words have major opcode 0x08 and another selector. -/
theorem onlyTwoSystemSelectors : Obligations.OnlyTwoSystemSelectors := by
  refine fun c hc => ⟨fun w hw => decodeWord_of_major_system hc hw, fun w hmem i => ?_⟩
  have hselector : field w 26 6 = 0x08#6 ∧ field w 16 10 ≠ 0x000#10 ∧ field w 16 10 ≠ 0x100#10 := by
    simp only [List.mem_cons, List.not_mem_nil, or_false] at hmem
    rcases hmem with rfl | rfl | rfl | rfl <;> decide
  obtain ⟨hw, hsys, htrap⟩ := hselector
  rw [decodeWord_of_major_system hc hw, if_neg hsys, if_neg htrap]
  exact nofun

end Sys2Proof

namespace Sys2Proof

/-- Where no row of the opcode table selects a word, the decoder rejects it (R118). -/
theorem decodeWord_of_unmatched {e : Encoding} {w : Word} (h : ∀ r ∈ opcodeRows e, w &&& r.mask ≠ r.pattern) :
    decodeWord e w = .error (rejectReason e w) := by
  rcases decodeWord_cases e w with ⟨r, hr, hsel, -⟩ | ⟨-, herror⟩
  · exact absurd (beq_iff_eq.1 hsel) (h r hr)
  · exact herror

end Sys2Proof

namespace Sys2Proof.Machine

/-! ### Exception entry -/

/-- Every exception but reset has its vector relative to ISR_VECTOR (R71, R260). -/
theorem vectorAddress_of_ne_reset (p : Platform) {e : Exception} (he : e ≠ .reset) :
    vectorAddress p e = p.isrVector + vectorOffset e := by
  rw [vectorAddress, if_neg he]

/-- The entry is the four assignments of R270. -/
theorem entered_enter (s : State) (e : Exception) : Entered s (s.enter e) e s.nmiPending :=
  ⟨rfl, rfl, rfl, rfl, rfl, reg_enter s e, fun _ => rfl, ⟨rfl, rfl, rfl, rfl⟩⟩

/-- Taking an exception is its entry and nothing else, but for reset and the NMI (R270). -/
theorem takeException_eq_enter (s : State) {e : Exception} (hreset : e ≠ .reset) (hnmi : e ≠ .nonMaskableInterrupt) :
    s.takeException e = s.enter e := by
  cases e with
  | reset => exact absurd rfl hreset
  | nonMaskableInterrupt => exact absurd rfl hnmi
  | illegalInstruction | externalInterrupt | syscall | trap | busError => rfl

/-- What taking an exception other than reset adds to its entry: the NMI clears the latch (R277). -/
theorem takeException_eq_enter_with_latch (s : State) {e : Exception} (hreset : e ≠ .reset) :
    s.takeException e = { s.enter e with nmiPending := if e = .nonMaskableInterrupt then false else s.nmiPending } := by
  by_cases hnmi : e = .nonMaskableInterrupt
  · subst hnmi
    rfl
  · rw [if_neg hnmi]
    exact takeException_eq_enter s hreset hnmi

/-- Settles O15: the entry makes the four assignments, and with SR at 0 no flag is set. -/
theorem entryWritesFourRegisters : Obligations.EntryWritesFourRegisters := by
  intro s e he
  obtain ⟨hF, hCY, hIEE⟩ := flags_of_sr_zero (enter_sr s e)
  exact ⟨entered_enter s e, vectorAddress_of_ne_reset s.platform he, hIEE, hF, hCY, takeException_eq_enter_with_latch s he⟩

/-- l.sys enters the syscall exception, whatever K is (R245, R273). -/
theorem exec_lSys (K : Half) (s : State) : exec (.lSys K) s = .next (s.enter .syscall) := rfl

/-- l.trap enters the trap exception, whatever K is (R246, R274). -/
theorem exec_lTrap (K : Half) (s : State) : exec (.lTrap K) s = .next (s.enter .trap) := rfl

/-- Settles O60: each enters its exception with every K. -/
theorem systemCallAndTrapEnter : Obligations.SystemCallAndTrapEnter := fun K K' s =>
  ⟨⟨_, exec_lSys K s, exec_lSys K' s, entered_enter s .syscall, rfl, vectorAddress_of_ne_reset _ nofun⟩,
    ⟨_, exec_lTrap K s, exec_lTrap K' s, entered_enter s .trap, rfl, vectorAddress_of_ne_reset _ nofun⟩⟩

/-- Where the fetch goes through, a cycle goes as the decoded word says: the illegal instruction, an interrupt before the
instruction, or the instruction (R262 tests 5 to 10). -/
theorem cycle_cases_of_fetchable {s : State} (h : s.Fetchable) :
    (∃ r, s.decoded = .error r ∧ cycle s = .next (s.takeException .illegalInstruction)) ∨
      (∃ i e, s.decoded = .ok i ∧ preemptingInterrupt i s = some e ∧ cycle s = .next (s.takeException e)) ∨
      ∃ i, s.decoded = .ok i ∧ preemptingInterrupt i s = none ∧ cycle s = exec i s := by
  obtain ⟨hrst, halign, hbus, hmapped⟩ := h
  rcases cycle_cases s with ⟨hrst', -⟩ | ⟨-, herroneous, -⟩ | ⟨-, -, -, hunmapped, -⟩ | ⟨-, -, -, -, hdecoded⟩
  · cases hrst.symm.trans hrst'
  · rcases herroneous with hmis | hbus'
    · cases ((misaligned_eq_false_iff _ _).2 halign).symm.trans hmis
    · cases hbus.symm.trans hbus'
  · cases hmapped.symm.trans hunmapped
  · exact hdecoded

/-- A fetched word that does not decode enters the illegal-instruction exception, whatever interrupts wait (R262 test
5, R272). -/
theorem cycle_of_decoded_error {s : State} {r : Reject} (h : s.Fetchable) (hd : s.decoded = .error r) :
    cycle s = .next (s.takeException .illegalInstruction) := by
  rcases cycle_cases_of_fetchable h with ⟨_, -, hcycle⟩ | ⟨_, _, hd', -⟩ | ⟨_, hd', -⟩
  · exact hcycle
  · cases hd.symm.trans hd'
  · cases hd.symm.trans hd'

/-- Settles O18: the decoder rejects the word, and the cycle enters the exception. -/
theorem illegalWordTakesException : Obligations.IllegalWordTakesException := fun s hfetch hunmatched =>
  ⟨s.afterMoves.enter .illegalInstruction, cycle_of_decoded_error hfetch (decodeWord_of_unmatched hunmatched),
    entered_enter .., rfl, vectorAddress_of_ne_reset _ nofun⟩

/-! ### The moves of the environment (R296) -/

/-- A byte written reads back, and every other byte reads as before (R62, R63). -/
theorem memRead1_memWrite1 (s : State) (a b : Word) (v : Byte) (hw : Memory.wf s.mem) :
    (s.memWrite1 a v).memRead1 b = if b = a then v else s.memRead1 b := by
  by_cases hb : b = a
  · subst hb
    simpa [State.memWrite1] using memRead1_putBytes_inside s b [v] hw (by simp) 0 (by simp)
  · rw [if_neg hb]
    exact memRead1_putBytes_outside s a b [v] (by simpa using hb)

/-- `BusFault` holds of the accesses that a rule of the platform names (R67). -/
theorem busFaultAt_eq_true_iff (s : State) (a : Word) (n : Nat) (k : AccessKind) :
    s.busFaultAt a n k = true ↔
      ∃ r ∈ s.platform.busFaults, r.kind = k ∧ r.size = n ∧ r.first ≤ a ∧ a ≤ r.last := by
  simp [State.busFaultAt, ruleMatches, and_assoc]

/-- Each move writes what R296 gives it, and nothing else. -/
theorem moveDoes_applyMove (s : State) (m : EnvMove) (hw : Memory.wf s.mem) : MoveDoes s (s.applyMove m) m := by
  cases m with
  | assertInterrupt | releaseInterrupt | pulseNmi | assertReset | releaseReset => rfl
  | writeByte a v =>
    refine ⟨?_, fun b hb => ?_, rfl⟩
    · exact (memRead1_memWrite1 s a a v hw).trans (if_pos rfl)
    · exact (memRead1_memWrite1 s a b v hw).trans (if_neg hb)
  | setBusFaults rules => exact ⟨busFaultAt_eq_true_iff _, rfl⟩

/-- A move leaves the NMI pending exactly if it was pending or the move is a pulse: no move clears the latch (R45). -/
theorem applyMove_nmiPending_iff (s : State) (m : EnvMove) :
    (s.applyMove m).nmiPending = true ↔ s.nmiPending = true ∨ m = .pulseNmi := by
  cases m <;> simp [State.applyMove]

/-- The moves are made one after the other. -/
theorem applyMoves_eq_foldl (s : State) (moves : List EnvMove) : s.applyMoves moves = moves.foldl State.applyMove s := by
  induction moves generalizing s with
  | nil => rfl
  | cons m ms ih => exact ih (s.applyMove m)

/-- No number of moves changes what `applyMove_keeps` names. -/
theorem applyMoves_keeps (s : State) (moves : List EnvMove) :
    (s.applyMoves moves).regs = s.regs ∧ (s.applyMoves moves).pc = s.pc ∧ (s.applyMoves moves).sr = s.sr ∧
      (s.applyMoves moves).epc = s.epc ∧ (s.applyMoves moves).esr = s.esr ∧
      (s.applyMoves moves).script = s.script := by
  induction moves generalizing s with
  | nil => exact ⟨rfl, rfl, rfl, rfl, rfl, rfl⟩
  | cons m ms ih => simp only [State.applyMoves, ih, applyMove_keeps, and_self]

/-- After any number of moves the NMI is pending exactly if it was, or a pulse is among them. -/
theorem applyMoves_nmiPending_iff (s : State) (moves : List EnvMove) :
    (s.applyMoves moves).nmiPending = true ↔ s.nmiPending = true ∨ EnvMove.pulseNmi ∈ moves := by
  induction moves generalizing s with
  | nil => simp [State.applyMoves]
  | cons m ms ih =>
    rw [State.applyMoves, ih, applyMove_nmiPending_iff, List.mem_cons, or_assoc, eq_comm (a := m)]

/-- Any number of moves keeps memory canonical. -/
theorem applyMoves_wf (s : State) (moves : List EnvMove) (h : Memory.wf s.mem) : Memory.wf (s.applyMoves moves).mem := by
  induction moves generalizing s with
  | nil => exact h
  | cons m ms ih => exact ih _ (applyMove_wf s m h)

/-- With no line on the script, no move is made. -/
theorem afterMoves_of_script_nil {s : State} (h : s.script = []) : s.afterMoves = s := by
  rw [State.afterMoves, h]

/-- The moves of the script's first line are made, and the line is taken off. -/
theorem afterMoves_of_script_cons {s : State} {moves : List EnvMove} {rest : List (List EnvMove)}
    (h : s.script = moves :: rest) : s.afterMoves = { s with script := rest }.applyMoves moves := by
  rw [State.afterMoves, h]

/-- The state before a cycle is the state before its moves, less the script's first line, after some moves: none where
the script is empty. -/
theorem exists_afterMoves_eq_applyMoves (s : State) :
    ∃ moves, s.afterMoves = { s with script := s.script.tail }.applyMoves moves := by
  cases h : s.script with
  | nil => exact ⟨[], (afterMoves_of_script_nil h).trans (by rw [List.tail_nil, ← h]; rfl)⟩
  | cons moves rest => exact ⟨moves, afterMoves_of_script_cons h⟩

/-- Settles O30: the effect of each move, their order, and by induction on the moves what all of them keep. -/
theorem environmentLeavesCoreAlone : Obligations.EnvironmentLeavesCoreAlone := by
  refine ⟨moveDoes_applyMove, fun s moves rest h => ?line, fun s => ⟨afterMoves_of_script_nil, ?kept⟩⟩
  case line =>
    rw [afterMoves_of_script_cons h]
    exact ⟨applyMoves_eq_foldl .., fun hpulse => (applyMoves_nmiPending_iff ..).2 (.inr hpulse)⟩
  case kept =>
    obtain ⟨moves, h⟩ := exists_afterMoves_eq_applyMoves s
    rw [h]
    obtain ⟨hregs, hpc, hsr, hepc, hesr, hscript⟩ := applyMoves_keeps { s with script := s.script.tail } moves
    exact ⟨hregs, hpc, hsr, hepc, hesr, hscript, fun hnmi => (applyMoves_nmiPending_iff ..).2 (.inl hnmi),
      applyMoves_wf { s with script := s.script.tail } moves⟩

end Sys2Proof.Machine

namespace Sys2Proof

/-! ### No word fits two rows of the opcode table (R101) -/

/-- The selectors of two rows contradict each other at a bit that both look at. -/
abbrev Row.Apart (p q : Row) : Prop := p.pattern &&& q.mask ≠ q.pattern &&& p.mask

/-- No word has the selectors of two rows that contradict each other. -/
theorem Row.Apart.not_selects {p q : Row} (h : p.Apart q) {w : Word} (hp : p.selects w = true) :
    q.selects w ≠ true := by
  intro hq
  refine h ?_
  rw [← eq_of_beq hp, ← eq_of_beq hq, BitVec.and_assoc, BitVec.and_assoc, BitVec.and_comm p.mask]

/-- Two rows contradict each other where both look at a whole field, each for another value of it. -/
theorem Row.apart_of_field_ne {p q : Row} (lo len : Nat) (hp : field p.mask lo len = BitVec.allOnes len)
    (hq : field q.mask lo len = BitVec.allOnes len) (h : field p.pattern lo len ≠ field q.pattern lo len) :
    p.Apart q := by
  intro heq
  have hfields : field (p.pattern &&& q.mask) lo len = field (q.pattern &&& p.mask) lo len := by rw [heq]
  unfold field at *
  rw [BitVec.extractLsb'_and, BitVec.extractLsb'_and, hp, hq, BitVec.and_allOnes, BitVec.and_allOnes] at hfields
  exact h hfields

/-- The major opcode that a row looks for. -/
abbrev Row.major (r : Row) : BitVec 6 := field r.pattern 26 6

/-- Rows of the table with different major opcodes contradict each other. -/
theorem Row.apart_of_major_ne {e : Encoding} {p q : Row} (hp : p ∈ opcodeRows e) (hq : q ∈ opcodeRows e)
    (h : p.major ≠ q.major) : p.Apart q :=
  Row.apart_of_field_ne 26 6 (field_major_mask hp) (field_major_mask hq) h

/-- Rows of the table that differ only in the value of a shift selector, or also in what they build, contradict each
other. -/
theorem apart_of_selector_ne {mask bits : Word} {lo : Nat} {v v' : BitVec 2} {build build' : Word → Instr}
    (hlo : lo ≤ 14) (hbits : field bits lo 2 = 0) (h : v ≠ v') :
    Row.Apart ⟨selectorMask mask lo, selectorPattern bits v lo, build⟩
      ⟨selectorMask mask lo, selectorPattern bits v' lo, build'⟩ := by
  have hmask : field (selectorMask mask lo) lo 2 = BitVec.allOnes 2 := by
    have h3 : field (3#32 <<< lo) lo 2 = BitVec.allOnes 2 := field_place_same 3#2 lo (by omega)
    rw [selectorMask, field_or, h3, BitVec.or_allOnes]
  have hpattern : ∀ x : BitVec 2, field (selectorPattern bits x lo) lo 2 = x := by
    intro x
    rw [selectorPattern_eq, field_or, hbits, field_place_same _ _ (by omega)]
    exact BitVec.zero_or
  exact Row.apart_of_field_ne lo 2 hmask hmask (by rwa [hpattern, hpattern])

/-- The major opcodes of the shifts (R116). -/
theorem map_major_shiftRows {e : Encoding} (he : e.wellFormed = true) :
    (shiftRows e).map Row.major = [0x38, 0x2e, 0x38, 0x2e, 0x38, 0x2e] := by
  obtain ⟨-, hreg, -, himm⟩ := Laws.EncodedWordSelected.selector_bounds he
  simp only [shiftRows, List.map_cons, List.map_nil, Row.major, field_major_selectorPattern _ _ himm,
    field_major_selectorPattern _ _ (Nat.le_trans hreg (by decide : 9 ≤ 14))]
  rfl

/-- The major opcodes of the system instructions (R116). -/
theorem map_major_systemRows (e : Encoding) :
    (systemRows e).map Row.major = [0x2d, 0x30, e.nopMajor, 0x09, 0x08, 0x08] := by
  have hnop : field (e.nopMajor ++ 0#26 : BitVec 32) 26 6 = e.nopMajor := by
    rw [← Laws.EncodedWordSelected.place_major, field_place_same _ _ (by decide)]
  simp only [systemRows, List.map_cons, List.map_nil, Row.major, hnop]
  rfl

/-- An immediate shift has a major opcode of its own; a register shift is told from the arithmetic of its major opcode
by `insn[3:0]` (R116, R117). -/
theorem mem_shiftRows_cases {e : Encoding} (he : e.wellFormed = true) {r : Row} (hr : r ∈ shiftRows e) :
    r.major = 0x2e#6 ∨ r.major = 0x38#6 ∧ field r.mask 0 4 = BitVec.allOnes 4 ∧ field r.pattern 0 4 = 0x8#4 := by
  obtain ⟨hreg4, hreg9, -, himm14⟩ := Laws.EncodedWordSelected.selector_bounds he
  have himm : ∀ v, field (selectorPattern 0xB8000000#32 v e.shiftImm) 26 6 = 0x2e#6 :=
    fun v => field_major_selectorPattern _ v himm14
  have hreg : ∀ v, field (selectorPattern 0xE0000008#32 v e.shiftReg) 26 6 = 0x38#6 :=
    fun v => field_major_selectorPattern _ v (by omega)
  have hmask : field (selectorMask 0xFC00000F#32 e.shiftReg) 0 4 = BitVec.allOnes 4 := by
    rw [selectorMask, field_or]
    exact BitVec.allOnes_or
  have hfn4 : ∀ v, field (selectorPattern 0xE0000008#32 v e.shiftReg) 0 4 = 0x8#4 := by
    intro v
    rw [selectorPattern_eq, field_or, field_place_apart v 0 _ 4 (by omega)]
    rfl
  simp only [shiftRows, List.mem_cons, List.not_mem_nil, or_false] at hr
  rcases hr with rfl | rfl | rfl | rfl | rfl | rfl
  exacts [.inr ⟨hreg 0, hmask, hfn4 0⟩, .inl (himm 0), .inr ⟨hreg 2, hmask, hfn4 2⟩, .inl (himm 2),
    .inr ⟨hreg 1, hmask, hfn4 1⟩, .inl (himm 1)]

/-- Shifts and arithmetic contradict each other (R117). -/
theorem arithRows_apart_shiftRows {e : Encoding} (he : e.wellFormed = true) {p q : Row} (hp : p ∈ arithRows)
    (hq : q ∈ shiftRows e) : p.Apart q := by
  have harith : ∀ p ∈ arithRows, p.major ≠ 0x2e#6 ∧
      (p.major = 0x38#6 → field p.mask 0 4 = BitVec.allOnes 4 ∧ field p.pattern 0 4 ≠ 0x8#4) := by decide
  obtain ⟨himm, hreg⟩ := harith p hp
  by_cases hmajor : p.major = q.major
  · rcases mem_shiftRows_cases he hq with hq' | ⟨hq', hqmask, hqpattern⟩
    · exact absurd (hmajor.trans hq') himm
    · obtain ⟨hpmask, hppattern⟩ := hreg (hmajor.trans hq')
      exact Row.apart_of_field_ne 0 4 hpmask hqmask (hqpattern ▸ hppattern)
  · exact Row.apart_of_major_ne (e := e) (by simp [opcodeRows, hp]) (by simp [opcodeRows, hq]) hmajor

/-- The contradiction goes both ways. -/
theorem Row.Apart.symm {p q : Row} (h : p.Apart q) : q.Apart p := Ne.symm h

/-- The shifts contradict each other: a register and an immediate shift by their major opcode, two of a kind by their
selector (R117). -/
theorem shiftRows_pairwise_apart {e : Encoding} (he : e.wellFormed = true) : (shiftRows e).Pairwise Row.Apart := by
  obtain ⟨hreg4, hreg9, himm6, himm14⟩ := Laws.EncodedWordSelected.selector_bounds he
  have hregBits : ∀ lo, lo ≤ 9 → 4 ≤ lo → field 0xE0000008#32 lo 2 = 0 := by decide
  have himmBits : ∀ lo, lo ≤ 14 → 6 ≤ lo → field 0xB8000000#32 lo 2 = 0 := by decide
  have hreg : ∀ {v v' build build'}, v ≠ v' → Row.Apart
      ⟨selectorMask 0xFC00000F#32 e.shiftReg, selectorPattern 0xE0000008#32 v e.shiftReg, build⟩
      ⟨selectorMask 0xFC00000F#32 e.shiftReg, selectorPattern 0xE0000008#32 v' e.shiftReg, build'⟩ :=
    apart_of_selector_ne (by omega) (hregBits _ hreg9 hreg4)
  have himm : ∀ {v v' build build'}, v ≠ v' → Row.Apart
      ⟨selectorMask 0xFC000000#32 e.shiftImm, selectorPattern 0xB8000000#32 v e.shiftImm, build⟩
      ⟨selectorMask 0xFC000000#32 e.shiftImm, selectorPattern 0xB8000000#32 v' e.shiftImm, build'⟩ :=
    apart_of_selector_ne himm14 (himmBits _ himm14 himm6)
  have hmixed : ∀ {v v' build build'}, Row.Apart
      ⟨selectorMask 0xFC00000F#32 e.shiftReg, selectorPattern 0xE0000008#32 v e.shiftReg, build⟩
      ⟨selectorMask 0xFC000000#32 e.shiftImm, selectorPattern 0xB8000000#32 v' e.shiftImm, build'⟩ := by
    intro v v' build build'
    refine Row.apart_of_field_ne 26 6 (field_major_selectorMask _ rfl) (field_major_selectorMask _ rfl) ?_
    rw [field_major_selectorPattern _ _ (by omega), field_major_selectorPattern _ _ himm14]
    decide
  simp only [shiftRows, List.pairwise_cons, List.forall_mem_cons, List.not_mem_nil, false_implies, implies_true,
    List.Pairwise.nil, and_true]
  exact ⟨⟨hmixed, hreg (by decide), hmixed, hreg (by decide), hmixed⟩,
    ⟨hmixed.symm, himm (by decide), hmixed.symm, himm (by decide)⟩,
    ⟨hmixed, hreg (by decide), hmixed⟩, ⟨hmixed.symm, himm (by decide)⟩, hmixed⟩

/-- A part of the opcode table: its rows contradict each other, and each looks at the whole major opcode. -/
structure TablePart (l : List Row) : Prop where
  apart : l.Pairwise Row.Apart
  masks : ∀ r ∈ l, field r.mask 26 6 = BitVec.allOnes 6

/-- Two parts of the table that share no major opcode are a part of the table. -/
theorem TablePart.append {l l' : List Row} (hl : TablePart l) (hl' : TablePart l')
    (h : ∀ m ∈ l.map Row.major, m ∉ l'.map Row.major) : TablePart (l ++ l') := by
  refine ⟨List.pairwise_append.2 ⟨hl.apart, hl'.apart, fun p hp q hq => ?_⟩,
    List.forall_mem_append.2 ⟨hl.masks, hl'.masks⟩⟩
  refine Row.apart_of_field_ne 26 6 (hl.masks p hp) (hl'.masks q hq) fun hmajor => ?_
  exact h p.major (List.mem_map_of_mem hp) (List.mem_map.2 ⟨q, hq, hmajor.symm⟩)

/-- The arithmetic and the shifts, which share a major opcode, are a part of the table. -/
theorem tablePart_arith_shift {e : Encoding} (he : e.wellFormed = true) : TablePart (arithRows ++ shiftRows e) where
  apart := List.pairwise_append.2 ⟨by decide, shiftRows_pairwise_apart he,
    fun _ hp _ hq => arithRows_apart_shiftRows he hp hq⟩
  masks r hr := field_major_mask (e := e) (by simp only [opcodeRows, List.mem_append, hr, true_or])

/-- The system instructions are a part of the table: l.sys and l.trap differ in `insn[25:16]`, the others in the major
opcode, l.nop's being no other instruction's (R116, R117). -/
theorem tablePart_system {e : Encoding} (he : e.wellFormed = true) : TablePart (systemRows e) := by
  have hnop : ∀ {r : Row} {build : Word → Instr}, field r.mask 26 6 = BitVec.allOnes 6 → r.major ∈ otherMajors →
      r.Apart ⟨0xFC000000, e.nopMajor ++ 0#26, build⟩ := by
    intro r build hmask hmajor
    have hnopMask : field 0xFC000000#32 26 6 = BitVec.allOnes 6 := rfl
    refine Row.apart_of_field_ne 26 6 hmask hnopMask fun heq => nopMajor_not_mem_otherMajors he ?_
    rwa [Row.major, heq, ← Laws.EncodedWordSelected.place_major, field_place_same _ _ (by decide)] at hmajor
  refine ⟨?_, fun r hr => field_major_mask (e := e) (by simp only [opcodeRows, List.mem_append, hr, or_true])⟩
  simp only [systemRows, List.pairwise_cons, List.forall_mem_cons, List.not_mem_nil, false_implies, implies_true,
    List.Pairwise.nil, and_true]
  exact ⟨⟨by decide, hnop rfl (by decide), by decide, by decide, by decide⟩,
    ⟨hnop rfl (by decide), by decide, by decide, by decide⟩,
    ⟨(hnop rfl (by decide)).symm, (hnop rfl (by decide)).symm, (hnop rfl (by decide)).symm⟩,
    ⟨by decide, by decide⟩, by decide⟩

/-- The opcode table is put together from parts without a common major opcode. -/
theorem tablePart_opcodeRows {e : Encoding} (he : e.wellFormed = true) : TablePart (opcodeRows e) := by
  have hcompare : TablePart compareRows := ⟨by decide, by decide⟩
  have hbranch : TablePart branchRows := ⟨by decide, by decide⟩
  have hloadStore : TablePart loadStoreRows := ⟨by decide, by decide⟩
  refine ((((tablePart_arith_shift he).append hcompare ?_).append hbranch ?_).append hloadStore ?_).append
    (tablePart_system he) ?system <;>
  simp only [List.map_append, map_major_shiftRows he, map_major_systemRows]
  case system =>
    have hother : ∀ m ∈ arithRows.map Row.major ++ [0x38, 0x2e, 0x38, 0x2e, 0x38, 0x2e] ++ compareRows.map Row.major ++
        branchRows.map Row.major ++ loadStoreRows.map Row.major,
        m ∈ otherMajors ∧ m ∉ [0x2d#6, 0x30#6, 0x09#6, 0x08#6] := by decide
    intro m hm hsystem
    obtain ⟨hlisted, hne⟩ := hother m hm
    have hmnop : m ≠ e.nopMajor := fun h => nopMajor_not_mem_otherMajors he (h ▸ hlisted)
    simp_all
  all_goals decide

/-- Settles O3: of the rows that select a word no two contradict each other, so there is at most one. -/
theorem noWordMatchesTwoEntries : Obligations.NoWordMatchesTwoEntries := by
  intro c w hc
  have hapart : ((opcodeRows c).filter (·.selects w)).Pairwise Row.Apart := (tablePart_opcodeRows hc).apart.filter _
  have hselects : ∀ r ∈ (opcodeRows c).filter (·.selects w), r.selects w = true := fun r hr => (List.mem_filter.1 hr).2
  generalize (opcodeRows c).filter (·.selects w) = rows at hapart hselects
  match rows with
  | [] => exact Nat.zero_le 1
  | [_] => exact Nat.le_refl 1
  | p :: q :: _ =>
    have hpq : p.Apart q := List.rel_of_pairwise_cons hapart List.mem_cons_self
    exact absurd (hselects q (by simp)) (hpq.not_selects (hselects p (by simp)))

/-! ### Decoding and encoding -/

/-- A word that a row selects decodes as that row builds it, for no other row selects it (R101). -/
theorem decodeWord_of_selects {e : Encoding} (he : e.wellFormed = true) {r : Row} (hr : r ∈ opcodeRows e) {w : Word}
    (hw : r.selects w = true) : decodeWord e w = .ok (r.build w) := by
  rcases decodeWord_cases e w with ⟨q, hq, hqw, hd⟩ | ⟨hnone, -⟩
  · have hsame : q = r := by
      by_contra hne
      have : Std.Symm Row.Apart := ⟨fun _ _ => Row.Apart.symm⟩
      have hapart : q.Apart r := (tablePart_opcodeRows he).apart.forall hq hr hne
      exact hapart.not_selects hqw hw
    rw [hd, hsame]
  · cases (hnone r hr).symm.trans hw

end Sys2Proof

namespace Sys2Proof.Machine

/-- Settles O4: the conjunction is the statement for each row of the table, in the table's order. -/
theorem everyEntryDecodes : Obligations.EveryEntryDecodes := by
  intro c hc
  have hrows : ∀ r ∈ opcodeRows c, EntryDecodes c r.mask r.pattern r.build :=
    fun r hr w hw => decodeWord_of_selects hc hr (beq_iff_eq.2 hw)
  exact List.forall_iff_forall_mem.2 hrows

end Sys2Proof.Machine

namespace Sys2Proof

/-! ### Decoding what the encoder wrote -/

/-- Every instruction's row of the opcode table selects its canonical word (R101, R124). -/
theorem encodedWordSelected (i : Instr) : Laws.EncodedWordSelected.Statement i := by
  open Laws.EncodedWordSelected in
  cases i
  exacts [lAdd _ _ _, lAddc _ _ _, lAddi _ _ _, lAnd _ _ _, lAndi _ _ _, lMovhi _ _, lOr _ _ _, lOri _ _ _, lSub _ _ _,
    lXor _ _ _, lXori _ _ _, lSll _ _ _, lSlli _ _ _, lSra _ _ _, lSrai _ _ _, lSrl _ _ _, lSrli _ _ _,
    lSfeq _ _, lSfeqi _ _, lSfges _ _, lSfgesi _ _, lSfgeu _ _, lSfgeui _ _, lSfgts _ _, lSfgtsi _ _, lSfgtu _ _,
    lSfgtui _ _, lSfles _ _, lSflesi _ _, lSfleu _ _, lSfleui _ _, lSflts _ _, lSfltsi _ _, lSfltu _ _, lSfltui _ _,
    lSfne _ _, lSfnei _ _,
    lBf _, lBnf _, lJ _, lJal _, lJalr _, lJr _,
    lLbs _ _ _, lLbz _ _ _, lLhs _ _ _, lLhz _ _ _, lLws _ _ _, lLwz _ _ _, lSb _ _ _, lSh _ _ _, lSw _ _ _,
    lMfspr _ _ _, lMtspr _ _ _, lNop _, lRfe, lSys _, lTrap _]

/-- The row at an instruction's place in the opcode table reads the instruction's operands back from its canonical
word. -/
theorem build_encodeWord {e : Encoding} {i : Instr} (he : e.wellFormed = true) (hi : i.wellFormed = true) {r : Row}
    (hr : (opcodeRows e)[i.ctorIdx]? = some r) : r.build (encodeWord e i) = i := by
  obtain ⟨-, hreg, himm6, himm14⟩ := Laws.EncodedWordSelected.selector_bounds he
  cases i with
  | lAdd | lAddc | lAnd | lOr | lSub | lXor | lSll | lSra | lSrl =>
    cases hr
    simp [encodeWord, formatRRR_fields, hreg]
  | lAddi | lAndi | lOri | lXori | lLbs | lLbz | lLhs | lLhz | lLws | lLwz | lMfspr =>
    cases hr
    simp [encodeWord, formatRRI_fields]
  | lMovhi => cases hr; simp [encodeWord, formatRI_fields]
  | lSlli | lSrai | lSrli =>
    cases hr
    simp [encodeWord, formatSHI_fields, himm6, himm14, of_decide_eq_true hi]
  | lSfeq | lSfges | lSfgeu | lSfgts | lSfgtu | lSfles | lSfleu | lSflts | lSfltu | lSfne =>
    cases hr
    simp [encodeWord, formatSF_fields]
  | lSfeqi | lSfgesi | lSfgeui | lSfgtsi | lSfgtui | lSflesi | lSfleui | lSfltsi | lSfltui | lSfnei =>
    cases hr
    simp [encodeWord, formatSFI_fields]
  | lBf | lBnf | lJ | lJal => cases hr; simp [encodeWord, formatJ_fields]
  | lJalr | lJr => cases hr; simp [encodeWord, formatJR_fields]
  | lSb | lSh | lSw | lMtspr => cases hr; simp [encodeWord, formatRSI_fields]
  | lNop => cases hr; simp [encodeWord, formatNOP_fields]
  | lRfe => cases hr; rfl
  | lSys | lTrap => cases hr; simp [encodeWord, formatSYS_fields]

/-- Decoding the canonical word of a well-formed instruction gives the instruction. -/
theorem decodeWord_encodeWord {e : Encoding} {i : Instr} (he : e.wellFormed = true) (hi : i.wellFormed = true) :
    decodeWord e (encodeWord e i) = .ok i := by
  obtain ⟨r, hr, hselects⟩ := encodedWordSelected i e he
  rw [decodeWord_of_selects he (List.mem_of_getElem? hr) hselects, build_encodeWord he hi hr]

/-- Settles O1: decoding the bytes of a word is decoding the word. -/
theorem encodeThenDecode : Obligations.EncodeThenDecode := by
  intro c i hc hi rest
  rw [encode, decode_bytesOfWord, decodeWord_encodeWord hc hi]

/-- Every row builds a well-formed instruction: the field of a shift amount has 6 bits (R114). -/
theorem build_wellFormed {e : Encoding} {r : Row} (hr : r ∈ opcodeRows e) (w : Word) :
    (r.build w).wellFormed = true := by
  have hamount : shiftAmountFits (fieldAmount w) = true := decide_eq_true (field w 0 6).isLt
  have hrows : (opcodeRows e).Forall fun r => (r.build w).wellFormed = true := by
    simp [opcodeRows, arithRows, shiftRows, compareRows, branchRows, loadStoreRows, systemRows, Instr.wellFormed,
      hamount]
  exact List.forall_iff_forall_mem.1 hrows r hr

/-- Settles O5: what the decoder answers a row has built, and a well-formed instruction survives encoding. -/
theorem decodedIsWellFormed : Obligations.DecodedIsWellFormed := by
  intro c w i hc hd
  have hi : i.wellFormed = true := by
    rcases decodeWord_cases c w with ⟨r, hr, -, hd'⟩ | ⟨-, hd'⟩
    · cases hd'.symm.trans hd
      exact build_wellFormed hr w
    · cases hd'.symm.trans hd
  exact ⟨hi, decodeWord_encodeWord hc hi⟩

/-- Settles O2: at the default parameters each word is read by evaluating the table. -/
theorem wordsOfTheSpecDecode : Obligations.WordsOfTheSpecDecode :=
  ⟨rfl, rfl, rfl, rfl, rfl, rfl, rfl, rfl, rfl, rfl, rfl⟩

end Sys2Proof

namespace Sys2Proof.Machine

/-! ### Exceptions and the cycle -/

/-- Taking an exception other than reset is its entry; the NMI clears the latch (R270, R277). -/
theorem entered_takeException (s : State) {e : Exception} (he : e ≠ .reset) :
    Entered s (s.takeException e) e (if e = .nonMaskableInterrupt then false else s.nmiPending) := by
  rw [takeException_eq_enter_with_latch s he]
  exact ⟨rfl, rfl, rfl, rfl, rfl, fun _ => rfl, fun _ => rfl, ⟨rfl, rfl, rfl, rfl⟩⟩

/-- Settles O16: taking an exception writes its vector to `pc` and its return address to EPC. -/
theorem exceptionsFollowTheTable : Obligations.ExceptionsFollowTheTable := by
  intro s
  have hepc : ∀ e, (s.takeException e).epc = returnAddress e s.pc := by
    intro e
    obtain ⟨hepc, -⟩ := takeException_fields s e
    exact hepc
  have hpc : ∀ e, (s.takeException e).pc = vectorAddress s.platform e := by
    intro e
    obtain ⟨-, -, -, hpc, -⟩ := takeException_fields s e
    exact hpc
  exact ⟨hpc .reset, hepc .reset, hpc .illegalInstruction, hepc .illegalInstruction, hpc .externalInterrupt,
    hepc .externalInterrupt, hpc .syscall, hepc .syscall, hpc .trap, hepc .trap, hpc .nonMaskableInterrupt,
    hepc .nonMaskableInterrupt, hpc .busError, hepc .busError⟩

/-- A decoded instruction that no interrupt pre-empts runs (R262 test 10). -/
theorem cycle_of_not_preempted {s : State} {i : Instr} (h : s.Fetchable) (hd : s.decoded = .ok i)
    (hp : preemptingInterrupt i s = none) : cycle s = exec i s := by
  rcases cycle_cases_of_fetchable h with ⟨r, hd', -⟩ | ⟨j, e, hd', hp', -⟩ | ⟨j, hd', -, hcycle⟩
  · cases hd.symm.trans hd'
  · cases hd.symm.trans hd'
    cases hp.symm.trans hp'
  · cases hd.symm.trans hd'
    exact hcycle

/-- An interrupt that pre-empts the decoded instruction is taken (R262 tests 8 and 9). -/
theorem cycle_of_preempted {s : State} {i : Instr} {e : Exception} (h : s.Fetchable) (hd : s.decoded = .ok i)
    (hp : preemptingInterrupt i s = some e) : cycle s = .next (s.takeException e) := by
  rcases cycle_cases_of_fetchable h with ⟨r, hd', -⟩ | ⟨j, e', hd', hp', hcycle⟩ | ⟨j, hd', hp', -⟩
  · cases hd.symm.trans hd'
  · cases hd.symm.trans hd'
    cases hp.symm.trans hp'
    exact hcycle
  · cases hd.symm.trans hd'
    cases hp.symm.trans hp'

/-- A misaligned or rejected fetch enters the bus error (R262 tests 2 and 3). -/
theorem cycle_of_erroneous_fetch {s : State} (hrst : s.rst = false)
    (h : s.pc.toNat % 4 ≠ 0 ∨ s.busFaultAt s.pc 4 .fetch = true) : cycle s = .next (s.takeException .busError) := by
  have hbusFault : misaligned s.pc 4 = false → s.busFaultAt s.pc 4 .fetch = true :=
    fun hfalse => h.resolve_left fun hne => hne ((misaligned_eq_false_iff ..).1 hfalse)
  rcases cycle_cases s with ⟨hrst', -⟩ | ⟨-, -, hcycle⟩ | ⟨-, halign, hbus, -⟩ | ⟨-, halign, hbus, -⟩
  · cases hrst.symm.trans hrst'
  · exact hcycle
  · cases hbus.symm.trans (hbusFault halign)
  · cases hbus.symm.trans (hbusFault halign)

/-- No interrupt pre-empts an instruction that raises an exception itself, or comes while none waits (R262 tests 8 and
9). -/
theorem preemptingInterrupt_eq_none {i : Instr} {s : State}
    (h : synchronousCause i s ≠ none ∨ (s.nmiPending = false ∧ (s.intr = false ∨ s.flagIEE = false))) :
    preemptingInterrupt i s = none := by
  rcases preemptingInterrupt_cases i s with ⟨-, hp⟩ | ⟨hc, hn, -⟩ | ⟨hc, -, hi, hf, -⟩ | ⟨-, -, -, hp⟩
  · exact hp
  · simp [hc, hn] at h
  · simp [hc, hi, hf] at h
  · exact hp

/-- Settles O10: the two premises on interrupts are those under which none pre-empts the instruction. -/
theorem stepRunsDecodedInstruction : Obligations.StepRunsDecodedInstruction := fun _ _ hfetch hd h =>
  cycle_of_not_preempted hfetch hd (preemptingInterrupt_eq_none h)

/-- A data access raises the bus error, and no other exception, where it is erroneous (R230). -/
theorem dataCause_eq_some_iff {s : State} {a : Word} {n : Nat} {k : AccessKind} {e : Exception} :
    dataCause s a n k = some e ↔ s.erroneous a n k = true ∧ e = .busError := by
  unfold dataCause
  cases s.erroneous a n k <;> simp [eq_comm]

/-- An erroneous access is not refused. -/
theorem refusesAccess_of_erroneous {s : State} {a : Word} {n : Nat} {k : AccessKind} (h : s.erroneous a n k = true) :
    s.refusesAccess a n = false := by
  refine Bool.eq_false_iff.2 fun hrefuses => ?_
  cases (erroneous_of_refused s a n k hrefuses).symm.trans h

/-- An erroneous load takes the bus error (R230). -/
theorem loadInto_of_erroneous {n : Nat} {read : State → Word → Word} {rD rA : Reg} {imm : Half} {s : State}
    (h : s.erroneous (s.dataAddress rA imm n) n .load = true) :
    loadInto n read rD rA imm s = .next (s.takeException .busError) := by
  simp [loadInto, refusesAccess_of_erroneous h, h]

/-- An erroneous store takes the bus error (R230). -/
theorem storeFrom_of_erroneous {n : Nat} {write : State → Word → Word → State} {rA rB : Reg} {imm : Half} {s : State}
    (h : s.erroneous (s.dataAddress rA imm n) n .store = true) :
    storeFrom n write rA rB imm s = .next (s.takeException .busError) := by
  simp [storeFrom, refusesAccess_of_erroneous h, h]

/-- An instruction that raises an exception itself, a bus error, a syscall or a trap, enters it and does nothing else
(R271). -/
theorem exec_of_synchronousCause {i : Instr} {s : State} {e : Exception} (h : synchronousCause i s = some e) :
    (e = .busError ∨ e = .syscall ∨ e = .trap) ∧ exec i s = .next (s.takeException e) := by
  cases i with
  | lLbs | lLbz | lLhs | lLhz | lLws | lLwz =>
    obtain ⟨he, rfl⟩ := dataCause_eq_some_iff.1 h
    unfold exec
    exact ⟨.inl rfl, loadInto_of_erroneous he⟩
  | lSb | lSh | lSw =>
    obtain ⟨he, rfl⟩ := dataCause_eq_some_iff.1 h
    unfold exec
    exact ⟨.inl rfl, storeFrom_of_erroneous he⟩
  | lSys => cases h; exact ⟨.inr (.inl rfl), rfl⟩
  | lTrap => cases h; exact ⟨.inr (.inr rfl), rfl⟩
  | _ => cases h

/-- An instruction's own exception is neither reset nor an interrupt. -/
theorem synchronous_ne {e : Exception} (h : e = .busError ∨ e = .syscall ∨ e = .trap) :
    e ≠ .reset ∧ e ≠ .nonMaskableInterrupt := by
  rcases h with rfl | rfl | rfl <;> decide

/-- An instruction's own exception is taken by its entry alone. -/
theorem takeException_of_synchronousCause {i : Instr} {s : State} {e : Exception}
    (h : synchronousCause i s = some e) : s.takeException e = s.enter e := by
  obtain ⟨hreset, hnmi⟩ := synchronous_ne (exec_of_synchronousCause h).1
  exact takeException_eq_enter s hreset hnmi

/-- Settles O17: no interrupt pre-empts the instruction, which then enters its exception. -/
theorem synchronousExceptionWins : Obligations.SynchronousExceptionWins := by
  intro s i e hfetch hd hcause
  obtain ⟨he, hexec⟩ := exec_of_synchronousCause hcause
  have hstep : step s = exec i s.afterMoves :=
    cycle_of_not_preempted hfetch hd (preemptingInterrupt_eq_none (.inl (by simp [hcause])))
  refine ⟨he, hexec, ⟨s.afterMoves.enter e, ?_, entered_enter ..⟩, ?_, by decide⟩
  · rw [hstep, hexec, takeException_of_synchronousCause hcause]
  · rcases he with rfl | rfl | rfl <;> decide

/-- Settles O19: the cycle ends at its second or third test. -/
theorem erroneousFetchTakesBusError : Obligations.ErroneousFetchTakesBusError := fun s hrst h =>
  ⟨s.afterMoves.enter .busError, cycle_of_erroneous_fetch hrst h, entered_enter .., rfl,
    vectorAddress_of_ne_reset _ nofun⟩

/-- A pending NMI is taken before a fetched instruction that raises nothing itself (R277). -/
theorem cycle_of_nmiPending {s : State} {i : Instr} (h : s.Fetchable) (hd : s.decoded = .ok i)
    (hc : synchronousCause i s = none) (hn : s.nmiPending = true) :
    cycle s = .next (s.takeException .nonMaskableInterrupt) :=
  cycle_of_preempted h hd ((preemptingInterrupt_eq_nmi_iff i s).2 ⟨hc, hn⟩)

/-- Settles O20: the NMI is what pre-empts the instruction, and taking it clears the latch. -/
theorem nmiPreempts : Obligations.NmiPreempts := fun s _ hfetch hd hc hn =>
  ⟨s.afterMoves.takeException .nonMaskableInterrupt, cycle_of_nmiPending hfetch hd hc hn,
    entered_takeException _ nofun, rfl, vectorAddress_of_ne_reset _ nofun⟩

/-- Settles O21: with no NMI pending, an enabled request is what pre-empts the instruction. -/
theorem externalInterruptPreempts : Obligations.ExternalInterruptPreempts := by
  intro s i hfetch hd hc hn hintr hiee
  have hp : preemptingInterrupt i s.afterMoves = some .externalInterrupt := by
    simp [preemptingInterrupt, hc, hn, hintr, hiee]
  exact ⟨s.afterMoves.enter .externalInterrupt, cycle_of_preempted hfetch hd hp, hn ▸ entered_enter .., rfl,
    vectorAddress_of_ne_reset _ nofun, takeException_flagIEE s.afterMoves .externalInterrupt⟩

/-- A cycle that enters an exception synchronously does its entry and nothing else, whatever interrupts wait (R262
tests 2 to 7). -/
theorem cycle_of_entersSynchronously {s : State} {e : Exception} (h : EntersSynchronously s e) :
    cycle s = .next (s.enter e) := by
  rcases h with ⟨hrst, herroneous, rfl⟩ | ⟨hfetch, hunmatched, rfl⟩ | ⟨i, hfetch, hd, hcause⟩
  · exact cycle_of_erroneous_fetch hrst herroneous
  · exact cycle_of_decoded_error hfetch (decodeWord_of_unmatched hunmatched)
  · rw [cycle_of_not_preempted hfetch hd (preemptingInterrupt_eq_none (.inl (by simp [hcause]))),
      (exec_of_synchronousCause hcause).2, takeException_of_synchronousCause hcause]

/-- Settles O22: the entry leaves the latch set, so the next cycle enters the NMI from the handler's vector, with SR at
0. -/
theorem pendingNmiOverwritesEntry : Obligations.PendingNmiOverwritesEntry := by
  intro s t j e hscript hn henters hstep hfetch hd hc
  have hcycle : cycle s = .next (s.enter e) := cycle_of_entersSynchronously henters
  rw [step, afterMoves_of_script_nil hscript, hcycle] at hstep
  cases hstep
  refine ⟨(s.enter e).takeException .nonMaskableInterrupt, ?_, rfl, rfl, rfl, rfl, vectorAddress_of_ne_reset _ nofun⟩
  rw [step, afterMoves_of_script_nil (s := s.enter e) hscript]
  exact cycle_of_nmiPending hfetch hd hc hn

/-! ### Reset -/

/-- Every register reads the same after a reset, whether or not register 0 is hard-wired (log entry 1). -/
theorem reg_of_resetRegisters {s : State} (h : s.regs = resetRegisters) (r : Reg) : s.reg r = resetRegisterValue := by
  simp [State.reg, h, resetRegisters, resetRegisterValue]

/-- Settles O13: the step is the reset entry. -/
theorem resetStepLeavesTheRest : Obligations.ResetStepLeavesTheRest := fun s hrst =>
  ⟨s.afterMoves.resetEntry, cycle_of_rst hrst, rfl,
    fun r => (reg_of_resetRegisters rfl r).trans (reg_of_resetRegisters rfl r).symm, fun _ => rfl, ⟨rfl, rfl, rfl, rfl⟩⟩

/-- Settles O14: the reset entry of a state in reset is the reset entry. -/
theorem resetHeldMakesNoProgress : Obligations.ResetHeldMakesNoProgress := by
  intro s t hscript hrst hstep
  have hcycle : ∀ u : State, u.script = [] → u.rst = true → step u = .next u.resetEntry := fun u hu hurst => by
    rw [step, afterMoves_of_script_nil hu, cycle_of_rst hurst]
    rfl
  cases (hcycle s hscript hrst).symm.trans hstep
  exact hcycle s.resetEntry hscript hrst

/-- Settles O7: nothing is listed in memory, SR, ESR and the registers are 0, and the default parameters cohere. -/
theorem resetMeetsInvariant : Obligations.ResetMeetsInvariant :=
  ⟨reset_mem_wf, by decide, by decide, by decide, fun _ => rfl⟩

end Sys2Proof.Machine

namespace Sys2Proof.Machine

/-! ### What an instruction leaves unchanged -/

/-- A write of one register leaves every other alone. -/
theorem reg_setReg_ne (s : State) {i r : Reg} (h : r ≠ i) (v : Word) : (s.setReg i v).reg r = s.reg r := by
  rw [reg_setReg, if_neg h]
  by_cases hzero : s.platform.r0Zero = true ∧ r = 0
  · simp [State.reg, hzero]
  · rw [if_neg hzero]

/-- Settles O26, by the inversion of `exec`: each way to write a register names it as the destination. -/
theorem registerFrame : Obligations.RegisterFrame := by
  intro i s t r h hr
  have hne : ∀ {rD}, destination i = some rD → r ≠ rD := fun hd he => hr (he ▸ hd)
  cases exec_effect h with
  | links _ hd => exact reg_setReg_ne s (hne hd) _
  | writesRegister _ _ hd => exact reg_setReg_ne s (hne hd) _
  | adds _ _ c hd => exact reg_setReg_ne (s.setCY c) (hne hd) _
  | entersException _ he => rw [takeException_of_synchronousCause he]; rfl
  | setsPc | compares | stores | writesSr | writesEpc | writesEsr | returns => rfl

/-- After an instruction memory is as before, or a store put its bytes there. -/
theorem exec_mem {i : Instr} {s t : State} (h : exec i s = .next t) :
    t.mem = s.mem ∨ ∃ a bytes, storedSpan i s = some (a, bytes.length) ∧ t.mem = (s.putBytes a bytes).mem := by
  cases exec_effect h with
  | stores a bytes hs => exact .inr ⟨a, bytes, hs, rfl⟩
  | entersException e => exact .inl (takeException_keeps s e).1
  | setsPc | links | writesRegister | adds | compares | writesSr | writesEpc | writesEsr | returns => exact .inl rfl

/-- Settles O27: memory is as before, or as after the store to the bytes that the statement excepts. -/
theorem memoryFrame : Obligations.MemoryFrame := by
  intro i s t h
  rcases exec_mem h with hmem | ⟨a, bytes, hs, hmem⟩
  · exact ⟨fun _ => memRead1_congr hmem, fun _ _ _ b _ => memRead1_congr hmem b⟩
  · refine ⟨fun hnone => (by cases hnone.symm.trans hs), fun a' n hs' b hb => ?_⟩
    cases hs.symm.trans hs'
    rw [memRead1_congr hmem, memRead1_putBytes_outside s a b bytes hb]

/-- Settles O28, by the inversion of `exec`: EPC and ESR change in the cases that the statement excepts, the latch and
the surroundings in none. -/
theorem savedRegistersFrame : Obligations.SavedRegistersFrame := by
  intro i s t h
  cases exec_effect h with
  | entersException e he =>
    rw [takeException_of_synchronousCause he]
    exact ⟨rfl, ⟨rfl, rfl, rfl, rfl⟩, fun _ hnone => by cases hnone.symm.trans he⟩
  | writesEpc _ hi | writesEsr _ hi => exact ⟨rfl, ⟨rfl, rfl, rfl, rfl⟩, fun hne => absurd hi hne⟩
  | setsPc | links | writesRegister | adds | compares | stores | writesSr | returns =>
    exact ⟨rfl, ⟨rfl, rfl, rfl, rfl⟩, fun _ _ => ⟨rfl, rfl⟩⟩

/-! ### The invariant -/

/-- A register write keeps the hard-wired register's slot at 0: to that slot it has no effect (R23). -/
theorem inv_setReg {s : State} (h : s.Inv) (i : Reg) (v : Word) : (s.setReg i v).Inv := by
  obtain ⟨hmem, hsr, hesr, hcoherent, hzero⟩ := h
  refine ⟨hmem, hsr, hesr, hcoherent, fun hr0 => ?_⟩
  have hreg : (s.setReg i v).regs[(0 : Reg)] = s.regs[(0 : Reg)] := by
    rw [setReg_regs]
    split
    · rfl
    · next hi =>
      have hne : i.val ≠ 0 := fun h0 => hi ⟨hr0, Fin.ext h0⟩
      simp [hne]
  exact hreg.trans (hzero hr0)

/-- A write of SR that sets no reserved bit keeps the invariant (R34). -/
theorem inv_of_sr {s : State} (h : s.Inv) {v : Word} (hv : hasReservedBits s.platform.statusBits v = false) :
    State.Inv { s with sr := v } := by
  obtain ⟨hmem, -, hesr, hcoherent, hzero⟩ := h
  exact ⟨hmem, hv, hesr, hcoherent, hzero⟩

/-- Writing SR.F keeps the invariant. -/
theorem inv_setF {s : State} (h : s.Inv) (b : Bool) : (s.setF b).Inv := by
  obtain ⟨-, hsr, -⟩ := id h
  exact inv_of_sr h (hasReservedBits_withBit _ _ _ b (.inr (.inl rfl)) hsr)

/-- Writing SR.CY keeps the invariant. -/
theorem inv_setCY {s : State} (h : s.Inv) (b : Bool) : (s.setCY b).Inv := by
  obtain ⟨-, hsr, -⟩ := id h
  exact inv_of_sr h (hasReservedBits_withBit _ _ _ b (.inr (.inr rfl)) hsr)

/-- Writing bytes keeps the invariant. -/
theorem inv_putBytes {s : State} (h : s.Inv) (a : Word) (bytes : List Byte) : (s.putBytes a bytes).Inv := by
  obtain ⟨hmem, hrest⟩ := h
  exact ⟨putAll_wf _ _ _ hmem, hrest⟩

/-- No bit of 0 is reserved. -/
theorem hasReservedBits_zero (b : StatusBits) : hasReservedBits b 0#32 = false := by
  simp [hasReservedBits]

/-- Exception entry, reset included, keeps the invariant: SR becomes 0, and ESR the old SR or 0 (R270, R310). -/
theorem inv_takeException {s : State} (h : s.Inv) (e : Exception) : (s.takeException e).Inv := by
  obtain ⟨hmem, hsr, -, hcoherent, hzero⟩ := h
  obtain ⟨-, hesr', hsr', -, -, hregs'⟩ := takeException_fields s e
  obtain ⟨hmem', -, -, -, hplatform'⟩ := takeException_keeps s e
  rw [State.Inv, hmem', hsr', hesr', hregs', hplatform']
  refine ⟨hmem, hasReservedBits_zero _, ?_, hcoherent, ?_⟩
  · split
    · exact hasReservedBits_zero _
    · exact hsr
  · split
    · exact fun _ => rfl
    · exact hzero

/-- Every instruction keeps the invariant. -/
theorem inv_exec {i : Instr} {s t : State} (h : s.Inv) (hexec : exec i s = .next t) : t.Inv := by
  obtain ⟨hmem, hsr, hesr, hcoherent, hzero⟩ := id h
  cases exec_effect hexec with
  | setsPc => exact h
  | links => exact inv_setReg h _ _
  | writesRegister => exact inv_setReg h _ _
  | adds _ _ c => exact inv_setReg (inv_setCY h c) _ _
  | compares b => exact inv_setF h b
  | stores a bytes => exact inv_putBytes h a bytes
  | entersException e => exact inv_takeException h e
  | writesSr v _ hv => exact inv_of_sr h hv
  | writesEpc => exact h
  | writesEsr v _ hv => exact ⟨hmem, hsr, hv, hcoherent, hzero⟩
  | returns _ hv => exact inv_of_sr h hv

/-- Every move of the environment keeps the invariant. -/
theorem inv_applyMove {s : State} (h : s.Inv) (m : EnvMove) : (s.applyMove m).Inv := by
  cases m with
  | writeByte a v => exact inv_putBytes h a [v]
  | assertInterrupt | releaseInterrupt | pulseNmi | assertReset | releaseReset | setBusFaults => exact h

/-- Any number of moves keeps the invariant. -/
theorem inv_applyMoves {s : State} (h : s.Inv) (moves : List EnvMove) : (s.applyMoves moves).Inv := by
  induction moves generalizing s with
  | nil => exact h
  | cons m ms ih => exact ih (inv_applyMove h m)

/-- The state before a cycle meets the invariant. -/
theorem inv_afterMoves {s : State} (h : s.Inv) : s.afterMoves.Inv := by
  obtain ⟨moves, hmoves⟩ := exists_afterMoves_eq_applyMoves s
  rw [hmoves]
  exact inv_applyMoves (s := { s with script := s.script.tail }) h moves

/-- Settles O8: the moves keep the invariant, and so does the exception that the cycle enters or the instruction that it
runs. -/
theorem stepKeepsInvariant : Obligations.StepKeepsInvariant := by
  intro s t h hstep
  rcases cycle_next hstep with ⟨e, rfl⟩ | ⟨i, -, hexec⟩
  · exact inv_takeException (inv_afterMoves h) e
  · exact inv_exec (inv_afterMoves h) hexec

/-! ### The platform -/

/-- Of the platform, the moves of the environment change `BusFault` at most (R296). -/
theorem applyMoves_platform (s : State) (moves : List EnvMove) :
    (s.applyMoves moves).platform = { s.platform with busFaults := (s.applyMoves moves).platform.busFaults } := by
  induction moves generalizing s with
  | nil => rfl
  | cons m ms ih =>
    have hrest := ih (s.applyMove m)
    rw [applyMove_platform] at hrest
    exact hrest

/-- The moves before a cycle change `BusFault` at most (R296). -/
theorem afterMoves_platform (s : State) :
    s.afterMoves.platform = { s.platform with busFaults := s.afterMoves.platform.busFaults } := by
  obtain ⟨moves, hmoves⟩ := exists_afterMoves_eq_applyMoves s
  rw [hmoves]
  exact applyMoves_platform { s with script := s.script.tail } moves

/-- A cycle changes nothing of the platform. -/
theorem cycle_platform {s t : State} (h : cycle s = .next t) : t.platform = s.platform := by
  rcases cycle_next h with ⟨e, rfl⟩ | ⟨i, -, hexec⟩
  · obtain ⟨-, -, -, -, hplatform⟩ := takeException_keeps s e
    exact hplatform
  · obtain ⟨-, ⟨-, -, -, hplatform⟩, -⟩ := savedRegistersFrame i s t hexec
    exact hplatform

/-- Settles O9: the moves change `BusFault` at most, the cycle nothing; and the values of R6 are those of the default
platform. -/
theorem stepKeepsPlatformConstants : Obligations.StepKeepsPlatformConstants := by
  refine ⟨fun s t hstep => ?_, rfl, rfl, rfl, rfl, rfl, rfl, rfl⟩
  rw [cycle_platform hstep]
  exact afterMoves_platform s

/-! ### Progress -/

/-- Each byte of an access is mapped exactly if `Mapped` holds of each of its addresses (R67). -/
theorem mappedSpan_eq_true_iff (s : State) (a : Word) (n : Nat) :
    s.mappedSpan a n = true ↔ ∀ j, j < n → s.mappedAt (a + BitVec.ofNat 32 j) = true := by
  simp [State.mappedSpan]

/-- A platform on which no data access is refused or finds no memory: it has memory at every address, and does not
refuse misaligned data. -/
structure MemoryEverywhere (s : State) : Prop where
  mapped : ∀ a, s.mappedAt a = true
  accepts : s.platform.misalignedData ≠ .refuse

/-- With memory everywhere each access has it. -/
theorem MemoryEverywhere.mappedSpan {s : State} (h : MemoryEverywhere s) (a : Word) (n : Nat) :
    s.mappedSpan a n = true :=
  (mappedSpan_eq_true_iff ..).2 fun _ _ => h.mapped _

/-- With memory everywhere no access is refused. -/
theorem MemoryEverywhere.refusesAccess {s : State} (h : MemoryEverywhere s) (a : Word) (n : Nat) :
    s.refusesAccess a n = false := by
  refine Bool.eq_false_iff.2 fun hrefuses => ?_
  obtain ⟨hp, -⟩ := (refusesAccess_eq_true_iff s a n).1 hrefuses
  exact h.accepts hp

/-- With memory everywhere a load has a next state. -/
theorem loadInto_goesOn {n : Nat} {read : State → Word → Word} {rD rA : Reg} {imm : Half} {s : State}
    (h : MemoryEverywhere s) : ∃ t, loadInto n read rD rA imm s = .next t := by
  rcases loadInto_cases n read rD rA imm s with ⟨hr, -⟩ | ⟨-, -, hl⟩ | ⟨-, -, -, hl⟩ | ⟨-, -, hm, -⟩
  · cases (h.refusesAccess ..).symm.trans hr
  · exact ⟨_, hl⟩
  · exact ⟨_, hl⟩
  · cases (h.mappedSpan ..).symm.trans hm

/-- With memory everywhere a store has a next state. -/
theorem storeFrom_goesOn {n : Nat} {write : State → Word → Word → State} {rA rB : Reg} {imm : Half} {s : State}
    (h : MemoryEverywhere s) : ∃ t, storeFrom n write rA rB imm s = .next t := by
  rcases storeFrom_cases n write rA rB imm s with ⟨hr, -⟩ | ⟨-, -, hl⟩ | ⟨-, -, -, hl⟩ | ⟨-, -, hm, -⟩
  · cases (h.refusesAccess ..).symm.trans hr
  · exact ⟨_, hl⟩
  · exact ⟨_, hl⟩
  · cases (h.mappedSpan ..).symm.trans hm

/-- l.rfe goes back where ESR has no reserved bit (R283). -/
theorem exec_lRfe {s : State} (h : hasReservedBits s.platform.statusBits s.esr = false) :
    exec .lRfe s = .next { s with pc := s.epc, sr := s.esr } := by
  show s.returnFromException = _
  rw [State.returnFromException, h]
  rfl

/-- With memory everywhere and no reserved bit in ESR, only a move of a special register can stop. -/
theorem exec_goesOn {s : State} (h : MemoryEverywhere s) (hesr : hasReservedBits s.platform.statusBits s.esr = false)
    (i : Instr) : (∃ t, exec i s = .next t) ∨ IsMfspr i ∨ IsMtspr i := by
  cases i with
  | lMfspr rD rA imm => exact .inr (.inl ⟨rD, rA, imm, rfl⟩)
  | lMtspr rA rB imm => exact .inr (.inr ⟨rA, rB, imm, rfl⟩)
  | lLbs | lLbz | lLhs | lLhz | lLws | lLwz => unfold exec; exact .inl (loadInto_goesOn h)
  | lSb | lSh | lSw => unfold exec; exact .inl (storeFrom_goesOn h)
  | lRfe => exact .inl ⟨_, exec_lRfe hesr⟩
  | _ => exact .inl ⟨_, rfl⟩

/-- With memory everywhere and no reserved bit in ESR, a cycle stops at most at a move of a special register. -/
theorem cycle_goesOn {s : State} (h : MemoryEverywhere s) (hesr : hasReservedBits s.platform.statusBits s.esr = false) :
    (∃ t, cycle s = .next t) ∨ ∃ i, s.decoded = .ok i ∧ (IsMfspr i ∨ IsMtspr i) := by
  rcases cycle_cases s with ⟨-, hc⟩ | ⟨-, -, hc⟩ | ⟨-, -, -, hm, -⟩ |
      ⟨-, -, -, -, ⟨_, -, hc⟩ | ⟨_, _, -, -, hc⟩ | ⟨i, hd, -, hc⟩⟩
  · exact .inl ⟨_, hc⟩
  · exact .inl ⟨_, hc⟩
  · cases (h.mappedSpan ..).symm.trans hm
  · exact .inl ⟨_, hc⟩
  · exact .inl ⟨_, hc⟩
  · rcases exec_goesOn h hesr i with ⟨t, ht⟩ | hi
    · exact .inl ⟨t, hc.trans ht⟩
    · exact .inr ⟨i, hd, hi⟩

/-- The moves of the environment leave memory everywhere. -/
theorem MemoryEverywhere.afterMoves {s : State} (h : MemoryEverywhere s) : MemoryEverywhere s.afterMoves where
  mapped a := by
    rw [State.mappedAt, afterMoves_platform]
    exact h.mapped a
  accepts := by
    rw [afterMoves_platform]
    exact h.accepts

/-- Settles O29: after the moves there is still memory everywhere, and the invariant says that ESR has no reserved
bit. -/
theorem machineGoesOn : Obligations.MachineGoesOn := by
  intro s h hmapped hrefuse
  obtain ⟨-, -, hesr, -⟩ := inv_afterMoves h
  exact cycle_goesOn (MemoryEverywhere.afterMoves ⟨hmapped, hrefuse⟩) hesr

end Sys2Proof.Machine

namespace Sys2Proof

/-! ### The bytes of a word (R62 to R64) -/

/-- Appending a byte loses nothing. -/
theorem append_byte_inj {n : Nat} {x y : BitVec n} {b c : Byte} (h : x ++ b = y ++ c) : x = y ∧ b = c := by
  have hupper := congrArg (BitVec.extractLsb' 8 n) h
  have hlower := congrArg (BitVec.extractLsb' 0 8) h
  rw [BitVec.extractLsb'_append_eq_left, BitVec.extractLsb'_append_eq_left] at hupper
  rw [BitVec.extractLsb'_append_eq_right, BitVec.extractLsb'_append_eq_right] at hlower
  exact ⟨hupper, hlower⟩

/-- The bytes of a word put together from four bytes are those four. -/
theorem field_wordOfBytes (b0 b1 b2 b3 : Byte) :
    field (wordOfBytes b0 b1 b2 b3) 24 8 = b0 ∧ field (wordOfBytes b0 b1 b2 b3) 16 8 = b1 ∧
      field (wordOfBytes b0 b1 b2 b3) 8 8 = b2 ∧ field (wordOfBytes b0 b1 b2 b3) 0 8 = b3 := by
  obtain ⟨h, h3⟩ := append_byte_inj (wordOfBytes_bytesOfWord (wordOfBytes b0 b1 b2 b3))
  obtain ⟨h, h2⟩ := append_byte_inj h
  obtain ⟨h0, h1⟩ := append_byte_inj h
  exact ⟨h0, h1, h2, h3⟩

/-- The bytes of a half word, put together again, are the half word. -/
theorem append_bytesOfHalf (h : Half) : h.extractLsb' 8 8 ++ h.extractLsb' 0 8 = h := by
  rw [BitVec.extractLsb'_append_extractLsb'_eq_extractLsb' (rfl : 8 = 0 + 8)]
  exact BitVec.extractLsb'_eq_self

/-- The upper and the lower two bytes of a word, put together, are its halves. -/
theorem append_bytes_eq_halves (w : Word) :
    w.extractLsb' 24 8 ++ w.extractLsb' 16 8 = w.extractLsb' 16 16 ∧
      w.extractLsb' 8 8 ++ w.extractLsb' 0 8 = w.extractLsb' 0 16 :=
  ⟨BitVec.extractLsb'_append_extractLsb'_eq_extractLsb' (rfl : 24 = 16 + 8),
    BitVec.extractLsb'_append_extractLsb'_eq_extractLsb' (rfl : 8 = 0 + 8)⟩

end Sys2Proof

namespace Sys2Proof.Machine

/-! ### Memory through the state -/

/-- A word written, byte by byte. -/
theorem memRead1_memWrite4 (s : State) (a w : Word) (hw : Memory.wf s.mem) {k : Nat} (hk : k < 4) :
    (s.memWrite4 a w).memRead1 (a + BitVec.ofNat 32 k) =
      w.extractLsb' (8 * (if s.platform.bigEndian = true then 3 - k else k)) 8 := by
  rw [State.memWrite4, memRead1_putBytes_inside s a _ hw (by simp) k (by simpa using hk)]
  cases hb : s.platform.bigEndian <;> match k with
    | 0 | 1 | 2 | 3 => simp [State.inMemoryOrder, hb]

/-- A half word written, byte by byte. -/
theorem memRead1_memWrite2 (s : State) (a : Word) (h : Half) (hw : Memory.wf s.mem) {k : Nat} (hk : k < 2) :
    (s.memWrite2 a h).memRead1 (a + BitVec.ofNat 32 k) =
      h.extractLsb' (8 * (if s.platform.bigEndian = true then 1 - k else k)) 8 := by
  rw [State.memWrite2, memRead1_putBytes_inside s a _ hw (by simp) k (by simpa using hk)]
  cases hb : s.platform.bigEndian <;> match k with
    | 0 | 1 => simp [State.inMemoryOrder, hb]

/-- A word written reads back, in either byte order (R68). -/
theorem memRead4_memWrite4 (s : State) (a w : Word) (hw : Memory.wf s.mem) : (s.memWrite4 a w).memRead4 a = w := by
  have h0 := memRead1_memWrite4 s a w hw (k := 0) (by decide)
  have h1 := memRead1_memWrite4 s a w hw (k := 1) (by decide)
  have h2 := memRead1_memWrite4 s a w hw (k := 2) (by decide)
  have h3 := memRead1_memWrite4 s a w hw (k := 3) (by decide)
  rw [BitVec.add_zero] at h0
  rw [State.memRead4, memWrite4_platform, h0, h1, h2, h3]
  cases s.platform.bigEndian <;> exact wordOfBytes_bytesOfWord w

/-- A half word written reads back, in either byte order (R68). -/
theorem memRead2_memWrite2 (s : State) (a : Word) (h : Half) (hw : Memory.wf s.mem) :
    (s.memWrite2 a h).memRead2 a = h := by
  have h0 := memRead1_memWrite2 s a h hw (k := 0) (by decide)
  have h1 := memRead1_memWrite2 s a h hw (k := 1) (by decide)
  rw [BitVec.add_zero] at h0
  rw [State.memRead2, memWrite2_platform, h0, h1]
  cases s.platform.bigEndian <;> exact append_bytesOfHalf h

/-- Settles O31: each width reads back, and on a big-endian platform the bytes of a word stand from the top down. -/
theorem storedBytesReadBack : Obligations.StoredBytesReadBack := by
  intro s a w h b hw
  refine ⟨memRead4_memWrite4 s a w hw, memRead2_memWrite2 s a h hw, (memRead1_memWrite1 s a a b hw).trans (if_pos rfl),
    fun hbig _ => ?_⟩
  have hbyte : ∀ k, k < 4 → (s.memWrite4 a w).memRead1 (a + BitVec.ofNat 32 k) = w.extractLsb' (8 * (3 - k)) 8 := by
    intro k hk
    rw [memRead1_memWrite4 s a w hw hk, if_pos hbig]
  have h0 : (s.memWrite4 a w).memRead1 a = w.extractLsb' 24 8 := by simpa using hbyte 0
  have h1 : (s.memWrite4 a w).memRead1 (a + 1#32) = w.extractLsb' 16 8 := hbyte 1 (by decide)
  have h2 : (s.memWrite4 a w).memRead1 (a + 2#32) = w.extractLsb' 8 8 := hbyte 2 (by decide)
  have h3 : (s.memWrite4 a w).memRead1 (a + 3#32) = w.extractLsb' 0 8 := hbyte 3 (by decide)
  obtain ⟨hupper, hlower⟩ := append_bytes_eq_halves w
  have h23 : a + 2#32 + 1#32 = a + 3#32 := by rw [BitVec.add_assoc]; rfl
  refine ⟨h0, h1, h2, h3, ?_, ?_⟩
  · rw [State.memRead2, memWrite4_platform, if_pos hbig, h0, h1, hupper]
  · rw [State.memRead2, memWrite4_platform, if_pos hbig, h23, h2, h3, hlower]

/-- The bytes of a word that a load reads, in either byte order (R62). -/
theorem extractLsb'_memRead4 (s : State) (a : Word) {k : Nat} (hk : k < 4) :
    (s.memRead4 a).extractLsb' (8 * (if s.platform.bigEndian = true then 3 - k else k)) 8 =
      s.memRead1 (a + BitVec.ofNat 32 k) := by
  cases hb : s.platform.bigEndian with
  | true =>
    obtain ⟨h0, h1, h2, h3⟩ := field_wordOfBytes (s.memRead1 a) (s.memRead1 (a + 1#32)) (s.memRead1 (a + 2#32))
      (s.memRead1 (a + 3#32))
    rw [State.memRead4, if_pos hb, if_pos rfl]
    match k with
    | 0 => rw [BitVec.add_zero]; exact h0
    | 1 => exact h1
    | 2 => exact h2
    | 3 => exact h3
  | false =>
    obtain ⟨h3, h2, h1, h0⟩ := field_wordOfBytes (s.memRead1 (a + 3#32)) (s.memRead1 (a + 2#32)) (s.memRead1 (a + 1#32))
      (s.memRead1 a)
    rw [State.memRead4, if_neg Bool.false_ne_true, if_neg (by simp [hb])]
    match k with
    | 0 => rw [BitVec.add_zero]; exact h0
    | 1 => exact h1
    | 2 => exact h2
    | 3 => exact h3

/-- Settles O11: the placed word is fetched and decoded, and nothing comes before it. -/
theorem placedInstructionRuns : Obligations.PlacedInstructionRuns := by
  intro s i hmem henc hscript hfetch hnmi hintr hi
  have hword : BitVec.ofNat 32 ((encodeWord s.platform.encoding i).toNat % 2 ^ 32) =
      encodeWord s.platform.encoding i := by
    rw [Nat.mod_eq_of_lt (encodeWord s.platform.encoding i).isLt, BitVec.ofNat_toNat, BitVec.setWidth_eq]
  have hfetched : (s.withFetchWord 32 (encodeWord s.platform.encoding i).toNat).fetched =
      encodeWord s.platform.encoding i := by
    rw [State.fetched, State.withFetchWord, hword]
    exact memRead4_memWrite4 s s.pc _ hmem
  generalize ht : s.withFetchWord 32 (encodeWord s.platform.encoding i).toNat = t at hfetched ⊢
  have hd : t.decoded = .ok i := by
    rw [State.decoded, hfetched, ← ht]
    exact decodeWord_encodeWord henc hi
  rw [step, afterMoves_of_script_nil (ht ▸ hscript)]
  exact cycle_of_not_preempted (ht ▸ hfetch) hd (preemptingInterrupt_eq_none (.inr (ht ▸ ⟨hnmi, .inl hintr⟩)))

end Sys2Proof.Machine

namespace Sys2Proof.Machine

/-! ### Arithmetic, logic and shifts -/

/-- A register write that falls through changes that register and `pc` (R140, R167). -/
theorem writesOnly_setReg_advance (s : State) (rD : Reg) (v : Word) : WritesOnly s (s.setReg rD v).advance rD v :=
  ⟨fun r => reg_setReg s rD r v, rfl, rfl, fun _ => rfl, ⟨rfl, rfl, rfl⟩, ⟨rfl, rfl, rfl, rfl⟩⟩

/-- What the logical instructions, l.sub and the shifts share: the result goes to `x[rD]`, and nothing else but `pc`
changes. -/
theorem finish_writesOnly (s : State) (rD : Reg) {v v' : Word} (h : v = v') :
    ∃ t, finish rD v s = .next t ∧ WritesOnly s t rD v' :=
  ⟨_, rfl, h ▸ writesOnly_setReg_advance s rD v⟩

/-- The sum of two words and a carry, written out to 33 bits, as `AddsInto` has it. -/
abbrev sumBits (a b : Word) (c : Bool) : BitVec 33 :=
  a.setWidth 33 + b.setWidth 33 + (BitVec.ofBool c).setWidth 33

/-- The sum written out to 33 bits is the exact sum (R152). -/
theorem toNat_sumBits (a b : Word) (c : Bool) : (sumBits a b c).toNat = sum33 a b c := by
  have hsum := sum33_le a b c
  have ha := a.isLt
  have hb := b.isLt
  have hc := c.toNat_le
  unfold sum33 at *
  simp only [BitVec.toNat_add, BitVec.toNat_setWidth, BitVec.toNat_ofBool]
  omega

/-- Bit 32 of a 33-bit value says whether it reaches `2^32`. -/
theorem getLsbD_32_eq_decide (x : BitVec 33) : x.getLsbD 32 = decide (2 ^ 32 ≤ x.toNat) :=
  (BitVec.msb_eq_getLsbD_last x).symm.trans (BitVec.msb_eq_decide x)

/-- An addition writes the low 32 bits of the 33-bit sum to `x[rD]` and its bit 32 to SR.CY (R152). -/
theorem addInto_addsInto (rD : Reg) (a b : Word) (c : Bool) (s : State) :
    ∃ t, addInto rD a b c s = .next t ∧ AddsInto s t rD a b c := by
  have hresult : sumResult a b c = (sumBits a b c).setWidth 32 := by
    rw [sumResult, ← toNat_sumBits, BitVec.ofNat_toNat]
  have hcarry : carryOut a b c = (sumBits a b c).getLsbD 32 := by
    rw [carryOut, ← toNat_sumBits]
    exact (getLsbD_32_eq_decide _).symm
  refine ⟨_, rfl, fun r => ?_, hcarry ▸ flagCY_setCY s _, setCY_keepsOther s _, rfl, fun _ => rfl, ⟨rfl, rfl, rfl⟩,
    ⟨rfl, rfl, rfl, rfl⟩⟩
  rw [← hresult]
  exact reg_setReg (s.setCY _) rD r _

/-- Settles O33: l.add, l.addc and l.addi are `addInto` with carry in 0, SR.CY and 0. -/
theorem additionsWriteSumAndCarry : Obligations.AdditionsWriteSumAndCarry := fun rD rA rB imm s =>
  ⟨addInto_addsInto rD (s.reg rA) (s.reg rB) false s, addInto_addsInto rD (s.reg rA) (s.reg rB) s.flagCY s,
    addInto_addsInto rD (s.reg rA) (imm.signExtend 32) false s⟩

/-- The difference of two words is their difference as integers, modulo `2^32` (R149). -/
theorem ofInt_sub_toNat (a b : Word) : BitVec.ofInt 32 (a.toNat - b.toNat : Int) = a - b := by
  apply BitVec.eq_of_toInt_eq
  rw [BitVec.toInt_ofInt, BitVec.toInt_sub, BitVec.toInt_eq_toNat_bmod, BitVec.toInt_eq_toNat_bmod]
  simp

/-- Settles O35: each writes its result to `x[rD]` and falls through. -/
theorem registerLogicAndSubtract : Obligations.RegisterLogicAndSubtract := fun rD rA rB s =>
  ⟨finish_writesOnly s rD rfl, finish_writesOnly s rD rfl, finish_writesOnly s rD rfl,
    finish_writesOnly s rD (ofInt_sub_toNat (s.reg rA) (s.reg rB)).symm⟩

/-- The zero-extended immediate is the immediate under a zero half word (R8). -/
theorem zeroExtended_eq_append (imm : Half) : zeroExtended imm = 0#16 ++ imm :=
  BitVec.setWidth_eq_append (by decide)

/-- The immediate of l.movhi stands in the upper half (R146). -/
theorem highHalf_eq_ofNat (imm : Half) : highHalf imm = BitVec.ofNat 32 (imm.toNat * 2 ^ 16) := by
  apply BitVec.eq_of_toNat_eq
  have himm := imm.isLt
  rw [highHalf, BitVec.toNat_append, BitVec.toNat_zero, Nat.or_zero, Nat.shiftLeft_eq, BitVec.toNat_ofNat,
    Nat.mod_eq_of_lt (by omega)]

/-- Settles O36: each writes its result to `x[rD]`, with the immediate extended as its rule says. -/
theorem immediateLogic : Obligations.ImmediateLogic := fun rD rA imm s =>
  ⟨finish_writesOnly s rD (congrArg (s.reg rA &&& ·) (zeroExtended_eq_append imm)),
    finish_writesOnly s rD (congrArg (s.reg rA ||| ·) (zeroExtended_eq_append imm)),
    finish_writesOnly s rD (highHalf_eq_ofNat imm), finish_writesOnly s rD rfl⟩

/-- A shift to the left multiplies (R161). -/
theorem shiftLeft_eq_ofNat (v : Word) (n : Nat) : shiftLeft v n = BitVec.ofNat 32 (v.toNat * 2 ^ n) := by
  apply BitVec.eq_of_toNat_eq
  rw [shiftLeft, BitVec.toNat_shiftLeft, Nat.shiftLeft_eq, BitVec.toNat_ofNat]

/-- A logical shift to the right divides the unsigned value (R165). -/
theorem shiftRightLogical_eq_ofNat (v : Word) (n : Nat) :
    shiftRightLogical v n = BitVec.ofNat 32 (v.toNat / 2 ^ n) := by
  apply BitVec.eq_of_toNat_eq
  have hlt : v.toNat / 2 ^ n < 2 ^ 32 := Nat.lt_of_le_of_lt (Nat.div_le_self ..) v.isLt
  rw [shiftRightLogical, BitVec.toNat_ushiftRight, Nat.shiftRight_eq_div_pow, BitVec.toNat_ofNat, Nat.mod_eq_of_lt hlt]

/-- An arithmetic shift to the right divides the signed value and rounds down (R163). -/
theorem shiftRightArithmetic_eq_ofInt (v : Word) (n : Nat) :
    shiftRightArithmetic v n = BitVec.ofInt 32 (v.toInt / 2 ^ n) := by
  rw [shiftRightArithmetic, BitVec.sshiftRight_eq, Int.shiftRight_eq_div_pow]
  norm_cast

/-- The amount of a register shift is the register's value modulo 32 (R160). -/
theorem registerAmount_eq_mod (v : Word) : registerAmount v = v.toNat % 32 := by
  simp [registerAmount]

/-- Settles O37: each shift is the multiplication or division, by the register's low five bits. -/
theorem registerShifts : Obligations.RegisterShifts := by
  intro rD rA rB s
  rw [← registerAmount_eq_mod]
  exact ⟨finish_writesOnly s rD (shiftLeft_eq_ofNat ..), finish_writesOnly s rD (shiftRightLogical_eq_ofNat ..),
    finish_writesOnly s rD (shiftRightArithmetic_eq_ofInt ..)⟩

/-- Settles O38: each shift is the multiplication or division, by the low five bits of L. -/
theorem immediateShifts : Obligations.ImmediateShifts := fun rD _ L s =>
  ⟨finish_writesOnly s rD (shiftLeft_eq_ofNat _ (L % 32)),
    finish_writesOnly s rD (shiftRightLogical_eq_ofNat _ (L % 32)),
    finish_writesOnly s rD (shiftRightArithmetic_eq_ofInt _ (L % 32))⟩

/-! ### Jumps, l.nop, l.rfe and register 0 -/

/-- Settles O43: l.jr is a jump, l.jalr a link and a jump, to the register's value from before the link. -/
theorem jumpsThroughRegister : Obligations.JumpsThroughRegister := fun rB s =>
  ⟨⟨s.jumpTo (s.reg rB), rfl, changesPcOnly_jumpTo s _⟩,
    ⟨s.link.jumpTo (s.reg rB), rfl, rfl, reg_link s, rfl, keepsAllElse_link_jumpTo s _⟩⟩

/-- The offset of a branch is 4 times N, as signed numbers (R113). -/
theorem toInt_offset (N : BitVec 26) : (N ++ 0#2 : BitVec 28).toInt = 4 * N.toInt := by
  rw [BitVec.toInt_append]
  simp

/-- The target of a branch in signed arithmetic (R200). -/
theorem branchTarget_eq_ofInt (s : State) (N : BitVec 26) :
    s.branchTarget N = BitVec.ofInt 32 (s.pc.toNat + 4 * N.toInt) := by
  rw [State.branchTarget, BitVec.signExtend, toInt_offset, BitVec.ofInt_add, BitVec.ofInt_natCast, BitVec.ofNat_toNat,
    BitVec.setWidth_eq]

/-- Settles O44: the signed arithmetic gives the three targets, and keeps multiples of 4. -/
theorem branchTargetArithmetic : Obligations.BranchTargetArithmetic := by
  intro s N
  have hoffset : ∀ {M : BitVec 26} {d : Word}, (M ++ 0#2 : BitVec 28).signExtend 32 = d → s.branchTarget M = s.pc + d :=
    fun h => h ▸ rfl
  refine ⟨branchTarget_eq_ofInt s N, ?self, hoffset (by decide), ?before, fun halign => ?aligned⟩
  case self => rw [hoffset (d := 0#32) (by decide), BitVec.add_zero]
  case before => rw [hoffset (d := -4#32) (by decide), BitVec.sub_eq_add_neg]
  case aligned =>
    rw [branchTarget_eq_ofInt, BitVec.toNat_ofInt]
    omega

/-- Settles O58: to go on with the next instruction is a jump to it. -/
theorem nopOnlyAdvances : Obligations.NopOnlyAdvances := fun _ s => ⟨s.advance, rfl, changesPcOnly_jumpTo s _⟩

/-- The reserved bits of R34 are those that the statements leave out. -/
theorem hasReservedBits_eq_false_of_onlyNamedBits {b : StatusBits} {v : Word} (h : OnlyNamedBits b v) :
    hasReservedBits b v = false :=
  (hasReservedBits_eq_false_iff b v).2 h

/-- Settles O59: l.rfe restores `pc` and SR from EPC and ESR, and these are where an exception entry saves them. -/
theorem returnFromException : Obligations.ReturnFromException := by
  refine ⟨fun s hesr => ?restores, fun s e he hsr => ?undoes⟩
  case restores =>
    exact ⟨_, exec_lRfe (hasReservedBits_eq_false_of_onlyNamedBits hesr), rfl, rfl, fun _ => rfl, fun _ => rfl,
      ⟨rfl, rfl, rfl⟩, ⟨rfl, rfl, rfl, rfl⟩⟩
  case undoes =>
    obtain ⟨hepc, hesr, -, -, -, hregs, hmem, -, -, -, hplatform⟩ := entered_takeException s he
    have hnamed : OnlyNamedBits (s.takeException e).platform.statusBits (s.takeException e).esr := by
      rwa [hplatform, hesr]
    exact ⟨_, exec_lRfe (hasReservedBits_eq_false_of_onlyNamedBits hnamed), hepc, hesr, hregs, hmem⟩

/-- Settles O32: register 0 is hard-wired to zero, or a register like the others. -/
theorem registerZeroByPlatform : Obligations.RegisterZeroByPlatform := by
  intro s v
  constructor
  · intro hzero
    constructor
    · simp [State.reg, hzero]
    · simp [State.setReg, hzero]
  · intro hordinary
    simp [reg_setReg, hordinary]

end Sys2Proof.Machine

namespace Sys2Proof.Machine

/-! ### Loads and stores that go through -/

/-- An access whose alignment is allowed is not refused, and is erroneous only where the platform declares it (R66,
R67). -/
theorem AlignmentAllows.checks {s : State} {a : Word} {n : Nat} {k : AccessKind} (halign : AlignmentAllows s a n)
    (hbus : s.busFaultAt a n k = false) : s.refusesAccess a n = false ∧ s.erroneous a n k = false := by
  have hallowed : ∀ p, s.platform.misalignedData = p ∧ a.toNat % n ≠ 0 → p = .split := fun p hp =>
    halign.elim (absurd · hp.2) (hp.1.symm.trans ·)
  have hrefuses : s.refusesAccess a n = false :=
    Bool.eq_false_iff.2 fun hr => nomatch hallowed _ ((refusesAccess_eq_true_iff s a n).1 hr)
  refine ⟨hrefuses, Bool.eq_false_iff.2 fun he => ?_⟩
  rcases (erroneous_eq_true_iff s a n k hrefuses).1 he with hmis | hbus'
  · exact nomatch hallowed _ hmis
  · cases hbus.symm.trans hbus'

/-- An access that goes through passes the checks: it is not refused, not erroneous, and has memory (R66, R67). -/
theorem AccessGoesThrough.checks {s : State} {a : Word} {n : Nat} {k : AccessKind} (h : AccessGoesThrough s a n k) :
    s.refusesAccess a n = false ∧ s.erroneous a n k = false ∧ s.mappedSpan a n = true := by
  obtain ⟨halign, hbus, hmapped⟩ := h
  obtain ⟨hrefuses, herroneous⟩ := halign.checks hbus
  exact ⟨hrefuses, herroneous, (mappedSpan_eq_true_iff ..).2 hmapped⟩

/-- A load that goes through writes what it reads to `x[rD]`, and changes nothing else but `pc` (R70). -/
theorem loadInto_writesOnly {n : Nat} {read : State → Word → Word} {rA : Reg} {imm : Half} {s : State} (rD : Reg)
    {v : Word} (h : AccessGoesThrough s (accessAddress s rA imm n) n .load)
    (hv : read s (accessAddress s rA imm n) = v) :
    ∃ t, loadInto n read rD rA imm s = .next t ∧ WritesOnly s t rD v := by
  rw [accessAddress_eq_dataAddress] at h hv
  obtain ⟨hrefuses, herroneous, hmapped⟩ := h.checks
  refine ⟨_, ?_, writesOnly_setReg_advance s rD v⟩
  simp [loadInto, hrefuses, herroneous, hmapped, hv]

/-- Settles O46: the byte is `MemRead` of one byte, sign- or zero-extended. -/
theorem byteLoads : Obligations.ByteLoads := by
  intro rD rA imm s h
  unfold exec
  exact ⟨loadInto_writesOnly rD h rfl, loadInto_writesOnly rD h (BitVec.ofNat_toNat ..).symm⟩

/-- Settles O47: the half word is `MemRead` of two bytes. -/
theorem halfWordLoads : Obligations.HalfWordLoads := by
  intro rD rA imm s h
  unfold exec
  exact ⟨s.memRead2 (accessAddress s rA imm 2), fun hbig => if_pos hbig, fun hlittle => if_neg (by simp [hlittle]),
    loadInto_writesOnly rD h rfl, loadInto_writesOnly rD h (BitVec.ofNat_toNat ..).symm⟩

/-- Settles O48: the word is `MemRead` of four bytes. -/
theorem wordLoads : Obligations.WordLoads := by
  intro rD rA imm s h
  refine ⟨s.memRead4 (accessAddress s rA imm 4), fun hbig k hk => ?_, fun hlittle k hk => ?_,
    loadInto_writesOnly rD h rfl, loadInto_writesOnly rD h rfl⟩
  · rw [← extractLsb'_memRead4 s _ hk, if_pos hbig]
  · rw [← extractLsb'_memRead4 s _ hk, if_neg (by simp [hlittle])]

/-- A store that goes through puts its bytes from the address of the access up, and changes nothing else but `pc`
(R70). -/
theorem storeFrom_storesOnly {n : Nat} {write : State → Word → Word → State} {rA rB : Reg} {imm : Half} {s : State}
    {bytes : List Byte} (h : AccessGoesThrough s (accessAddress s rA imm n) n .store)
    (hw : write s (accessAddress s rA imm n) (s.reg rB) = s.putBytes (accessAddress s rA imm n) bytes)
    (hn : bytes.length = n) :
    storeFrom n write rA rB imm s = .next (s.putBytes (accessAddress s rA imm n) bytes).advance ∧
      StoresOnly s (s.putBytes (accessAddress s rA imm n) bytes).advance (accessAddress s rA imm n) n := by
  subst hn
  refine ⟨?_, fun b hb => memRead1_putBytes_outside s _ b bytes hb, fun _ => rfl, rfl, rfl, ⟨rfl, rfl, rfl⟩,
    ⟨rfl, rfl, rfl, rfl⟩⟩
  rw [accessAddress_eq_dataAddress] at h hw ⊢
  obtain ⟨hrefuses, herroneous, hmapped⟩ := h.checks
  simp [storeFrom, hrefuses, herroneous, hmapped, hw]

/-- Settles O49: the one byte written reads back. -/
theorem byteStore : Obligations.ByteStore := by
  intro rA rB imm s hmem h
  obtain ⟨hexec, honly⟩ := storeFrom_storesOnly (bytes := [(s.reg rB).extractLsb' 0 8]) h
    (write := fun t a v => t.memWrite1 a (v.extractLsb' 0 8)) rfl rfl
  refine ⟨_, hexec, honly, ?_⟩
  have hbyte : State.memRead1 (s.memWrite1 (accessAddress s rA imm 1) ((s.reg rB).extractLsb' 0 8)) _ =
      (s.reg rB).extractLsb' 0 8 := (memRead1_memWrite1 s _ _ _ hmem).trans (if_pos rfl)
  exact (congrArg BitVec.toNat hbyte).trans (by simp)

/-- A byte of the low half of a word is a byte of the word. -/
theorem extractLsb'_lowHalf (w : Word) {lo : Nat} (h : lo + 8 ≤ 16) :
    (w.extractLsb' 0 16).extractLsb' lo 8 = w.extractLsb' lo 8 := by
  apply BitVec.eq_of_getLsbD_eq
  intro k hk
  have hlow : lo + k < 16 := by omega
  simp [hlow]

/-- Settles O50: the two bytes written read back, in the platform's byte order. -/
theorem halfWordStore : Obligations.HalfWordStore := by
  intro rA rB imm s hmem h
  obtain ⟨hexec, honly⟩ := storeFrom_storesOnly h (write := fun t a v => t.memWrite2 a (v.extractLsb' 0 16)) rfl
    (inMemoryOrder_length ..)
  refine ⟨_, hexec, honly, fun k hk => ?_⟩
  refine (memRead1_memWrite2 s _ ((s.reg rB).extractLsb' 0 16) hmem hk).trans ?_
  have hshift : 8 * (if s.platform.bigEndian = true then 1 - k else k) + 8 ≤ 16 := by split <;> omega
  rw [extractLsb'_lowHalf _ hshift]

/-- Settles O51: the four bytes written read back, in the platform's byte order. -/
theorem wordStore : Obligations.WordStore := by
  intro rA rB imm s hmem h
  obtain ⟨hexec, honly⟩ := storeFrom_storesOnly h (write := State.memWrite4) rfl (inMemoryOrder_length ..)
  exact ⟨_, hexec, honly, fun k hk => memRead1_memWrite4 s _ _ hmem hk⟩

/-! ### Accesses that do not go through -/

/-- An instruction whose own exception is the bus error takes it and does nothing else. -/
theorem takesBusError_of_cause {i : Instr} {s : State} (h : synchronousCause i s = some .busError) :
    TakesBusError i s :=
  ⟨s.enter .busError, (exec_of_synchronousCause h).2, entered_enter .., rfl, vectorAddress_of_ne_reset _ nofun⟩

/-- Where MISALIGNED_DATA is the bus error, a misaligned access raises it (R66). -/
theorem dataCause_of_misaligned {s : State} {rA : Reg} {imm : Half} {n : Nat} {k : AccessKind}
    (hp : s.platform.misalignedData = .busError) (h : (s.reg rA + imm.signExtend 32).toNat % n ≠ 0) :
    dataCause s (s.dataAddress rA imm n) n k = some .busError := by
  have haddress : s.dataAddress rA imm n = s.reg rA + imm.signExtend 32 :=
    dataAddress_of_ne_truncate s rA imm n (by simp [hp])
  have hmis : misaligned (s.reg rA + imm.signExtend 32) n = true := bne_iff_ne.2 h
  rw [haddress, dataCause_eq_some_iff]
  simp [State.erroneous, hp, hmis]

/-- Where MISALIGNED_DATA is `refuse`, a misaligned access is refused, by its address (log entry 31). -/
theorem refusesAccess_of_misaligned {s : State} {rA : Reg} {imm : Half} {n : Nat}
    (hp : s.platform.misalignedData = .refuse) (h : (s.reg rA + imm.signExtend 32).toNat % n ≠ 0) :
    s.dataAddress rA imm n = s.reg rA + imm.signExtend 32 ∧ s.refusesAccess (s.dataAddress rA imm n) n = true := by
  have haddress : s.dataAddress rA imm n = s.reg rA + imm.signExtend 32 :=
    dataAddress_of_ne_truncate s rA imm n (by simp [hp])
  exact ⟨haddress, (refusesAccess_eq_true_iff ..).2 ⟨hp, haddress ▸ h⟩⟩

/-- A misaligned load that the platform refuses. -/
theorem loadInto_refused {n : Nat} {read : State → Word → Word} {rD rA : Reg} {imm : Half} {s : State}
    (hp : s.platform.misalignedData = .refuse) (h : (s.reg rA + imm.signExtend 32).toNat % n ≠ 0) :
    loadInto n read rD rA imm s = .refused (.misalignedAccess (s.reg rA + imm.signExtend 32)) := by
  obtain ⟨haddress, hrefuses⟩ := refusesAccess_of_misaligned hp h
  rw [loadInto, if_pos hrefuses, haddress]

/-- A misaligned store that the platform refuses. -/
theorem storeFrom_refused {n : Nat} {write : State → Word → Word → State} {rA rB : Reg} {imm : Half} {s : State}
    (hp : s.platform.misalignedData = .refuse) (h : (s.reg rA + imm.signExtend 32).toNat % n ≠ 0) :
    storeFrom n write rA rB imm s = .refused (.misalignedAccess (s.reg rA + imm.signExtend 32)) := by
  obtain ⟨haddress, hrefuses⟩ := refusesAccess_of_misaligned hp h
  rw [storeFrom, if_pos hrefuses, haddress]

/-- Settles O52: MISALIGNED_DATA says whether the misaligned access is the instruction's bus error or its refusal. -/
theorem misalignedDataTakesBusError : Obligations.MisalignedDataTakesBusError := by
  intro rD rA rB imm s
  refine ⟨fun hp => ⟨fun h => ?_, fun h => ?_⟩, fun hp => ⟨fun h => ?_, fun h => ?_⟩⟩
  · have hcause : ∀ k, dataCause s (s.dataAddress rA imm 2) 2 k = some .busError :=
      fun _ => dataCause_of_misaligned hp h
    exact ⟨takesBusError_of_cause (hcause .load), takesBusError_of_cause (hcause .load),
      takesBusError_of_cause (hcause .store)⟩
  · have hcause : ∀ k, dataCause s (s.dataAddress rA imm 4) 4 k = some .busError :=
      fun _ => dataCause_of_misaligned hp h
    exact ⟨takesBusError_of_cause (hcause .load), takesBusError_of_cause (hcause .load),
      takesBusError_of_cause (hcause .store)⟩
  · unfold exec
    exact ⟨loadInto_refused hp h, loadInto_refused hp h, storeFrom_refused hp h⟩
  · unfold exec
    exact ⟨loadInto_refused hp h, loadInto_refused hp h, storeFrom_refused hp h⟩

/-- An access that the platform declares erroneous, and that is not refused as misaligned, raises the bus error
(R67). -/
theorem dataCause_of_busFaultAt {s : State} {rA : Reg} {imm : Half} {n : Nat} {k : AccessKind}
    (hrefuse : (accessAddress s rA imm n).toNat % n = 0 ∨ s.platform.misalignedData ≠ .refuse)
    (h : s.busFaultAt (accessAddress s rA imm n) n k = true) :
    dataCause s (s.dataAddress rA imm n) n k = some .busError := by
  rw [accessAddress_eq_dataAddress] at hrefuse h
  have hrefuses : s.refusesAccess (s.dataAddress rA imm n) n = false := by
    refine Bool.eq_false_iff.2 fun hr => ?_
    obtain ⟨hp, hmis⟩ := (refusesAccess_eq_true_iff ..).1 hr
    exact hrefuse.elim hmis (· hp)
  exact dataCause_eq_some_iff.2 ⟨(erroneous_eq_true_iff _ _ _ _ hrefuses).2 (.inr h), rfl⟩

/-- Settles O53: a one-byte access is never misaligned. -/
theorem rejectedDataTakesBusError : Obligations.RejectedDataTakesBusError := by
  intro rD rA rB imm s
  have hbyte : (accessAddress s rA imm 1).toNat % 1 = 0 ∨ s.platform.misalignedData ≠ .refuse := .inl (Nat.mod_one _)
  have htakes : ∀ {i : Instr} {n : Nat} {k : AccessKind},
      synchronousCause i s = dataCause s (s.dataAddress rA imm n) n k →
      ((accessAddress s rA imm n).toNat % n = 0 ∨ s.platform.misalignedData ≠ .refuse) →
      s.busFaultAt (accessAddress s rA imm n) n k = true → TakesBusError i s :=
    fun hcause hr h => takesBusError_of_cause (hcause.trans (dataCause_of_busFaultAt hr h))
  exact ⟨fun h => ⟨htakes rfl hbyte h, htakes rfl hbyte h⟩, fun hr h => ⟨htakes rfl hr h, htakes rfl hr h⟩,
    fun hr h => ⟨htakes rfl hr h, htakes rfl hr h⟩, fun h => htakes rfl hbyte h, fun hr h => htakes rfl hr h,
    fun hr h => htakes rfl hr h⟩

/-- An access with a byte without memory has none as a whole (R67). -/
theorem mappedSpan_eq_false {s : State} {a : Word} {n j : Nat} (hj : j < n)
    (h : s.mappedAt (a + BitVec.ofNat 32 j) = false) : s.mappedSpan a n = false :=
  Bool.eq_false_iff.2 fun hmapped => by cases h.symm.trans ((mappedSpan_eq_true_iff ..).1 hmapped j hj)

/-- A load without memory, for which the platform declares no bus error, has no next state (R67). -/
theorem loadInto_unmapped {n j : Nat} {read : State → Word → Word} {rD rA : Reg} {imm : Half} {s : State} (hj : j < n)
    (halign : AlignmentAllows s (accessAddress s rA imm n) n)
    (hmapped : s.mappedAt (accessAddress s rA imm n + BitVec.ofNat 32 j) = false)
    (hbus : s.busFaultAt (accessAddress s rA imm n) n .load = false) :
    loadInto n read rD rA imm s = .fault (.unmapped .load (accessAddress s rA imm n)) := by
  rw [accessAddress_eq_dataAddress] at halign hmapped hbus ⊢
  obtain ⟨hrefuses, herroneous⟩ := halign.checks hbus
  simp [loadInto, hrefuses, herroneous, mappedSpan_eq_false hj hmapped]

/-- A store without memory, for which the platform declares no bus error, has no next state (R67). -/
theorem storeFrom_unmapped {n j : Nat} {write : State → Word → Word → State} {rA rB : Reg} {imm : Half} {s : State}
    (hj : j < n) (halign : AlignmentAllows s (accessAddress s rA imm n) n)
    (hmapped : s.mappedAt (accessAddress s rA imm n + BitVec.ofNat 32 j) = false)
    (hbus : s.busFaultAt (accessAddress s rA imm n) n .store = false) :
    storeFrom n write rA rB imm s = .fault (.unmapped .store (accessAddress s rA imm n)) := by
  rw [accessAddress_eq_dataAddress] at halign hmapped hbus ⊢
  obtain ⟨hrefuses, herroneous⟩ := halign.checks hbus
  simp [storeFrom, hrefuses, herroneous, mappedSpan_eq_false hj hmapped]

/-- A fetch without memory, for which the platform declares no bus error, has no next state (R67). -/
theorem cycle_unmapped {s : State} {j : Nat} (hj : j < 4) (hrst : s.rst = false) (halign : s.pc.toNat % 4 = 0)
    (hbus : s.busFaultAt s.pc 4 .fetch = false) (hmapped : s.mappedAt (s.pc + BitVec.ofNat 32 j) = false) :
    cycle s = .fault (.unmapped .fetch s.pc) := by
  simp [cycle, hrst, (misaligned_eq_false_iff ..).2 halign, hbus, mappedSpan_eq_false hj hmapped]

/-- Settles O54: a data access or a fetch that passes every check but the last ends in the fault. -/
theorem accessWithoutMemoryStops : Obligations.AccessWithoutMemoryStops := by
  refine ⟨fun rD rA rB imm s n j hj halign hmapped => ?_, fun s j hj hrst halign hbus hmapped =>
    cycle_unmapped hj hrst halign hbus hmapped⟩
  unfold exec
  refine ⟨fun hbus => ?loads, fun hbus => ?stores⟩
  case loads =>
    refine ⟨?_, ?_, ?_⟩ <;> rintro rfl <;>
    exact ⟨loadInto_unmapped hj halign hmapped hbus, loadInto_unmapped hj halign hmapped hbus⟩
  case stores =>
    refine ⟨?_, ?_, ?_⟩ <;> rintro rfl <;>
    exact storeFrom_unmapped hj halign hmapped hbus

end Sys2Proof.Machine

namespace Sys2Proof.Machine

/-! ### The special registers -/

/-- A special-register number in the terms of the statements is the model's (R40). -/
theorem sprNumber_eq (s : State) (rA : Reg) (imm : Half) : s.sprNumber rA imm = s.reg rA ||| (0#16 ++ imm) := by
  rw [State.sprNumber, zeroExtended_eq_append]

/-- The three special registers have three numbers (R40). -/
theorem sprNumbers_ne {n : SprNumbers} (h : n.wellFormed = true) : n.sr ≠ n.epc ∧ n.sr ≠ n.esr ∧ n.epc ≠ n.esr :=
  of_decide_eq_true h

/-- An l.mfspr of a special register writes its value to `x[rD]`, and changes nothing else but `pc` (R241). -/
theorem exec_lMfspr_of_readSpr {rD rA : Reg} {imm : Half} {s : State} {n v : Word} (hn : s.reg rA ||| (0#16 ++ imm) = n)
    (h : s.readSpr n = some v) : ∃ t, exec (.lMfspr rD rA imm) s = .next t ∧ WritesOnly s t rD v := by
  subst hn
  refine ⟨_, ?_, writesOnly_setReg_advance s rD v⟩
  simp only [exec, execMfspr, sprNumber_eq, h]

/-- Settles O55: each of the three numbers reads its register. -/
theorem moveFromSpecialRegister : Obligations.MoveFromSpecialRegister := by
  intro rD rA imm s hwf
  obtain ⟨h12, h13, h23⟩ := sprNumbers_ne hwf
  exact ⟨fun hn => exec_lMfspr_of_readSpr hn (by simp [State.readSpr]),
    fun hn => exec_lMfspr_of_readSpr hn (by simp [State.readSpr, h12.symm]),
    fun hn => exec_lMfspr_of_readSpr hn (by simp [State.readSpr, h13.symm, h23.symm])⟩

/-- l.mtspr writes `x[rB]` to the special register of that number (R242). -/
theorem exec_lMtspr {rA rB : Reg} {imm : Half} {s : State} {n : Word} (hn : s.reg rA ||| (0#16 ++ imm) = n) :
    exec (.lMtspr rA rB imm) s = s.writeSpr n (s.reg rB) := by
  rw [← hn, ← sprNumber_eq]
  rfl

/-- A write of SR without reserved bits goes on with that SR (R34). -/
theorem writeSpr_sr {s : State} {v : Word} (hv : hasReservedBits s.platform.statusBits v = false) :
    s.writeSpr s.platform.sprNumbers.sr v = .next { s with sr := v }.advance := by
  simp [State.writeSpr, hv]

/-- A write of EPC goes on with that EPC, all 32 bits of it (R36). -/
theorem writeSpr_epc {s : State} {v : Word} (hwf : s.platform.sprNumbers.wellFormed = true) :
    s.writeSpr s.platform.sprNumbers.epc v = .next { s with epc := v }.advance := by
  obtain ⟨h12, -, -⟩ := sprNumbers_ne hwf
  simp [State.writeSpr, h12.symm]

/-- A write of ESR without reserved bits goes on with that ESR (R34). -/
theorem writeSpr_esr {s : State} {v : Word} (hwf : s.platform.sprNumbers.wellFormed = true)
    (hv : hasReservedBits s.platform.statusBits v = false) :
    s.writeSpr s.platform.sprNumbers.esr v = .next { s with esr := v }.advance := by
  obtain ⟨-, h13, h23⟩ := sprNumbers_ne hwf
  simp [State.writeSpr, h13.symm, h23.symm, hv]

/-- A write of SR or ESR with a reserved bit is refused (R34). -/
theorem writeSpr_reserved {s : State} {n v : Word} (hwf : s.platform.sprNumbers.wellFormed = true)
    (hn : n = s.platform.sprNumbers.sr ∨ n = s.platform.sprNumbers.esr)
    (hv : hasReservedBits s.platform.statusBits v = true) : s.writeSpr n v = .refused (.reservedStatusBits v) := by
  obtain ⟨-, h13, h23⟩ := sprNumbers_ne hwf
  rcases hn with rfl | rfl
  · simp [State.writeSpr, hv]
  · simp [State.writeSpr, h13.symm, h23.symm, hv]

/-- Settles O56: each of the three numbers writes its register, SR and ESR a value without reserved bits. -/
theorem moveToSpecialRegister : Obligations.MoveToSpecialRegister := by
  intro rA rB imm s hwf
  refine ⟨fun hn hv => ?sr, fun hn => ?epc, fun hn hv => ?esr⟩
  case sr =>
    exact ⟨_, (exec_lMtspr hn).trans (writeSpr_sr (hasReservedBits_eq_false_of_onlyNamedBits hv)), rfl, rfl,
      fun _ => rfl, fun _ => rfl, ⟨rfl, rfl, rfl⟩, ⟨rfl, rfl, rfl, rfl⟩⟩
  case epc =>
    exact ⟨_, (exec_lMtspr hn).trans (writeSpr_epc hwf), rfl, rfl, rfl, rfl, rfl, fun _ => rfl, fun _ => rfl,
      ⟨rfl, rfl, rfl, rfl⟩⟩
  case esr =>
    exact ⟨_, (exec_lMtspr hn).trans (writeSpr_esr hwf (hasReservedBits_eq_false_of_onlyNamedBits hv)), rfl, rfl, rfl,
      rfl, rfl, fun _ => rfl, fun _ => rfl, ⟨rfl, rfl, rfl, rfl⟩⟩

/-- A value with a bit set that no source names has a reserved bit (R34). -/
theorem hasReservedBits_of_not_onlyNamedBits {b : StatusBits} {v : Word} (h : ¬ OnlyNamedBits b v) :
    hasReservedBits b v = true :=
  (Bool.not_eq_false _).mp fun hfalse => h ((hasReservedBits_eq_false_iff b v).1 hfalse)

/-- Settles O57: the number is none of the three, or the value has a reserved bit. -/
theorem specialRegisterRefusals : Obligations.SpecialRegisterRefusals := by
  intro rD rA rB imm s hwf
  refine ⟨fun hsr hepc hesr => ⟨?mfspr, ?mtspr⟩, fun hn hv => ?reserved, fun hesr => ?rfe⟩
  case mfspr =>
    have hread : s.readSpr (s.reg rA ||| (0#16 ++ imm)) = none := by simp [State.readSpr, hsr, hepc, hesr]
    simp only [exec, execMfspr, sprNumber_eq, hread]
  case mtspr => rw [exec_lMtspr rfl, State.writeSpr, if_neg hsr, if_neg hepc, if_neg hesr]
  case reserved => rw [exec_lMtspr rfl, writeSpr_reserved hwf hn (hasReservedBits_of_not_onlyNamedBits hv)]
  case rfe =>
    show s.returnFromException = _
    rw [State.returnFromException, if_pos (hasReservedBits_of_not_onlyNamedBits hesr)]

end Sys2Proof.Machine
